-- ==== Sys2Proof/Word.lean ====
section
/-! DEFINITION. Byte, word and double word, and the data width that a w bit selects (spec R6, R88). -/

namespace Sys2Proof

/-- A byte: 8 bits (R5). -/
abbrev Byte := BitVec 8

/-- A word: `OPSIZE` = `ADDRSIZE` = 16 bits (R4). -/
abbrev Word := BitVec 16

/-- A double word: the width of a general register `x[i]` (R20). -/
abbrev Dword := BitVec 32

/-- The data width that the w bit selects (R88): `byte` is w = 0, `word` is w = 1. -/
inductive Width where
  | byte
  | word
deriving DecidableEq, Repr

/-- n of the rules: 8 when w = 0 and `OPSIZE` = 16 when w = 1 (R88). -/
@[reducible] def Width.bits : Width → Nat
  | .byte => 8
  | .word => 16

/-- n/8: the number of bytes an operand of this width has (R56). -/
@[reducible] def Width.bytes : Width → Nat
  | .byte => 1
  | .word => 2

end Sys2Proof
end

