-- ==== Sys2Proof/Syntax.lean ====
section
/-! DEFINITION. The syntax: operands and one constructor of `Instr` per row of spec/opcode_table.json. -/

namespace Sys2Proof

/-- A 3-bit register field (R86, R87). Which register it names depends on the width (R23). -/
abbrev RegNum := BitVec 3

/-- The eight base and index sums of the r/m table (R84), in the order r/m = 000 .. 111. -/
inductive BaseIndex where
  | bxsi
  | bxdi
  | bpsi
  | bpdi
  | si
  | di
  | bp
  | bx
deriving DecidableEq, Repr

/-- A memory operand: the cases of mod and r/m with mod ≠ 11 (R83, R84). -/
inductive Mem where
  /-- mod = 00, r/m = 110: "Direct Address", the 16-bit displacement is the effective address -/
  | direct (d16 : Word)
  /-- mod = 00: no displacement (not with `bp`, which is the Direct Address encoding) -/
  | plain (b : BaseIndex)
  /-- mod = 01: an 8-bit displacement follows -/
  | disp8 (b : BaseIndex) (d8 : Byte)
  /-- mod = 10: a 16-bit displacement follows -/
  | disp16 (b : BaseIndex) (d16 : Word)
deriving DecidableEq, Repr

/-- The immediate of a pattern with a w bit and no s bit (R95). -/
inductive Imm where
  /-- w = 0 -/
  | byte (v : Byte)
  /-- w = 1 -/
  | word (v : Word)
deriving DecidableEq, Repr

/-- The immediate of a pattern `1000 00sw` (R89). -/
inductive ImmSW where
  /-- w = 0: opcode 80h (s = 0) or 82h (s = 1), the byte itself -/
  | byte (s : Bool) (v : Byte)
  /-- s = 0, w = 1: opcode 81h, the 16-bit word -/
  | word (v : Word)
  /-- s = 1, w = 1: opcode 83h, the byte sign-extended to 16 bits -/
  | sext (v : Byte)
deriving DecidableEq, Repr

/-- The sixteen conditions of the Jcc table, tttn = 0000 .. 1111 (R130). -/
inductive Cond where
  | o
  | no
  | b
  | nb
  | e
  | ne
  | be
  | nbe
  | s
  | ns
  | p
  | np
  | l
  | nl
  | le
  | nle
deriving DecidableEq, Repr

/-- The instructions: one constructor per row of spec/opcode_table.json. Register operands named `reg1` and
`reg2` are ModRM bits 5..3 and 2..0 (R82). -/
inductive Instr where
  -- ADD (R152 to R158)
  | addReg1ToReg2 (w : Width) (reg1 reg2 : RegNum)
  | addReg2ToReg1 (w : Width) (reg1 reg2 : RegNum)
  | addMemToReg (w : Width) (reg : RegNum) (m : Mem)
  | addRegToMem (w : Width) (reg : RegNum) (m : Mem)
  | addImmToReg (imm : ImmSW) (reg : RegNum)
  | addImmToAcc (imm : Imm)
  | addImmToMem (imm : ImmSW) (m : Mem)
  -- DAA, DAS (R159, R160)
  | daa
  | das
  -- DEC (R161 to R163)
  | decReg (w : Width) (reg : RegNum)
  | decRegAlt (reg : RegNum)
  | decMem (w : Width) (m : Mem)
  -- DIV (R165, R166)
  | divReg (w : Width) (reg : RegNum)
  | divMem (w : Width) (m : Mem)
  -- IN (R180, R181)
  | inFixed (w : Width) (port : Byte)
  | inVariable (w : Width)
  -- INC (R167 to R169)
  | incReg (w : Width) (reg : RegNum)
  | incRegAlt (reg : RegNum)
  | incMem (w : Width) (m : Mem)
  -- INS (R182), INT n (R183), INT 3 (R184)
  | ins (w : Width)
  | intN (type : Byte)
  | int3
  -- Jcc, 8-bit displacement (R131)
  | joShort (d : Byte)
  | jnoShort (d : Byte)
  | jbShort (d : Byte)
  | jnbShort (d : Byte)
  | jeShort (d : Byte)
  | jneShort (d : Byte)
  | jbeShort (d : Byte)
  | jnbeShort (d : Byte)
  | jsShort (d : Byte)
  | jnsShort (d : Byte)
  | jpShort (d : Byte)
  | jnpShort (d : Byte)
  | jlShort (d : Byte)
  | jnlShort (d : Byte)
  | jleShort (d : Byte)
  | jnleShort (d : Byte)
  -- Jcc, full displacement (R132)
  | joFull (d : Word)
  | jnoFull (d : Word)
  | jbFull (d : Word)
  | jnbFull (d : Word)
  | jeFull (d : Word)
  | jneFull (d : Word)
  | jbeFull (d : Word)
  | jnbeFull (d : Word)
  | jsFull (d : Word)
  | jnsFull (d : Word)
  | jpFull (d : Word)
  | jnpFull (d : Word)
  | jlFull (d : Word)
  | jnlFull (d : Word)
  | jleFull (d : Word)
  | jnleFull (d : Word)
  -- JCXZ (R139), JMP (R133 to R138), LOOP (R140)
  | jcxz (d : Byte)
  | jmpShort (d : Byte)
  | jmpDirect (d : Word)
  | jmpReg (reg : RegNum)
  | jmpMem (m : Mem)
  | jmpFar (offset selector : Word)
  | jmpFarMem (m : Mem)
  | loop (d : Byte)
  -- MOV (R190 to R198)
  | movReg1ToReg2 (w : Width) (reg1 reg2 : RegNum)
  | movReg2ToReg1 (w : Width) (reg1 reg2 : RegNum)
  | movMemToReg (w : Width) (reg : RegNum) (m : Mem)
  | movRegToMem (w : Width) (reg : RegNum) (m : Mem)
  | movImmToReg (imm : Imm) (reg : RegNum)
  | movImmToRegAlt (imm : Imm) (reg : RegNum)
  | movImmToMem (imm : Imm) (m : Mem)
  | movMemToAcc (w : Width) (offset : Word)
  | movAccToMem (w : Width) (offset : Word)
  -- NOP (R199), NOT (R200, R201), OR (R202, R203)
  | nop
  | notReg (w : Width) (reg : RegNum)
  | notMem (w : Width) (m : Mem)
  | orReg1ToReg2 (w : Width) (reg1 reg2 : RegNum)
  | orReg2ToReg1 (w : Width) (reg1 reg2 : RegNum)
  -- SUB (R170 to R176)
  | subReg1ToReg2 (w : Width) (reg1 reg2 : RegNum)
  | subReg2ToReg1 (w : Width) (reg1 reg2 : RegNum)
  | subMemToReg (w : Width) (reg : RegNum) (m : Mem)
  | subRegToMem (w : Width) (reg : RegNum) (m : Mem)
  | subImmToReg (imm : ImmSW) (reg : RegNum)
  | subImmToAcc (imm : Imm)
  | subImmToMem (imm : ImmSW) (m : Mem)
deriving DecidableEq, Repr

/-- The Jcc with an 8-bit displacement of a condition (R131). -/
def Instr.jccShort : Cond → Byte → Instr
  | .o, d => .joShort d
  | .no, d => .jnoShort d
  | .b, d => .jbShort d
  | .nb, d => .jnbShort d
  | .e, d => .jeShort d
  | .ne, d => .jneShort d
  | .be, d => .jbeShort d
  | .nbe, d => .jnbeShort d
  | .s, d => .jsShort d
  | .ns, d => .jnsShort d
  | .p, d => .jpShort d
  | .np, d => .jnpShort d
  | .l, d => .jlShort d
  | .nl, d => .jnlShort d
  | .le, d => .jleShort d
  | .nle, d => .jnleShort d

/-- The Jcc with a full displacement of a condition (R132). -/
def Instr.jccFull : Cond → Word → Instr
  | .o, d => .joFull d
  | .no, d => .jnoFull d
  | .b, d => .jbFull d
  | .nb, d => .jnbFull d
  | .e, d => .jeFull d
  | .ne, d => .jneFull d
  | .be, d => .jbeFull d
  | .nbe, d => .jnbeFull d
  | .s, d => .jsFull d
  | .ns, d => .jnsFull d
  | .p, d => .jpFull d
  | .np, d => .jnpFull d
  | .l, d => .jlFull d
  | .nl, d => .jnlFull d
  | .le, d => .jleFull d
  | .nle, d => .jnleFull d

end Sys2Proof
end

