-- ==== Sys2Proof/WellFormed.lean ====
section
/-! DEFINITION. Well-formed instructions: those that have an encoding. The one check: a memory operand with no
displacement and base BP alone does not exist, because mod = 00 with r/m = 110 is the Direct Address (spec R83, R84). -/

namespace Sys2Proof

/-- The memory operand has an encoding: mod = 00 with r/m = 110 is never (BP) (R84). -/
def Mem.wellFormed : Mem → Bool
  | .direct _ => true
  | .plain b => b != .bp
  | .disp8 _ _ => true
  | .disp16 _ _ => true

/-- The memory operand of an instruction, where it has one. -/
def Instr.mem? : Instr → Option Mem
  | .addMemToReg _ _ m | .addRegToMem _ _ m | .addImmToMem _ m => some m
  | .decMem _ m | .divMem _ m | .incMem _ m => some m
  | .jmpMem m | .jmpFarMem m => some m
  | .movMemToReg _ _ m | .movRegToMem _ _ m | .movImmToMem _ m => some m
  | .notMem _ m => some m
  | .subMemToReg _ _ m | .subRegToMem _ _ m | .subImmToMem _ m => some m
  | .addReg1ToReg2 _ _ _ | .addReg2ToReg1 _ _ _ | .addImmToReg _ _ | .addImmToAcc _ => none
  | .daa | .das | .decReg _ _ | .decRegAlt _ | .divReg _ _ => none
  | .inFixed _ _ | .inVariable _ | .incReg _ _ | .incRegAlt _ | .ins _ | .intN _ | .int3 => none
  | .joShort _ | .jnoShort _ | .jbShort _ | .jnbShort _ | .jeShort _ | .jneShort _ => none
  | .jbeShort _ | .jnbeShort _ | .jsShort _ | .jnsShort _ | .jpShort _ | .jnpShort _ => none
  | .jlShort _ | .jnlShort _ | .jleShort _ | .jnleShort _ => none
  | .joFull _ | .jnoFull _ | .jbFull _ | .jnbFull _ | .jeFull _ | .jneFull _ => none
  | .jbeFull _ | .jnbeFull _ | .jsFull _ | .jnsFull _ | .jpFull _ | .jnpFull _ => none
  | .jlFull _ | .jnlFull _ | .jleFull _ | .jnleFull _ => none
  | .jcxz _ | .jmpShort _ | .jmpDirect _ | .jmpReg _ | .jmpFar _ _ | .loop _ => none
  | .movReg1ToReg2 _ _ _ | .movReg2ToReg1 _ _ _ | .movImmToReg _ _ | .movImmToRegAlt _ _ => none
  | .movMemToAcc _ _ | .movAccToMem _ _ | .nop | .notReg _ _ => none
  | .orReg1ToReg2 _ _ _ | .orReg2ToReg1 _ _ _ => none
  | .subReg1ToReg2 _ _ _ | .subReg2ToReg1 _ _ _ | .subImmToReg _ _ | .subImmToAcc _ => none

/-- The instruction has an encoding: its memory operand, where it has one, is well formed. -/
def Instr.wellFormed (i : Instr) : Bool :=
  match i.mem? with
  | some m => m.wellFormed
  | none => true

end Sys2Proof
end

