-- ==== Sys2Proof/Decode.lean ====
section
/-! DEFINITION. From bytes to instructions (spec R80 to R102) and back: `decode`, total on any bytes and rejecting
by name; `Instr.length` (R105); `encode`; and `decodeTableWord`, the decoder on a row of spec/opcode_table.json. -/

namespace Sys2Proof

/-! ## Parsing bytes -/

/-- What reading a prefix of a byte sequence gives. -/
inductive Parsed (α : Type) where
  /-- the item read and the bytes after it -/
  | ok (a : α) (rest : List Byte)
  /-- the bytes read so far match no row of the opcode table (R99); the bytes not looked at -/
  | unlisted (rest : List Byte)
  /-- more bytes are needed than there are -/
  | short
deriving DecidableEq, Repr

/-- A reader of a byte sequence. -/
abbrev Parse (α : Type) := List Byte → Parsed α

/-- Nothing more to read. -/
def Parse.done {α : Type} (a : α) : Parse α := fun bs => .ok a bs

/-- One byte. -/
def Parse.byte {α : Type} (k : Byte → Parse α) : Parse α
  | [] => .short
  | b :: bs => k b bs

/-- Two bytes as a word, the low byte first (R52, R94, R95, R96). -/
def Parse.word {α : Type} (k : Word → Parse α) : Parse α :=
  Parse.byte fun lo => Parse.byte fun hi => k (hi ++ lo)

/-- The immediate of a pattern with a w bit and no s bit: 1 byte when w = 0, 2 when w = 1 (R95). -/
def Parse.imm {α : Type} (w : Width) (k : Imm → Parse α) : Parse α :=
  match w with
  | .byte => Parse.byte fun v => k (.byte v)
  | .word => Parse.word fun v => k (.word v)

/-- The immediate of a pattern with s and w bits (R89): two bytes only when s = 0 and w = 1. -/
def Parse.immSW {α : Type} (s : Bool) (w : Width) (k : ImmSW → Parse α) : Parse α :=
  match w, s with
  | .byte, s => Parse.byte fun v => k (.byte s v)
  | .word, false => Parse.word fun v => k (.word v)
  | .word, true => Parse.byte fun v => k (.sext v)

/-- The row of the r/m table (R84) that a 3-bit r/m field names. -/
def BaseIndex.ofField (rm : BitVec 3) : BaseIndex :=
  if rm = 0 then .bxsi
  else if rm = 1 then .bxdi
  else if rm = 2 then .bpsi
  else if rm = 3 then .bpdi
  else if rm = 4 then .si
  else if rm = 5 then .di
  else if rm = 6 then .bp
  else .bx

/-- The memory operand of mod ≠ 11 and r/m, with the displacement bytes R83 says follow. -/
def Parse.mem {α : Type} (mod : BitVec 2) (rm : BitVec 3) (k : Mem → Parse α) : Parse α :=
  if mod = 0 then
    if rm = 6 then Parse.word fun d => k (.direct d)
    else k (.plain (BaseIndex.ofField rm))
  else if mod = 1 then Parse.byte fun d => k (.disp8 (BaseIndex.ofField rm) d)
  else Parse.word fun d => k (.disp16 (BaseIndex.ofField rm) d)

/-! ## The opcode map -/

/-- The operations of the two-operand patterns `MODRM_R` (R81). -/
inductive RmOp where
  | add
  | or
  | sub
  | mov
deriving DecidableEq, Repr

/-- The first bytes after which a ModRM byte follows (R97, R98). -/
inductive RmForm where
  /-- ADD, OR, SUB, MOV with a register field; `toReg` is the d bit (R90) -/
  | two (op : RmOp) (toReg : Bool) (w : Width)
  /-- 80h .. 83h -/
  | group80 (s : Bool) (w : Width)
  /-- C6h, C7h -/
  | groupC6 (w : Width)
  /-- F6h, F7h -/
  | groupF6 (w : Width)
  /-- FEh -/
  | groupFE
  /-- FFh -/
  | groupFF
deriving DecidableEq, Repr

/-- What a first byte starts: the entries of the first-byte map (R97). -/
inductive Opcode where
  | modRM (f : RmForm)
  | addImmToAcc (w : Width)
  | subImmToAcc (w : Width)
  | twoByte
  | daa
  | das
  | incRegAlt (reg : RegNum)
  | decRegAlt (reg : RegNum)
  | ins (w : Width)
  | jccShort (c : Cond)
  | nop
  | movMemToAcc (w : Width)
  | movAccToMem (w : Width)
  | movImmToRegAlt (w : Width) (reg : RegNum)
  | int3
  | intN
  | loop
  | jcxz
  | inFixed (w : Width)
  | jmpDirect
  | jmpFar
  | jmpShort
  | inVariable (w : Width)
deriving DecidableEq, Repr

/-- The width a w bit gives (R88). -/
def Width.ofBit (b : Bool) : Width := if b then .word else .byte

/-- The condition of a tttn field (R91, R130). -/
def Cond.ofField (tttn : BitVec 4) : Cond :=
  if tttn = 0x0 then .o
  else if tttn = 0x1 then .no
  else if tttn = 0x2 then .b
  else if tttn = 0x3 then .nb
  else if tttn = 0x4 then .e
  else if tttn = 0x5 then .ne
  else if tttn = 0x6 then .be
  else if tttn = 0x7 then .nbe
  else if tttn = 0x8 then .s
  else if tttn = 0x9 then .ns
  else if tttn = 0xA then .p
  else if tttn = 0xB then .np
  else if tttn = 0xC then .l
  else if tttn = 0xD then .nl
  else if tttn = 0xE then .le
  else .nle

/-- One line of the first-byte map: the byte ANDed with `mask` equals `pattern` (R97, R107). -/
structure OpcodeLine where
  mask : Byte
  pattern : Byte
  /-- the entry, from the byte's w, reg, s or tttn bits -/
  entry : Byte → Opcode

/-- Does a first byte match a line? -/
def OpcodeLine.matches (l : OpcodeLine) (b : Byte) : Bool := b &&& l.mask == l.pattern

/-- The w bit in bit 0 (R88). -/
def wBit (b : Byte) : Width := Width.ofBit (b.getLsbD 0)

/-- The register field in bits 2..0. -/
def lowField (b : Byte) : RegNum := b.extractLsb' 0 3

/-- The first-byte map (R97), one line per pattern in numeric order. -/
def opcodeMap : List OpcodeLine :=
  [ ⟨0xFE, 0x00, fun b => .modRM (.two .add false (wBit b))⟩,
    ⟨0xFE, 0x02, fun b => .modRM (.two .add true (wBit b))⟩,
    ⟨0xFE, 0x04, fun b => .addImmToAcc (wBit b)⟩,
    ⟨0xFE, 0x08, fun b => .modRM (.two .or false (wBit b))⟩,
    ⟨0xFE, 0x0A, fun b => .modRM (.two .or true (wBit b))⟩,
    ⟨0xFF, 0x0F, fun _ => .twoByte⟩,
    ⟨0xFF, 0x27, fun _ => .daa⟩,
    ⟨0xFE, 0x28, fun b => .modRM (.two .sub false (wBit b))⟩,
    ⟨0xFE, 0x2A, fun b => .modRM (.two .sub true (wBit b))⟩,
    ⟨0xFE, 0x2C, fun b => .subImmToAcc (wBit b)⟩,
    ⟨0xFF, 0x2F, fun _ => .das⟩,
    ⟨0xF8, 0x40, fun b => .incRegAlt (lowField b)⟩,
    ⟨0xF8, 0x48, fun b => .decRegAlt (lowField b)⟩,
    ⟨0xFE, 0x6C, fun b => .ins (wBit b)⟩,
    ⟨0xF0, 0x70, fun b => .jccShort (Cond.ofField (b.extractLsb' 0 4))⟩,
    ⟨0xFC, 0x80, fun b => .modRM (.group80 (b.getLsbD 1) (wBit b))⟩,
    ⟨0xFE, 0x88, fun b => .modRM (.two .mov false (wBit b))⟩,
    ⟨0xFE, 0x8A, fun b => .modRM (.two .mov true (wBit b))⟩,
    ⟨0xFF, 0x90, fun _ => .nop⟩,
    ⟨0xFE, 0xA0, fun b => .movMemToAcc (wBit b)⟩,
    ⟨0xFE, 0xA2, fun b => .movAccToMem (wBit b)⟩,
    ⟨0xF0, 0xB0, fun b => .movImmToRegAlt (Width.ofBit (b.getLsbD 3)) (lowField b)⟩,
    ⟨0xFE, 0xC6, fun b => .modRM (.groupC6 (wBit b))⟩,
    ⟨0xFF, 0xCC, fun _ => .int3⟩,
    ⟨0xFF, 0xCD, fun _ => .intN⟩,
    ⟨0xFF, 0xE2, fun _ => .loop⟩,
    ⟨0xFF, 0xE3, fun _ => .jcxz⟩,
    ⟨0xFE, 0xE4, fun b => .inFixed (wBit b)⟩,
    ⟨0xFF, 0xE9, fun _ => .jmpDirect⟩,
    ⟨0xFF, 0xEA, fun _ => .jmpFar⟩,
    ⟨0xFF, 0xEB, fun _ => .jmpShort⟩,
    ⟨0xFE, 0xEC, fun b => .inVariable (wBit b)⟩,
    ⟨0xFE, 0xF6, fun b => .modRM (.groupF6 (wBit b))⟩,
    ⟨0xFF, 0xFE, fun _ => .modRM .groupFE⟩,
    ⟨0xFF, 0xFF, fun _ => .modRM .groupFF⟩ ]

/-- The entry of the first-byte map a byte matches; none where it starts no in-scope instruction (R97, R99). -/
def opcodeOf (b : Byte) : Option Opcode :=
  (opcodeMap.find? fun l => l.matches b).map fun l => l.entry b

/-- What may follow a ModRM byte: how to go on when mod = 11 (a register) and when mod ≠ 11 (a memory operand);
`none` where the handout lists no such line, which is refused (R99, R106). -/
structure RmLines where
  onReg : Option (RegNum → Parse Instr)
  onMem : Option (Mem → Parse Instr)

/-- Nothing is listed. -/
def RmLines.nothing : RmLines := ⟨none, none⟩

/-- A register line and a memory line with nothing after the operand. -/
def RmLines.plain (r : RegNum → Instr) (m : Mem → Instr) : RmLines :=
  ⟨some fun q => Parse.done (r q), some fun x => Parse.done (m x)⟩

/-- The lines a first byte and ModRM bits 5..3 (`field`) select (R97, R98). -/
def rmLines : RmForm → BitVec 3 → RmLines
  | .two .add false w, field => .plain (.addReg1ToReg2 w field) (.addRegToMem w field)
  | .two .add true w, field => .plain (.addReg2ToReg1 w field) (.addMemToReg w field)
  | .two .sub false w, field => .plain (.subReg1ToReg2 w field) (.subRegToMem w field)
  | .two .sub true w, field => .plain (.subReg2ToReg1 w field) (.subMemToReg w field)
  | .two .mov false w, field => .plain (.movReg1ToReg2 w field) (.movRegToMem w field)
  | .two .mov true w, field => .plain (.movReg2ToReg1 w field) (.movMemToReg w field)
  | .two .or false w, field => ⟨some fun r => Parse.done (.orReg1ToReg2 w field r), none⟩
  | .two .or true w, field => ⟨some fun r => Parse.done (.orReg2ToReg1 w field r), none⟩
  | .group80 s w, field =>
    if field = 0 then
      ⟨some fun r => Parse.immSW s w fun v => Parse.done (.addImmToReg v r),
       some fun m => Parse.immSW s w fun v => Parse.done (.addImmToMem v m)⟩
    else if field = 5 then
      ⟨some fun r => Parse.immSW s w fun v => Parse.done (.subImmToReg v r),
       some fun m => Parse.immSW s w fun v => Parse.done (.subImmToMem v m)⟩
    else .nothing
  | .groupC6 w, field =>
    if field = 0 then
      ⟨some fun r => Parse.imm w fun v => Parse.done (.movImmToReg v r),
       some fun m => Parse.imm w fun v => Parse.done (.movImmToMem v m)⟩
    else .nothing
  | .groupF6 w, field =>
    if field = 2 then .plain (.notReg w) (.notMem w)
    else if field = 6 then .plain (.divReg w) (.divMem w)
    else .nothing
  | .groupFE, field =>
    if field = 0 then .plain (.incReg .byte) (.incMem .byte)
    else if field = 1 then .plain (.decReg .byte) (.decMem .byte)
    else .nothing
  | .groupFF, field =>
    if field = 0 then .plain (.incReg .word) (.incMem .word)
    else if field = 1 then .plain (.decReg .word) (.decMem .word)
    else if field = 4 then .plain .jmpReg .jmpMem
    else if field = 5 then ⟨none, some fun m => Parse.done (.jmpFarMem m)⟩
    else .nothing

/-- The ModRM byte and what follows it: mod in bits 7..6, the field in bits 5..3, r/m in bits 2..0 (R82, R102 step 3). -/
def decodeRM (f : RmForm) : Parse Instr :=
  Parse.byte fun b =>
    if b.extractLsb' 6 2 = 3 then
      match (rmLines f (b.extractLsb' 3 3)).onReg with
      | some k => k (lowField b)
      | none => fun rest => .unlisted rest
    else
      match (rmLines f (b.extractLsb' 3 3)).onMem with
      | some k => Parse.mem (b.extractLsb' 6 2) (lowField b) k
      | none => fun rest => .unlisted rest

/-- What follows an entry of the first-byte map (R81, R102 steps 2 to 4). -/
def decodeAfter : Opcode → Parse Instr
  | .modRM f => decodeRM f
  | .addImmToAcc w => Parse.imm w fun v => Parse.done (.addImmToAcc v)
  | .subImmToAcc w => Parse.imm w fun v => Parse.done (.subImmToAcc v)
  | .twoByte => Parse.byte fun b =>
      if b &&& 0xF0 = 0x80 then Parse.word fun d => Parse.done (Instr.jccFull (Cond.ofField (b.extractLsb' 0 4)) d)
      else fun rest => .unlisted rest
  | .daa => Parse.done .daa
  | .das => Parse.done .das
  | .incRegAlt r => Parse.done (.incRegAlt r)
  | .decRegAlt r => Parse.done (.decRegAlt r)
  | .ins w => Parse.done (.ins w)
  | .jccShort c => Parse.byte fun d => Parse.done (Instr.jccShort c d)
  | .nop => Parse.done .nop
  | .movMemToAcc w => Parse.word fun off => Parse.done (.movMemToAcc w off)
  | .movAccToMem w => Parse.word fun off => Parse.done (.movAccToMem w off)
  | .movImmToRegAlt w r => Parse.imm w fun v => Parse.done (.movImmToRegAlt v r)
  | .int3 => Parse.done .int3
  | .intN => Parse.byte fun t => Parse.done (.intN t)
  | .loop => Parse.byte fun d => Parse.done (.loop d)
  | .jcxz => Parse.byte fun d => Parse.done (.jcxz d)
  | .inFixed w => Parse.byte fun p => Parse.done (.inFixed w p)
  | .jmpDirect => Parse.word fun d => Parse.done (.jmpDirect d)
  | .jmpFar => Parse.word fun off => Parse.word fun sel => Parse.done (.jmpFar off sel)
  | .jmpShort => Parse.byte fun d => Parse.done (.jmpShort d)
  | .inVariable w => Parse.done (.inVariable w)

/-- The decode procedure (R102): the instruction at the head of a byte sequence and the bytes after it. -/
def decode : Parse Instr :=
  Parse.byte fun b =>
    match opcodeOf b with
    | some o => decodeAfter o
    | none => fun rest => .unlisted rest

/-! ## Lengths (R105) -/

/-- The number of displacement bytes of a memory operand (R83). -/
def Mem.dispLength : Mem → Nat
  | .direct _ => 2
  | .plain _ => 0
  | .disp8 _ _ => 1
  | .disp16 _ _ => 2

/-- The number of immediate bytes (R95). -/
def Imm.length : Imm → Nat
  | .byte _ => 1
  | .word _ => 2

/-- The number of immediate bytes with an s bit (R89). -/
def ImmSW.length : ImmSW → Nat
  | .byte _ _ => 1
  | .word _ => 2
  | .sext _ => 1

/-- The length of an instruction in bytes (R105). -/
def Instr.length : Instr → Nat
  | .daa | .das | .nop | .int3 | .ins _ | .inVariable _ | .incRegAlt _ | .decRegAlt _ => 1
  | .joShort _ | .jnoShort _ | .jbShort _ | .jnbShort _ | .jeShort _ | .jneShort _ | .jbeShort _ | .jnbeShort _ => 2
  | .jsShort _ | .jnsShort _ | .jpShort _ | .jnpShort _ | .jlShort _ | .jnlShort _ | .jleShort _ | .jnleShort _ => 2
  | .jmpShort _ | .jcxz _ | .loop _ | .inFixed _ _ | .intN _ => 2
  | .addImmToAcc imm | .subImmToAcc imm | .movImmToRegAlt imm _ => 1 + imm.length
  | .jmpDirect _ | .movMemToAcc _ _ | .movAccToMem _ _ => 3
  | .joFull _ | .jnoFull _ | .jbFull _ | .jnbFull _ | .jeFull _ | .jneFull _ | .jbeFull _ | .jnbeFull _ => 4
  | .jsFull _ | .jnsFull _ | .jpFull _ | .jnpFull _ | .jlFull _ | .jnlFull _ | .jleFull _ | .jnleFull _ => 4
  | .jmpFar _ _ => 5
  | .addReg1ToReg2 _ _ _ | .addReg2ToReg1 _ _ _ | .subReg1ToReg2 _ _ _ | .subReg2ToReg1 _ _ _ => 2
  | .orReg1ToReg2 _ _ _ | .orReg2ToReg1 _ _ _ | .movReg1ToReg2 _ _ _ | .movReg2ToReg1 _ _ _ => 2
  | .incReg _ _ | .decReg _ _ | .notReg _ _ | .divReg _ _ | .jmpReg _ => 2
  | .addMemToReg _ _ m | .subMemToReg _ _ m | .movMemToReg _ _ m => 2 + m.dispLength
  | .addRegToMem _ _ m | .subRegToMem _ _ m | .movRegToMem _ _ m => 2 + m.dispLength
  | .incMem _ m | .decMem _ m | .notMem _ m | .divMem _ m | .jmpMem m | .jmpFarMem m => 2 + m.dispLength
  | .addImmToReg imm _ | .subImmToReg imm _ => 2 + imm.length
  | .movImmToReg imm _ => 2 + imm.length
  | .addImmToMem imm m | .subImmToMem imm m => 2 + m.dispLength + imm.length
  | .movImmToMem imm m => 2 + m.dispLength + imm.length

/-! ## Encoding -/

/-- The w bit of a width (R88). -/
def Width.bit : Width → BitVec 1
  | .byte => 0
  | .word => 1

/-- The tttn field of a condition (R130). -/
def Cond.field : Cond → BitVec 4
  | .o => 0x0
  | .no => 0x1
  | .b => 0x2
  | .nb => 0x3
  | .e => 0x4
  | .ne => 0x5
  | .be => 0x6
  | .nbe => 0x7
  | .s => 0x8
  | .ns => 0x9
  | .p => 0xA
  | .np => 0xB
  | .l => 0xC
  | .nl => 0xD
  | .le => 0xE
  | .nle => 0xF

/-- The r/m field of a base and index sum (R84). -/
def BaseIndex.field : BaseIndex → BitVec 3
  | .bxsi => 0
  | .bxdi => 1
  | .bpsi => 2
  | .bpdi => 3
  | .si => 4
  | .di => 5
  | .bp => 6
  | .bx => 7

/-- A word as two bytes, the low byte first (R52). -/
def wordBytes (v : Word) : List Byte := [v.extractLsb' 0 8, v.extractLsb' 8 8]

/-- A ModRM byte (R82). -/
def modRM (mod : BitVec 2) (field rm : BitVec 3) : Byte := mod ++ field ++ rm

/-- The ModRM byte with mod = 11. -/
def modRMReg (field : BitVec 3) (reg : RegNum) : List Byte := [modRM 3 field reg]

/-- The ModRM byte and displacement bytes of a memory operand (R83, R84). -/
def modRMMem (field : BitVec 3) : Mem → List Byte
  | .direct d => modRM 0 field 6 :: wordBytes d
  | .plain b => [modRM 0 field b.field]
  | .disp8 b d => [modRM 1 field b.field, d]
  | .disp16 b d => modRM 2 field b.field :: wordBytes d

/-- The width of an immediate. -/
def Imm.width : Imm → Width
  | .byte _ => .byte
  | .word _ => .word

/-- The bytes of an immediate (R95). -/
def Imm.bytes : Imm → List Byte
  | .byte v => [v]
  | .word v => wordBytes v

/-- The opcode byte `1000 00sw` of an immediate (R89). -/
def ImmSW.opcode : ImmSW → Byte
  | .byte false _ => 0x80
  | .word _ => 0x81
  | .byte true _ => 0x82
  | .sext _ => 0x83

/-- The bytes of an immediate with an s bit (R89). -/
def ImmSW.bytes : ImmSW → List Byte
  | .byte _ v => [v]
  | .word v => wordBytes v
  | .sext v => [v]

/-- An opcode byte whose bit 0 is w. -/
def opW (high : BitVec 7) (w : Width) : Byte := high ++ w.bit

/-- The bytes of Jcc with an 8-bit displacement: `0111 tttn : d` (R131). -/
def encodeJccShort (c : Cond) (d : Byte) : List Byte := [0b0111#4 ++ c.field, d]

/-- The bytes of Jcc with a full displacement: `0000 1111 : 1000 tttn : d` (R132). -/
def encodeJccFull (c : Cond) (d : Word) : List Byte := 0x0F :: (0b1000#4 ++ c.field) :: wordBytes d

/-- The bytes of an instruction, lowest address first: the patterns of R131 to R203. -/
def encode : Instr → List Byte
  | .addReg1ToReg2 w r1 r2 => opW 0b0000000 w :: modRMReg r1 r2
  | .addReg2ToReg1 w r1 r2 => opW 0b0000001 w :: modRMReg r1 r2
  | .addMemToReg w r m => opW 0b0000001 w :: modRMMem r m
  | .addRegToMem w r m => opW 0b0000000 w :: modRMMem r m
  | .addImmToReg imm r => imm.opcode :: modRMReg 0b000 r ++ imm.bytes
  | .addImmToAcc imm => opW 0b0000010 imm.width :: imm.bytes
  | .addImmToMem imm m => imm.opcode :: modRMMem 0b000 m ++ imm.bytes
  | .daa => [0b00100111]
  | .das => [0b00101111]
  | .decReg w r => opW 0b1111111 w :: modRMReg 0b001 r
  | .decRegAlt r => [0b01001#5 ++ r]
  | .decMem w m => opW 0b1111111 w :: modRMMem 0b001 m
  | .divReg w r => opW 0b1111011 w :: modRMReg 0b110 r
  | .divMem w m => opW 0b1111011 w :: modRMMem 0b110 m
  | .inFixed w p => [opW 0b1110010 w, p]
  | .inVariable w => [opW 0b1110110 w]
  | .incReg w r => opW 0b1111111 w :: modRMReg 0b000 r
  | .incRegAlt r => [0b01000#5 ++ r]
  | .incMem w m => opW 0b1111111 w :: modRMMem 0b000 m
  | .ins w => [opW 0b0110110 w]
  | .intN t => [0b11001101, t]
  | .int3 => [0b11001100]
  | .joShort d => encodeJccShort .o d
  | .jnoShort d => encodeJccShort .no d
  | .jbShort d => encodeJccShort .b d
  | .jnbShort d => encodeJccShort .nb d
  | .jeShort d => encodeJccShort .e d
  | .jneShort d => encodeJccShort .ne d
  | .jbeShort d => encodeJccShort .be d
  | .jnbeShort d => encodeJccShort .nbe d
  | .jsShort d => encodeJccShort .s d
  | .jnsShort d => encodeJccShort .ns d
  | .jpShort d => encodeJccShort .p d
  | .jnpShort d => encodeJccShort .np d
  | .jlShort d => encodeJccShort .l d
  | .jnlShort d => encodeJccShort .nl d
  | .jleShort d => encodeJccShort .le d
  | .jnleShort d => encodeJccShort .nle d
  | .joFull d => encodeJccFull .o d
  | .jnoFull d => encodeJccFull .no d
  | .jbFull d => encodeJccFull .b d
  | .jnbFull d => encodeJccFull .nb d
  | .jeFull d => encodeJccFull .e d
  | .jneFull d => encodeJccFull .ne d
  | .jbeFull d => encodeJccFull .be d
  | .jnbeFull d => encodeJccFull .nbe d
  | .jsFull d => encodeJccFull .s d
  | .jnsFull d => encodeJccFull .ns d
  | .jpFull d => encodeJccFull .p d
  | .jnpFull d => encodeJccFull .np d
  | .jlFull d => encodeJccFull .l d
  | .jnlFull d => encodeJccFull .nl d
  | .jleFull d => encodeJccFull .le d
  | .jnleFull d => encodeJccFull .nle d
  | .jcxz d => [0b11100011, d]
  | .jmpShort d => [0b11101011, d]
  | .jmpDirect d => 0b11101001 :: wordBytes d
  | .jmpReg r => 0b11111111 :: modRMReg 0b100 r
  | .jmpMem m => 0b11111111 :: modRMMem 0b100 m
  | .jmpFar off sel => 0b11101010 :: wordBytes off ++ wordBytes sel
  | .jmpFarMem m => 0b11111111 :: modRMMem 0b101 m
  | .loop d => [0b11100010, d]
  | .movReg1ToReg2 w r1 r2 => opW 0b1000100 w :: modRMReg r1 r2
  | .movReg2ToReg1 w r1 r2 => opW 0b1000101 w :: modRMReg r1 r2
  | .movMemToReg w r m => opW 0b1000101 w :: modRMMem r m
  | .movRegToMem w r m => opW 0b1000100 w :: modRMMem r m
  | .movImmToReg imm r => opW 0b1100011 imm.width :: modRMReg 0b000 r ++ imm.bytes
  | .movImmToRegAlt imm r => (0b1011#4 ++ imm.width.bit ++ r) :: imm.bytes
  | .movImmToMem imm m => opW 0b1100011 imm.width :: modRMMem 0b000 m ++ imm.bytes
  | .movMemToAcc w off => opW 0b1010000 w :: wordBytes off
  | .movAccToMem w off => opW 0b1010001 w :: wordBytes off
  | .nop => [0b10010000]
  | .notReg w r => opW 0b1111011 w :: modRMReg 0b010 r
  | .notMem w m => opW 0b1111011 w :: modRMMem 0b010 m
  | .orReg1ToReg2 w r1 r2 => opW 0b0000100 w :: modRMReg r1 r2
  | .orReg2ToReg1 w r1 r2 => opW 0b0000101 w :: modRMReg r1 r2
  | .subReg1ToReg2 w r1 r2 => opW 0b0010100 w :: modRMReg r1 r2
  | .subReg2ToReg1 w r1 r2 => opW 0b0010101 w :: modRMReg r1 r2
  | .subMemToReg w r m => opW 0b0010101 w :: modRMMem r m
  | .subRegToMem w r m => opW 0b0010100 w :: modRMMem r m
  | .subImmToReg imm r => imm.opcode :: modRMReg 0b101 r ++ imm.bytes
  | .subImmToAcc imm => opW 0b0010110 imm.width :: imm.bytes
  | .subImmToMem imm m => imm.opcode :: modRMMem 0b101 m ++ imm.bytes

/-! ## The rows of spec/opcode_table.json -/

/-- The longest in-scope instruction (R80). -/
def maxLength : Nat := 6

/-- A row's bits as bytes, lowest address first. The table reads match and mask as ONE number whose leftmost byte
is the instruction's first byte (R107), so the first byte is the row's highest; zeros follow up to the longest
instruction (log 14). -/
def tableBytes (nbits w : Nat) : List Byte :=
  let n := (nbits + 7) / 8
  (List.range n).map (fun k => BitVec.ofNat 8 (w >>> (8 * (n - 1 - k)))) ++ List.replicate (maxLength - n) 0

/-- The instruction the decoder reads from a row's bits; none where it refuses. -/
def decodeTableWord (nbits w : Nat) : Option Instr :=
  match decode (tableBytes nbits w) with
  | .ok i _ => some i
  | .unlisted _ => none
  | .short => none

end Sys2Proof
end

