-- ==== Sys2Proof/Config.lean ====
section
/-! DEFINITION. The implementation parameters of spec R4 that this hardware's spec fixes, and the free values
(constants without a body) for what it leaves open: undefined flags (D17) and port answers (D14).
The parameters whose value is `launch` are fields of `Machine.State`. -/

namespace Sys2Proof

/-- `IVT_BASE` of R4: the linear address of the interrupt vector table, 0 (R57, R222, D10). -/
def Config.ivtBase : Nat := 0

/-- `PhysMap` of R4: linear to physical address, the identity, with no wrap at 2^20 (R51, D6). -/
def Config.physMap (linear : Nat) : Nat := linear

/-- What a divide error saves as its return offset: `DIV_RET` of R4. -/
inductive Config.DivRet where
  /-- the offset of the DIV instruction itself (80286 and later, R223) -/
  | own
  /-- the offset of the following instruction (8086 and 8088, R223) -/
  | following
deriving DecidableEq, Repr

/-- `DIV_RET` of R4: the DIV instruction's own offset (R223, D18). -/
def Config.divRet : Config.DivRet := .own

/-- What a byte of memory that is not listed reads as (log 3, DESIGN CHOICE; unsafe): the spec gives no
contents at the start of a run (R32). -/
def Config.blankByte : Byte := 0

/-- `UndefFlag` of R4: the value of the k-th undefined flag of a run, unconstrained (R7 `draw()`, D17; log 8). -/
opaque Config.undefFlag : Nat → Bool

/-- `PortOracle` of R4 for a one-byte read: the answer to the k-th port read of a run at a port,
unconstrained (R65, D14; log 7). -/
opaque Config.portByte : Nat → Word → Byte

/-- `PortOracle` of R4 for a two-byte read, with no law that ties it to one-byte reads (R65, D14; log 7). -/
opaque Config.portWord : Nat → Word → Word

end Sys2Proof
end

