-- ==== Sys2Proof/Machine/State.lean ====
section
/-! DEFINITION. The machine's state as plain data (spec R20 to R33 and the launch parameters of R4), the reasons a
step can stop (R8, R224), and the state after reset. -/

namespace Sys2Proof.Machine

/-- The six segment registers (R27). -/
inductive SegReg where
  | cs
  | ss
  | ds
  | es
  | fs
  | gs
deriving DecidableEq, Repr

/-- FLAGS, bit by bit (R25). No in-scope instruction reads or writes it as a word; interrupt entry pushes the word
these bits make (log 12). -/
structure Flags where
  /-- bit 0 -/
  cf : Bool
  /-- bit 1, reads 1 (launch premise of R32) -/
  bit1 : Bool
  /-- bit 2 -/
  pf : Bool
  /-- bit 3, reads 0 -/
  bit3 : Bool
  /-- bit 4 -/
  af : Bool
  /-- bit 5, reads 0 -/
  bit5 : Bool
  /-- bit 6 -/
  zf : Bool
  /-- bit 7 -/
  sf : Bool
  /-- bit 8 -/
  tf : Bool
  /-- bit 9, IF -/
  intf : Bool
  /-- bit 10 -/
  df : Bool
  /-- bit 11, OF -/
  ovf : Bool
  /-- bits 12..14, kept from the launch -/
  high : BitVec 3
  /-- bit 15, reads 0 -/
  bit15 : Bool
deriving DecidableEq, Repr

/-- A range of physical addresses: `size` bytes from `base`. -/
structure Region where
  base : Nat
  size : Nat
deriving DecidableEq, Repr

/-- A segment value and an offset: the form of `HaltAt` (R254). -/
structure FarAddr where
  seg : Word
  off : Word
deriving DecidableEq, Repr

/-- Memory: the bytes that differ from `Config.blankByte`, by strictly rising address (R29; log 3). -/
abbrev Memory := List Host.Cell

/-- The state. -/
@[ext]
structure State where
  /-- the eight general registers `x[0]` .. `x[7]`, EAX .. EDI (R20) -/
  x : Vector Dword 8
  /-- IP (R24) -/
  pc : Word
  /-- FLAGS (R25) -/
  flags : Flags
  /-- the segment registers (R27) -/
  cs : Word
  ss : Word
  ds : Word
  es : Word
  fs : Word
  gs : Word
  /-- memory by physical address (R29) -/
  mem : Memory
  /-- `MemMap` of R4: the addresses that exist (R50; log 4) -/
  memMap : List Region
  /-- `CodeRegion` of R4: the program's bytes (R50, R62; log 5) -/
  codeRegion : List Region
  /-- `HaltAt` of R4: where the run is over (R254; log 6) -/
  haltAt : Option FarAddr
  /-- the answers of `PortOracle` that the launch writes out, next one first (R4, R65; log 7) -/
  portAnswers : List Word
  /-- the model's own: port reads made so far, the index of the next free port answer (log 7) -/
  portReads : Nat
  /-- the model's own: undefined flags drawn so far, the index of the next free flag value (log 8) -/
  draws : Nat
deriving DecidableEq, Repr

/-- The model faults (R8, R224). Each is safe: the run stops where the spec gives no meaning, and the state before
the instruction is kept by whoever runs the step. -/
inductive Fault where
  /-- `SegLimit(S, off)`: an access, push or fetch needs a byte past offset FFFFh (R53, R64, R138), or an
  instruction that is no taken transfer ends past FFFFh (R24). Raised by segment accesses, the fetch and
  `State.advance`. Safe. -/
  | segLimit (seg : SegReg) (off : Nat)
  /-- `Unmapped(addr)`: an access at this address touches an address outside `MemMap` (R50; log 9). Raised by memory
  accesses and the fetch. Safe. -/
  | unmapped (addr : Nat)
  /-- `CodeWrite(addr)`: a store at this address touches `CodeRegion` (R50, R62; log 9). Raised by memory writes. Safe. -/
  | codeWrite (addr : Nat)
deriving DecidableEq, Repr

/-- The refusals (R8, R224). Each is safe: the run is outside the spec from there. -/
inductive Refusal where
  /-- `Unlisted(bytes)`: the bytes at CS:IP match no row of the opcode table (R99). Raised by the step. Safe. -/
  | unlisted (bytes : List Byte)
  /-- `Refused(fetch outside CodeRegion)`: a byte of the instruction is at an address outside `CodeRegion`
  (R62, R102). That it carries the physical address of the first such byte is the model's choice (DESIGN CHOICE,
  log 20). Raised by the fetch. Safe. -/
  | fetchOutsideCode (addr : Nat)
  /-- an instruction of the table without a meaning: raised by no arm of `exec`. Safe. -/
  | notModelled (mnemonic : String)
deriving DecidableEq, Repr

/-- FLAGS after reset: 0002h (R32 "for information"; PRESUMED, log 2). -/
def Flags.reset : Flags :=
  { cf := false, bit1 := true, pf := false, bit3 := false, af := false, bit5 := false, zf := false, sf := false,
    tf := false, intf := false, df := false, ovf := false, high := 0, bit15 := false }

/-- One past the largest linear address, FFFFh * 16 + FFFFh = 10FFEFh (R51). -/
def addressSpace : Nat := 0x10FFF0

/-- The state after reset. The spec models no reset (R32, R250): IP, FLAGS and the segment registers take the
family's values that R32 lists for information (PRESUMED, log 2); the rest is the model's (log 1, 3 to 8). -/
def State.reset : State :=
  { x := Vector.replicate 8 0
    pc := 0xFFF0
    flags := Flags.reset
    cs := 0xF000
    ss := 0
    ds := 0
    es := 0
    fs := 0
    gs := 0
    mem := []
    memMap := [{ base := 0, size := addressSpace }]
    codeRegion := []
    haltAt := none
    portAnswers := []
    portReads := 0
    draws := 0 }

end Sys2Proof.Machine
end

