-- ==== Sys2Proof/Machine/Memory.lean ====
section
/-! DEFINITION. Memory as a canonical list of cells: reading and writing one byte, and the canonical form (spec R29,
R50; log 3). -/

namespace Sys2Proof.Machine

/-- The byte at a physical address; an unlisted address reads as `Config.blankByte` (log 3). -/
def Memory.read : Memory → Nat → Byte
  | [], _ => Config.blankByte
  | (b, u) :: m, a => if a = b then u else Memory.read m a

/-- Memory with the byte at an address replaced. Writing the blank byte removes the entry, so that equal memories
are equal lists. -/
def Memory.write : Memory → Nat → Byte → Memory
  | [], a, v => if v = Config.blankByte then [] else [(a, v)]
  | (b, u) :: m, a, v =>
    if a < b then
      if v = Config.blankByte then (b, u) :: m else (a, v) :: (b, u) :: m
    else if a = b then
      if v = Config.blankByte then m else (a, v) :: m
    else (b, u) :: Memory.write m a v

/-- The canonical form: strictly rising addresses, no entry equal to the blank byte. -/
def Memory.wf : Memory → Bool
  | [] => true
  | (a, v) :: m => v != Config.blankByte && m.all (fun c => decide (a < c.1)) && Memory.wf m

/-- The n/8 bytes at an address as one value, little-endian (`MemRead`, R50, R52). -/
def Memory.readValue (m : Memory) (a : Nat) : (w : Width) → BitVec w.bits
  | .byte => Memory.read m a
  | .word => Memory.read m (a + 1) ++ Memory.read m a

/-- Memory with the n/8 bytes at an address replaced, little-endian (`MemWrite`, R50, R52). -/
def Memory.writeValue (m : Memory) (a : Nat) : (w : Width) → BitVec w.bits → Memory
  | .byte, v => Memory.write m a v
  | .word, v => Memory.write (Memory.write m a (v.extractLsb' 0 8)) (a + 1) (v.extractLsb' 8 8)

end Sys2Proof.Machine
end

