-- ==== Sys2Proof/Machine/Ops.lean ====
section
/-! DEFINITION. The named operations over registers, memory, stack and ports (spec R7), the end of an instruction
(R24), interrupt entry (R221) and the divide error (R223). The spec gives no return from interrupt (R227): IRET is
not in scope, so nothing stands beside the entry. -/

namespace Sys2Proof.Machine

/-- What an operation of an instruction gives: a value or a model fault. -/
abbrev Res (α : Type) := Except Fault α

/-- The outcome of a step that an instruction's result is (R8). -/
def Res.outcome (r : Res State) : Host.Outcome State Fault Refusal :=
  match r with
  | .ok s => .next s
  | .error f => .fault f

/-! ## General registers (R20 to R23) -/

/-- The general registers by the names of their words (R21). -/
def axReg : RegNum := 0
def cxReg : RegNum := 1
def dxReg : RegNum := 2
def bxReg : RegNum := 3
def spReg : RegNum := 4
def bpReg : RegNum := 5
def siReg : RegNum := 6
def diReg : RegNum := 7

/-- AH as an 8-bit register field (R22). -/
def ahReg : RegNum := 4

/-- `x[i]` (R20). -/
def State.reg32 (s : State) (i : RegNum) : Dword := s.x.get i.toFin

/-- `x[i] <- v` (R20). -/
def State.setReg32 (s : State) (i : RegNum) (v : Dword) : State := { s with x := s.x.set i.toFin v }

/-- `Reg(n, r)` (R23): at w = 0 the fields 100 .. 111 are AH CH DH BH. -/
def State.reg (s : State) : (w : Width) → RegNum → BitVec w.bits
  | .byte, r => if r < 4 then (s.reg32 r).extractLsb' 0 8 else (s.reg32 (r - 4)).extractLsb' 8 8
  | .word, r => (s.reg32 r).extractLsb' 0 16

/-- `SetReg(n, r, v)` (R23): only the bits of the view change. -/
def State.setReg (s : State) : (w : Width) → RegNum → BitVec w.bits → State
  | .byte, r, v =>
    if r < 4 then s.setReg32 r ((s.reg32 r).extractLsb' 8 24 ++ v)
    else s.setReg32 (r - 4) ((s.reg32 (r - 4)).extractLsb' 16 16 ++ v ++ (s.reg32 (r - 4)).extractLsb' 0 8)
  | .word, r, v => s.setReg32 r ((s.reg32 r).extractLsb' 16 16 ++ v)

/-! ## Segment registers and addresses (R27, R51) -/

/-- The value of a segment register (R27). -/
def State.seg (s : State) : SegReg → Word
  | .cs => s.cs
  | .ss => s.ss
  | .ds => s.ds
  | .es => s.es
  | .fs => s.fs
  | .gs => s.gs

/-- The physical address of an offset in the segment whose register holds `seg`: `PhysMap(Lin(seg, off))` (R51).
The offset is a number, for the bytes of an instruction (R53). -/
def physAddr (seg : Word) (off : Nat) : Nat := Config.physMap (seg.toNat * 16 + off)

/-- The address lies in one of the ranges. -/
def inRegions (rs : List Region) (a : Nat) : Bool :=
  rs.any fun r => decide (r.base ≤ a ∧ a < r.base + r.size)

/-- The address is in `MemMap` (R50). -/
def State.mapped (s : State) (a : Nat) : Bool := inRegions s.memMap a

/-- The address is in `CodeRegion` (R50). -/
def State.isCode (s : State) (a : Nat) : Bool := inRegions s.codeRegion a

/-! ## Memory access (R50, R53) -/

/-- Are all of the n/8 bytes at an address in `MemMap`? If one is not, `Unmapped` of the access's address (R50; log 9). -/
def State.checkMapped (s : State) (a : Nat) (w : Width) : Res Unit :=
  if (List.range w.bytes).all (fun k => s.mapped (a + k)) then .ok () else .error (.unmapped a)

/-- Is none of the n/8 bytes at an address in `CodeRegion`? If one is, `CodeWrite` of the access's address (R50; log 9). -/
def State.checkNotCode (s : State) (a : Nat) (w : Width) : Res Unit :=
  if (List.range w.bytes).any (fun k => s.isCode (a + k)) then .error (.codeWrite a) else .ok ()

/-- `MemRead(addr, n)` (R50). -/
def State.memRead (s : State) (a : Nat) (w : Width) : Res (BitVec w.bits) := do
  s.checkMapped a w
  return Memory.readValue s.mem a w

/-- `MemWrite(addr, n, v)` (R50). -/
def State.memWrite (s : State) (a : Nat) (w : Width) (v : BitVec w.bits) : Res State := do
  s.checkMapped a w
  s.checkNotCode a w
  return { s with mem := Memory.writeValue s.mem a w v }

/-- The limit check of R53: the last of n bytes at an offset lies at or below FFFFh. -/
def checkLimit (seg : SegReg) (off : Word) (n : Nat) : Res Unit :=
  if off.toNat + n - 1 > 0xFFFF then .error (.segLimit seg off.toNat) else .ok ()

/-- `SegRead(S, off, n)` (R53). -/
def State.segRead (s : State) (seg : SegReg) (off : Word) (w : Width) : Res (BitVec w.bits) := do
  checkLimit seg off w.bytes
  s.memRead (physAddr (s.seg seg) off.toNat) w

/-- `SegWrite(S, off, n, v)` (R53). -/
def State.segWrite (s : State) (seg : SegReg) (off : Word) (w : Width) (v : BitVec w.bits) : Res State := do
  checkLimit seg off w.bytes
  s.memWrite (physAddr (s.seg seg) off.toNat) w v

/-! ## Stack (R64) -/

/-- `Push16(v)` (R64): SP goes down by 2 modulo 2^16 and the word is written at SS:SP. -/
def State.push16 (s : State) (v : Word) : Res State := do
  let sp := s.reg .word spReg - 2
  let t ← s.segWrite .ss sp .word v
  return t.setReg .word spReg sp

/-! ## Ports (R65) -/

/-- The free answer to the next port read (D14; log 7). -/
def freePortAnswer (k : Nat) (port : Word) : (w : Width) → BitVec w.bits
  | .byte => Config.portByte k port
  | .word => Config.portWord k port

/-- The width's low bits of an answer the launch wrote out. -/
def narrowAnswer (v : Word) : (w : Width) → BitVec w.bits
  | .byte => v.extractLsb' 0 8
  | .word => v

/-- The value `PortRead(p, n)` gives (R65): the launch's next answer where it wrote one out, else a free value. -/
def State.portValue (s : State) (port : Word) (w : Width) : BitVec w.bits :=
  match s.portAnswers with
  | v :: _ => narrowAnswer v w
  | [] => freePortAnswer s.portReads port w

/-- The state after a port read: the oracle has moved on; no memory byte and no register has changed (R65). -/
def State.portDone (s : State) : State :=
  { s with portAnswers := s.portAnswers.tail, portReads := s.portReads + 1 }

/-! ## The end of an instruction (R24) -/

/-- `next` = `ip0` + len as an unbounded number (R24, R102). -/
def State.nextOffset (s : State) (len : Nat) : Nat := s.pc.toNat + len

/-- `next` modulo 2^16, the return offset of INT (R183) and the base of relative targets (R141). -/
def State.nextWord (s : State) (len : Nat) : Word := BitVec.ofNat 16 (s.nextOffset len)

/-- `pc <- next` for an instruction that is no taken transfer; `SegLimit` when `next` > FFFFh (R24, D28; log 9). -/
def State.advance (s : State) (len : Nat) : Res State :=
  if s.nextOffset len > 0xFFFF then .error (.segLimit .cs (s.nextOffset len))
  else .ok { s with pc := s.nextWord len }

/-! ## Interrupt entry (R221) -/

/-- FLAGS as the 16-bit word that interrupt entry pushes (R25, R221). -/
def Flags.toWord (f : Flags) : Word :=
  BitVec.ofBool f.bit15 ++ f.high ++ BitVec.ofBool f.ovf ++ BitVec.ofBool f.df ++ BitVec.ofBool f.intf
    ++ BitVec.ofBool f.tf ++ BitVec.ofBool f.sf ++ BitVec.ofBool f.zf ++ BitVec.ofBool f.bit5 ++ BitVec.ofBool f.af
    ++ BitVec.ofBool f.bit3 ++ BitVec.ofBool f.pf ++ BitVec.ofBool f.bit1 ++ BitVec.ofBool f.cf

/-- The linear address of table entry n: `IVT_BASE` + 4n (R57, R222). -/
def vectorAddr (n : Byte) : Nat := Config.physMap (Config.ivtBase + 4 * n.toNat)

/-- `Interrupt(n, ret)` (R221), the one way into a handler: FLAGS, CS and the return offset are pushed in that order, IF and TF
cleared after FLAGS is saved, and CS:IP loaded from table entry n, offset first, after the pushes. -/
def State.interrupt (s : State) (n : Byte) (ret : Word) : Res State := do
  let s1 ← s.push16 s.flags.toWord
  let s2 := { s1 with flags := { s1.flags with intf := false, tf := false } }
  let s3 ← s2.push16 s2.cs
  let s4 ← s3.push16 ret
  let off ← s4.memRead (vectorAddr n) .word
  let seg ← s4.memRead (vectorAddr n + 2) .word
  return { s4 with cs := seg, pc := off }

/-- The offset a divide error saves, by `DIV_RET` (R223, D18). -/
def divReturn (r : Config.DivRet) (s : State) (len : Nat) : Word :=
  match r with
  | .own => s.pc
  | .following => s.nextWord len

/-- `raise DivideError` (R164, R223): vector 0, with AX, DX and the flags as they were before the DIV. -/
def State.divideError (s : State) (len : Nat) : Res State :=
  s.interrupt 0 (divReturn Config.divRet s len)

end Sys2Proof.Machine
end

