-- ==== Sys2Proof/Machine/Flags.lean ====
section
/-! DEFINITION. The flag functions of spec R150, the flags of OR (R202), the decimal adjustments (R159, R160) and
the undefined flags of DIV (R164). -/

namespace Sys2Proof.Machine

/-- A result and the flags it leaves. -/
structure Alu (n : Nat) where
  value : BitVec n
  flags : Flags
deriving DecidableEq, Repr

/-- `parity8(v)`: the low byte has an even number of 1 bits (R150). -/
def parity8 {n : Nat} (v : BitVec n) : Bool :=
  (List.range 8).countP (fun i => v.getLsbD i) % 2 == 0

/-- `SetSZP(n, r)` (R150). -/
def setSZP {n : Nat} (r : BitVec n) (f : Flags) : Flags :=
  { f with sf := r.msb, zf := r == 0, pf := parity8 r }

/-- `AddFlags(n, a, b)` (R150). -/
def addFlags {n : Nat} (a b : BitVec n) (f : Flags) : Alu n :=
  let r := a + b
  { value := r
    flags := setSZP r
      { f with
        cf := decide (a.toNat + b.toNat ≥ 2 ^ n)
        af := decide (a.toNat % 16 + b.toNat % 16 ≥ 16)
        ovf := a.msb == b.msb && r.msb != a.msb } }

/-- `SubFlags(n, a, b)` (R150): destination a − source b. -/
def subFlags {n : Nat} (a b : BitVec n) (f : Flags) : Alu n :=
  let r := a - b
  { value := r
    flags := setSZP r
      { f with
        cf := decide (a.toNat < b.toNat)
        af := decide (a.toNat % 16 < b.toNat % 16)
        ovf := a.msb != b.msb && r.msb != a.msb } }

/-- `IncFlags(n, a)`: `AddFlags(n, a, 1)` with CF left unchanged (R150). -/
def incFlags {n : Nat} (a : BitVec n) (f : Flags) : Alu n :=
  let r := addFlags a 1 f
  { r with flags := { r.flags with cf := f.cf } }

/-- `DecFlags(n, a)`: `SubFlags(n, a, 1)` with CF left unchanged (R150). -/
def decFlags {n : Nat} (a : BitVec n) (f : Flags) : Alu n :=
  let r := subFlags a 1 f
  { r with flags := { r.flags with cf := f.cf } }

/-- NOT: every bit inverted, no flag written (R200). -/
def notFlags {n : Nat} (a : BitVec n) (f : Flags) : Alu n :=
  { value := ~~~a, flags := f }

/-- OR: CF = OF = 0, SF ZF PF from the result, AF the draw `af` (R202, D17). -/
def orFlags {n : Nat} (af : Bool) (a b : BitVec n) (f : Flags) : Alu n :=
  let r := a ||| b
  { value := r, flags := setSZP r { f with cf := false, ovf := false, af := af } }

/-- `DaaFn` (R159, D29): AL and the flags after DAA, OF the draw `ovf`. The test for the high digit uses the AL and
CF from before the low-digit adjustment. -/
def daaFn (al : Byte) (f : Flags) (ovf : Bool) : Alu 8 :=
  let low := decide (al.toNat % 16 > 9) || f.af
  let high := decide (al.toNat > 0x99) || f.cf
  let al1 := if low then al + 6 else al
  let al2 := if high then al1 + 0x60 else al1
  { value := al2, flags := setSZP al2 { f with cf := high, af := low, ovf := ovf } }

/-- `DasFn` (R160, D29): AL and the flags after DAS, OF the draw `ovf`. Where the high digit is not adjusted, CF is
the borrow of the low-digit adjustment. -/
def dasFn (al : Byte) (f : Flags) (ovf : Bool) : Alu 8 :=
  let low := decide (al.toNat % 16 > 9) || f.af
  let high := decide (al.toNat > 0x99) || f.cf
  let cf1 := low && (f.cf || decide (al.toNat < 6))
  let al1 := if low then al - 6 else al
  let al2 := if high then al1 - 0x60 else al1
  { value := al2, flags := setSZP al2 { f with cf := high || cf1, af := low, ovf := ovf } }

/-- The next undefined flag of the run (`draw()`, R7, D17; log 8). -/
def State.draw (s : State) (k : Nat) : Bool := Config.undefFlag (s.draws + k)

/-- The state after n draws. -/
def State.drawn (s : State) (n : Nat) : State := { s with draws := s.draws + n }

/-- The six status flags after a DIV that completes: six independent draws (R164, D17). -/
def State.divFlags (s : State) : Flags :=
  { s.flags with
    cf := s.draw 0, ovf := s.draw 1, sf := s.draw 2, zf := s.draw 3, af := s.draw 4, pf := s.draw 5 }

/-- `Cond(tttn)`: the flag tests of the Jcc table (R130). -/
def Flags.cond (f : Flags) : Cond → Bool
  | .o => f.ovf
  | .no => !f.ovf
  | .b => f.cf
  | .nb => !f.cf
  | .e => f.zf
  | .ne => !f.zf
  | .be => f.cf || f.zf
  | .nbe => !f.cf && !f.zf
  | .s => f.sf
  | .ns => !f.sf
  | .p => f.pf
  | .np => !f.pf
  | .l => f.sf != f.ovf
  | .nl => f.sf == f.ovf
  | .le => f.zf || f.sf != f.ovf
  | .nle => !f.zf && f.sf == f.ovf

end Sys2Proof.Machine
end

