-- ==== Sys2Proof/Machine/Operands.lean ====
section
/-! DEFINITION. Operand forms (spec R84 to R89, R95, R106) and the shapes that the instructions of one format
share: two-operand, one-operand, immediate and move forms. -/

namespace Sys2Proof.Machine

/-! ## Memory operands (R84, R54) -/

/-- The sum of base and index registers (R84). -/
def State.baseSum (s : State) : BaseIndex → Word
  | .bxsi => s.reg .word bxReg + s.reg .word siReg
  | .bxdi => s.reg .word bxReg + s.reg .word diReg
  | .bpsi => s.reg .word bpReg + s.reg .word siReg
  | .bpdi => s.reg .word bpReg + s.reg .word diReg
  | .si => s.reg .word siReg
  | .di => s.reg .word diReg
  | .bp => s.reg .word bpReg
  | .bx => s.reg .word bxReg

/-- `EA`: the effective address modulo 2^16, D8 sign-extended (R84, R94). -/
def State.ea (s : State) : Mem → Word
  | .direct d => d
  | .plain b => s.baseSum b
  | .disp8 b d => s.baseSum b + d.signExtend 16
  | .disp16 b d => s.baseSum b + d

/-- The default segment of a base and index sum: SS where it contains (BP), else DS (R54). -/
def baseSeg : BaseIndex → SegReg
  | .bxsi => .ds
  | .bxdi => .ds
  | .bpsi => .ss
  | .bpdi => .ss
  | .si => .ds
  | .di => .ds
  | .bp => .ss
  | .bx => .ds

/-- `EASeg` (R54): the Direct Address is in DS. -/
def eaSeg : Mem → SegReg
  | .direct _ => .ds
  | .plain b => baseSeg b
  | .disp8 b _ => baseSeg b
  | .disp16 b _ => baseSeg b

/-- `RMRead(n)` with mod ≠ 11 (R106). -/
def State.readMem (s : State) (m : Mem) (w : Width) : Res (BitVec w.bits) := s.segRead (eaSeg m) (s.ea m) w

/-- `RMWrite(n, v)` with mod ≠ 11, the operand's address taken in the state `s0` before the instruction changed
anything (R106). -/
def State.writeMem (s : State) (s0 : State) (m : Mem) (w : Width) (v : BitVec w.bits) : Res State :=
  s.segWrite (eaSeg m) (s0.ea m) w v

/-! ## Immediates (R89, R95) -/

/-- The value of an immediate at its width (R95). -/
def immValue : (imm : Imm) → BitVec imm.width.bits
  | .byte v => v
  | .word v => v

/-- The width of an operation whose immediate has an s bit (R89). -/
def immSWWidth : ImmSW → Width
  | .byte _ _ => .byte
  | .word _ => .word
  | .sext _ => .word

/-- The operand an immediate with an s bit stands for (R89). -/
def immSWValue : (imm : ImmSW) → BitVec (immSWWidth imm).bits
  | .byte _ v => v
  | .word v => v
  | .sext v => v.signExtend 16

/-! ## Shapes: read, compute, write, advance (R56, R226) -/

/-- An operation on destination and source. -/
abbrev BinOp (w : Width) := BitVec w.bits → BitVec w.bits → Flags → Alu w.bits

/-- An operation on one operand. -/
abbrev UnOp (w : Width) := BitVec w.bits → Flags → Alu w.bits

/-- Destination register := register op value, then `next` (R152 to R157). -/
def State.binToReg (s : State) {w : Width} (op : BinOp w) (dst : RegNum) (v : BitVec w.bits) (len : Nat) : Res State :=
  let r := op (s.reg w dst) v s.flags
  State.advance { s.setReg w dst r.value with flags := r.flags } len

/-- Register := register op memory operand (R154). -/
def State.binMemToReg (s : State) {w : Width} (op : BinOp w) (dst : RegNum) (m : Mem) (len : Nat) : Res State := do
  let v ← s.readMem m w
  s.binToReg op dst v len

/-- Memory operand := memory operand op value (R155, R158). -/
def State.binToMem (s : State) {w : Width} (op : BinOp w) (m : Mem) (v : BitVec w.bits) (len : Nat) : Res State := do
  let a ← s.readMem m w
  let r := op a v s.flags
  let t ← s.writeMem s m w r.value
  State.advance { t with flags := r.flags } len

/-- Register := op register (R161, R167, R200). -/
def State.unReg (s : State) {w : Width} (op : UnOp w) (dst : RegNum) (len : Nat) : Res State :=
  let r := op (s.reg w dst) s.flags
  State.advance { s.setReg w dst r.value with flags := r.flags } len

/-- Memory operand := op memory operand (R163, R169, R201). -/
def State.unMem (s : State) {w : Width} (op : UnOp w) (m : Mem) (len : Nat) : Res State := do
  let a ← s.readMem m w
  let r := op a s.flags
  let t ← s.writeMem s m w r.value
  State.advance { t with flags := r.flags } len

/-- Register := value, no flag written (R190 to R195). -/
def State.moveToReg (s : State) {w : Width} (dst : RegNum) (v : BitVec w.bits) (len : Nat) : Res State :=
  State.advance (s.setReg w dst v) len

/-- The byte or word at an offset of a segment := value, without reading it, no flag written (R193, R196, R198). -/
def State.moveToSeg (s : State) {w : Width} (seg : SegReg) (off : Word) (v : BitVec w.bits) (len : Nat) : Res State := do
  let t ← s.segWrite seg off w v
  State.advance t len

end Sys2Proof.Machine
end

