-- ==== Sys2Proof/Machine/Arithmetic.lean ====
section
/-! DEFINITION. The meanings of ADD, SUB, INC, DEC, DAA, DAS and DIV (spec R150 to R176). -/

namespace Sys2Proof.Machine

/-- ADD register1 to register2 (R152): destination `reg2`. -/
def execAddReg1ToReg2 (w : Width) (reg1 reg2 : RegNum) (s : State) : Host.Outcome State Fault Refusal :=
  Res.outcome (s.binToReg (w := w) addFlags reg2 (s.reg w reg1) (Instr.addReg1ToReg2 w reg1 reg2).length)

/-- ADD register2 to register1 (R153): destination `reg1`. -/
def execAddReg2ToReg1 (w : Width) (reg1 reg2 : RegNum) (s : State) : Host.Outcome State Fault Refusal :=
  Res.outcome (s.binToReg (w := w) addFlags reg1 (s.reg w reg2) (Instr.addReg2ToReg1 w reg1 reg2).length)

/-- ADD memory to register (R154). -/
def execAddMemToReg (w : Width) (reg : RegNum) (m : Mem) (s : State) : Host.Outcome State Fault Refusal :=
  Res.outcome (s.binMemToReg (w := w) addFlags reg m (Instr.addMemToReg w reg m).length)

/-- ADD register to memory (R155). -/
def execAddRegToMem (w : Width) (reg : RegNum) (m : Mem) (s : State) : Host.Outcome State Fault Refusal :=
  Res.outcome (s.binToMem (w := w) addFlags m (s.reg w reg) (Instr.addRegToMem w reg m).length)

/-- ADD immediate to register (R156). -/
def execAddImmToReg (imm : ImmSW) (reg : RegNum) (s : State) : Host.Outcome State Fault Refusal :=
  Res.outcome (s.binToReg (w := immSWWidth imm) addFlags reg (immSWValue imm) (Instr.addImmToReg imm reg).length)

/-- ADD immediate to AL, AX (R157). -/
def execAddImmToAcc (imm : Imm) (s : State) : Host.Outcome State Fault Refusal :=
  Res.outcome (s.binToReg (w := imm.width) addFlags axReg (immValue imm) (Instr.addImmToAcc imm).length)

/-- ADD immediate to memory (R158). -/
def execAddImmToMem (imm : ImmSW) (m : Mem) (s : State) : Host.Outcome State Fault Refusal :=
  Res.outcome (s.binToMem (w := immSWWidth imm) addFlags m (immSWValue imm) (Instr.addImmToMem imm m).length)

/-- SUB register1 to register2 (R170): destination `reg2`. -/
def execSubReg1ToReg2 (w : Width) (reg1 reg2 : RegNum) (s : State) : Host.Outcome State Fault Refusal :=
  Res.outcome (s.binToReg (w := w) subFlags reg2 (s.reg w reg1) (Instr.subReg1ToReg2 w reg1 reg2).length)

/-- SUB register2 to register1 (R171): destination `reg1`. -/
def execSubReg2ToReg1 (w : Width) (reg1 reg2 : RegNum) (s : State) : Host.Outcome State Fault Refusal :=
  Res.outcome (s.binToReg (w := w) subFlags reg1 (s.reg w reg2) (Instr.subReg2ToReg1 w reg1 reg2).length)

/-- SUB memory to register (R172). -/
def execSubMemToReg (w : Width) (reg : RegNum) (m : Mem) (s : State) : Host.Outcome State Fault Refusal :=
  Res.outcome (s.binMemToReg (w := w) subFlags reg m (Instr.subMemToReg w reg m).length)

/-- SUB register to memory (R173). -/
def execSubRegToMem (w : Width) (reg : RegNum) (m : Mem) (s : State) : Host.Outcome State Fault Refusal :=
  Res.outcome (s.binToMem (w := w) subFlags m (s.reg w reg) (Instr.subRegToMem w reg m).length)

/-- SUB immediate to register (R174). -/
def execSubImmToReg (imm : ImmSW) (reg : RegNum) (s : State) : Host.Outcome State Fault Refusal :=
  Res.outcome (s.binToReg (w := immSWWidth imm) subFlags reg (immSWValue imm) (Instr.subImmToReg imm reg).length)

/-- SUB immediate to AL, AX (R175). -/
def execSubImmToAcc (imm : Imm) (s : State) : Host.Outcome State Fault Refusal :=
  Res.outcome (s.binToReg (w := imm.width) subFlags axReg (immValue imm) (Instr.subImmToAcc imm).length)

/-- SUB immediate to memory (R176). -/
def execSubImmToMem (imm : ImmSW) (m : Mem) (s : State) : Host.Outcome State Fault Refusal :=
  Res.outcome (s.binToMem (w := immSWWidth imm) subFlags m (immSWValue imm) (Instr.subImmToMem imm m).length)

/-- INC register (R167). -/
def execIncReg (w : Width) (reg : RegNum) (s : State) : Host.Outcome State Fault Refusal :=
  Res.outcome (s.unReg (w := w) incFlags reg (Instr.incReg w reg).length)

/-- INC register, alternate encoding: the 16-bit register (R168, R87). -/
def execIncRegAlt (reg : RegNum) (s : State) : Host.Outcome State Fault Refusal :=
  Res.outcome (s.unReg (w := .word) incFlags reg (Instr.incRegAlt reg).length)

/-- INC memory (R169). -/
def execIncMem (w : Width) (m : Mem) (s : State) : Host.Outcome State Fault Refusal :=
  Res.outcome (s.unMem (w := w) incFlags m (Instr.incMem w m).length)

/-- DEC register (R161). -/
def execDecReg (w : Width) (reg : RegNum) (s : State) : Host.Outcome State Fault Refusal :=
  Res.outcome (s.unReg (w := w) decFlags reg (Instr.decReg w reg).length)

/-- DEC register, alternate encoding: the 16-bit register (R162, R87). -/
def execDecRegAlt (reg : RegNum) (s : State) : Host.Outcome State Fault Refusal :=
  Res.outcome (s.unReg (w := .word) decFlags reg (Instr.decRegAlt reg).length)

/-- DEC memory (R163). -/
def execDecMem (w : Width) (m : Mem) (s : State) : Host.Outcome State Fault Refusal :=
  Res.outcome (s.unMem (w := w) decFlags m (Instr.decMem w m).length)

/-- A decimal adjustment of AL, with OF one draw (R159, R160, D17). -/
def State.adjustAl (s : State) (fn : Byte → Flags → Bool → Alu 8) (len : Nat) : Res State :=
  let r := fn (s.reg .byte axReg) s.flags (s.draw 0)
  State.advance (State.drawn { s.setReg .byte axReg r.value with flags := r.flags } 1) len

/-- DAA (R159). -/
def execDaa (s : State) : Host.Outcome State Fault Refusal := Res.outcome (s.adjustAl daaFn Instr.daa.length)

/-- DAS (R160). -/
def execDas (s : State) : Host.Outcome State Fault Refusal := Res.outcome (s.adjustAl dasFn Instr.das.length)

/-- The dividend of DIV: AX when n = 8, DX ++ AX when n = 16 (R164). -/
def State.dividend (s : State) : Width → Nat
  | .byte => (s.reg .word axReg).toNat
  | .word => (s.reg .word dxReg ++ s.reg .word axReg).toNat

/-- Where DIV puts quotient and remainder: AL and AH, or AX and DX (R164). -/
def State.putQuotient (s : State) (w : Width) (q rem : Nat) : State :=
  match w with
  | .byte => (s.setReg .byte axReg (BitVec.ofNat 8 q)).setReg .byte ahReg (BitVec.ofNat 8 rem)
  | .word => (s.setReg .word axReg (BitVec.ofNat 16 q)).setReg .word dxReg (BitVec.ofNat 16 rem)

/-- `DivCore(n, d)` (R164): the divide error when the divisor is 0 or the quotient exceeds 2^n − 1, else quotient,
remainder and six undefined flags. -/
def State.divCore (s : State) (w : Width) (d : BitVec w.bits) (len : Nat) : Res State :=
  if d = 0 then s.divideError len
  else
    let num := s.dividend w
    let q := num / d.toNat
    if q > 2 ^ w.bits - 1 then s.divideError len
    else State.advance (State.drawn { s.putQuotient w q (num % d.toNat) with flags := s.divFlags } 6) len

/-- DIV AL, AX by register (R165). -/
def execDivReg (w : Width) (reg : RegNum) (s : State) : Host.Outcome State Fault Refusal :=
  Res.outcome (s.divCore w (s.reg w reg) (Instr.divReg w reg).length)

/-- DIV AL, AX by memory (R166). -/
def execDivMem (w : Width) (m : Mem) (s : State) : Host.Outcome State Fault Refusal :=
  Res.outcome (do
    let d ← s.readMem m w
    s.divCore w d (Instr.divMem w m).length)

end Sys2Proof.Machine
end

