-- ==== Sys2Proof/Machine/IoInt.lean ====
section
/-! DEFINITION. The meanings of IN, INS, INT n and INT 3 (spec R180 to R184). -/

namespace Sys2Proof.Machine

/-- AL or AX := the port's answer (R180, R181). -/
def State.input (s : State) (w : Width) (port : Word) (len : Nat) : Res State :=
  State.advance (s.portDone.setReg w axReg (s.portValue port w)) len

/-- IN, fixed port (R180): the port number byte, zero-extended. -/
def execInFixed (w : Width) (port : Byte) (s : State) : Host.Outcome State Fault Refusal :=
  Res.outcome (s.input w (port.setWidth 16) (Instr.inFixed w port).length)

/-- IN, variable port (R181): the port number is DX. -/
def execInVariable (w : Width) (s : State) : Host.Outcome State Fault Refusal :=
  Res.outcome (s.input w (s.reg .word dxReg) (Instr.inVariable w).length)

/-- DI after one element: up or down by n/8 modulo 2^16, by DF (R182). -/
def State.stepDi (s : State) (w : Width) : Word :=
  if s.flags.df then s.reg .word diReg - BitVec.ofNat 16 w.bytes else s.reg .word diReg + BitVec.ofNat 16 w.bytes

/-- INS (R182): the answer of port DX to ES:DI, then DI steps. -/
def execIns (w : Width) (s : State) : Host.Outcome State Fault Refusal :=
  Res.outcome (do
    let t ← s.portDone.segWrite .es (s.reg .word diReg) w (s.portValue (s.reg .word dxReg) w)
    State.advance (t.setReg .word diReg (s.stepDi w)) (Instr.ins w).length)

/-- INT n (R183): entry through vector `type`, the return offset being the next instruction's. -/
def execIntN (type : Byte) (s : State) : Host.Outcome State Fault Refusal :=
  Res.outcome (s.interrupt type (s.nextWord (Instr.intN type).length))

/-- INT 3 (R184): entry through vector 3. -/
def execInt3 (s : State) : Host.Outcome State Fault Refusal :=
  Res.outcome (s.interrupt 3 (s.nextWord Instr.int3.length))

end Sys2Proof.Machine
end

