-- ==== Sys2Proof/Machine/Jumps.lean ====
section
/-! DEFINITION. The meanings of Jcc, JMP, JCXZ and LOOP (spec R130 to R142). -/

namespace Sys2Proof.Machine

/-- A relative target: (`next` + rel) mod 2^16 (R141). -/
def State.relTarget (s : State) (len : Nat) (rel : Word) : Word := s.nextWord len + rel

/-- A relative transfer: taken to the target with no limit check, else on to `next` (R24, R141). -/
def State.branch (s : State) (taken : Bool) (len : Nat) (rel : Word) : Res State :=
  if taken then .ok { s with pc := s.relTarget len rel } else s.advance len

/-- Jcc with an 8-bit displacement (R131): length 2. -/
def State.jccShort (s : State) (c : Cond) (d : Byte) : Res State :=
  s.branch (s.flags.cond c) 2 (d.signExtend 16)

/-- Jcc with a full displacement (R132): length 4. -/
def State.jccFull (s : State) (c : Cond) (d : Word) : Res State :=
  s.branch (s.flags.cond c) 4 d

/-- JO, 8-bit displacement (R131). -/
def execJoShort (d : Byte) (s : State) : Host.Outcome State Fault Refusal := Res.outcome (s.jccShort .o d)

/-- JNO, 8-bit displacement (R131). -/
def execJnoShort (d : Byte) (s : State) : Host.Outcome State Fault Refusal := Res.outcome (s.jccShort .no d)

/-- JB, 8-bit displacement (R131). -/
def execJbShort (d : Byte) (s : State) : Host.Outcome State Fault Refusal := Res.outcome (s.jccShort .b d)

/-- JNB, 8-bit displacement (R131). -/
def execJnbShort (d : Byte) (s : State) : Host.Outcome State Fault Refusal := Res.outcome (s.jccShort .nb d)

/-- JE, 8-bit displacement (R131). -/
def execJeShort (d : Byte) (s : State) : Host.Outcome State Fault Refusal := Res.outcome (s.jccShort .e d)

/-- JNE, 8-bit displacement (R131). -/
def execJneShort (d : Byte) (s : State) : Host.Outcome State Fault Refusal := Res.outcome (s.jccShort .ne d)

/-- JBE, 8-bit displacement (R131). -/
def execJbeShort (d : Byte) (s : State) : Host.Outcome State Fault Refusal := Res.outcome (s.jccShort .be d)

/-- JNBE, 8-bit displacement (R131). -/
def execJnbeShort (d : Byte) (s : State) : Host.Outcome State Fault Refusal := Res.outcome (s.jccShort .nbe d)

/-- JS, 8-bit displacement (R131). -/
def execJsShort (d : Byte) (s : State) : Host.Outcome State Fault Refusal := Res.outcome (s.jccShort .s d)

/-- JNS, 8-bit displacement (R131). -/
def execJnsShort (d : Byte) (s : State) : Host.Outcome State Fault Refusal := Res.outcome (s.jccShort .ns d)

/-- JP, 8-bit displacement (R131). -/
def execJpShort (d : Byte) (s : State) : Host.Outcome State Fault Refusal := Res.outcome (s.jccShort .p d)

/-- JNP, 8-bit displacement (R131). -/
def execJnpShort (d : Byte) (s : State) : Host.Outcome State Fault Refusal := Res.outcome (s.jccShort .np d)

/-- JL, 8-bit displacement (R131). -/
def execJlShort (d : Byte) (s : State) : Host.Outcome State Fault Refusal := Res.outcome (s.jccShort .l d)

/-- JNL, 8-bit displacement (R131). -/
def execJnlShort (d : Byte) (s : State) : Host.Outcome State Fault Refusal := Res.outcome (s.jccShort .nl d)

/-- JLE, 8-bit displacement (R131). -/
def execJleShort (d : Byte) (s : State) : Host.Outcome State Fault Refusal := Res.outcome (s.jccShort .le d)

/-- JNLE, 8-bit displacement (R131). -/
def execJnleShort (d : Byte) (s : State) : Host.Outcome State Fault Refusal := Res.outcome (s.jccShort .nle d)

/-- JO, full displacement (R132). -/
def execJoFull (d : Word) (s : State) : Host.Outcome State Fault Refusal := Res.outcome (s.jccFull .o d)

/-- JNO, full displacement (R132). -/
def execJnoFull (d : Word) (s : State) : Host.Outcome State Fault Refusal := Res.outcome (s.jccFull .no d)

/-- JB, full displacement (R132). -/
def execJbFull (d : Word) (s : State) : Host.Outcome State Fault Refusal := Res.outcome (s.jccFull .b d)

/-- JNB, full displacement (R132). -/
def execJnbFull (d : Word) (s : State) : Host.Outcome State Fault Refusal := Res.outcome (s.jccFull .nb d)

/-- JE, full displacement (R132). -/
def execJeFull (d : Word) (s : State) : Host.Outcome State Fault Refusal := Res.outcome (s.jccFull .e d)

/-- JNE, full displacement (R132). -/
def execJneFull (d : Word) (s : State) : Host.Outcome State Fault Refusal := Res.outcome (s.jccFull .ne d)

/-- JBE, full displacement (R132). -/
def execJbeFull (d : Word) (s : State) : Host.Outcome State Fault Refusal := Res.outcome (s.jccFull .be d)

/-- JNBE, full displacement (R132). -/
def execJnbeFull (d : Word) (s : State) : Host.Outcome State Fault Refusal := Res.outcome (s.jccFull .nbe d)

/-- JS, full displacement (R132). -/
def execJsFull (d : Word) (s : State) : Host.Outcome State Fault Refusal := Res.outcome (s.jccFull .s d)

/-- JNS, full displacement (R132). -/
def execJnsFull (d : Word) (s : State) : Host.Outcome State Fault Refusal := Res.outcome (s.jccFull .ns d)

/-- JP, full displacement (R132). -/
def execJpFull (d : Word) (s : State) : Host.Outcome State Fault Refusal := Res.outcome (s.jccFull .p d)

/-- JNP, full displacement (R132). -/
def execJnpFull (d : Word) (s : State) : Host.Outcome State Fault Refusal := Res.outcome (s.jccFull .np d)

/-- JL, full displacement (R132). -/
def execJlFull (d : Word) (s : State) : Host.Outcome State Fault Refusal := Res.outcome (s.jccFull .l d)

/-- JNL, full displacement (R132). -/
def execJnlFull (d : Word) (s : State) : Host.Outcome State Fault Refusal := Res.outcome (s.jccFull .nl d)

/-- JLE, full displacement (R132). -/
def execJleFull (d : Word) (s : State) : Host.Outcome State Fault Refusal := Res.outcome (s.jccFull .le d)

/-- JNLE, full displacement (R132). -/
def execJnleFull (d : Word) (s : State) : Host.Outcome State Fault Refusal := Res.outcome (s.jccFull .nle d)

/-- JCXZ (R139): CX is read and not changed. -/
def execJcxz (d : Byte) (s : State) : Host.Outcome State Fault Refusal :=
  Res.outcome (s.branch (s.reg .word cxReg == 0) (Instr.jcxz d).length (d.signExtend 16))

/-- LOOP (R140): CX is decremented with no flag written; the jump is taken when it is not zero after that. -/
def execLoop (d : Byte) (s : State) : Host.Outcome State Fault Refusal :=
  let cx := s.reg .word cxReg - 1
  Res.outcome (State.branch (s.setReg .word cxReg cx) (cx != 0) (Instr.loop d).length (d.signExtend 16))

/-- JMP short (R133). -/
def execJmpShort (d : Byte) (s : State) : Host.Outcome State Fault Refusal :=
  Res.outcome (s.branch true (Instr.jmpShort d).length (d.signExtend 16))

/-- JMP direct (R134). -/
def execJmpDirect (d : Word) (s : State) : Host.Outcome State Fault Refusal :=
  Res.outcome (s.branch true (Instr.jmpDirect d).length d)

/-- JMP register indirect (R135): the register is the new IP. -/
def execJmpReg (reg : RegNum) (s : State) : Host.Outcome State Fault Refusal :=
  Res.outcome (.ok { s with pc := s.reg .word reg })

/-- JMP memory indirect (R136): the word read is the new IP. -/
def execJmpMem (m : Mem) (s : State) : Host.Outcome State Fault Refusal :=
  Res.outcome (do
    let t ← s.readMem m .word
    return { s with pc := t })

/-- JMP direct intersegment (R137). -/
def execJmpFar (offset selector : Word) (s : State) : Host.Outcome State Fault Refusal :=
  Res.outcome (.ok { s with cs := selector, pc := offset })

/-- JMP indirect intersegment (R138): one limit check on all four bytes, then the offset and the selector above it. -/
def execJmpFarMem (m : Mem) (s : State) : Host.Outcome State Fault Refusal :=
  Res.outcome (do
    checkLimit (eaSeg m) (s.ea m) 4
    let off ← s.segRead (eaSeg m) (s.ea m) .word
    let sel ← s.segRead (eaSeg m) (s.ea m + 2) .word
    return { s with cs := sel, pc := off })

end Sys2Proof.Machine
end

