-- ==== Sys2Proof/Machine/MoveLogic.lean ====
section
/-! DEFINITION. The meanings of MOV, NOP, NOT and OR (spec R190 to R203). -/

namespace Sys2Proof.Machine

/-- MOV register1 to register2 (R190): destination `reg2`. -/
def execMovReg1ToReg2 (w : Width) (reg1 reg2 : RegNum) (s : State) : Host.Outcome State Fault Refusal :=
  Res.outcome (s.moveToReg reg2 (s.reg w reg1) (Instr.movReg1ToReg2 w reg1 reg2).length)

/-- MOV register2 to register1 (R191): destination `reg1`. -/
def execMovReg2ToReg1 (w : Width) (reg1 reg2 : RegNum) (s : State) : Host.Outcome State Fault Refusal :=
  Res.outcome (s.moveToReg reg1 (s.reg w reg2) (Instr.movReg2ToReg1 w reg1 reg2).length)

/-- MOV memory to reg (R192). -/
def execMovMemToReg (w : Width) (reg : RegNum) (m : Mem) (s : State) : Host.Outcome State Fault Refusal :=
  Res.outcome (do
    let v ← s.readMem m w
    s.moveToReg reg v (Instr.movMemToReg w reg m).length)

/-- MOV reg to memory (R193). -/
def execMovRegToMem (w : Width) (reg : RegNum) (m : Mem) (s : State) : Host.Outcome State Fault Refusal :=
  Res.outcome (s.moveToSeg (eaSeg m) (s.ea m) (s.reg w reg) (Instr.movRegToMem w reg m).length)

/-- MOV immediate to register (R194). -/
def execMovImmToReg (imm : Imm) (reg : RegNum) (s : State) : Host.Outcome State Fault Refusal :=
  Res.outcome (s.moveToReg reg (immValue imm) (Instr.movImmToReg imm reg).length)

/-- MOV immediate to register, alternate encoding (R195). -/
def execMovImmToRegAlt (imm : Imm) (reg : RegNum) (s : State) : Host.Outcome State Fault Refusal :=
  Res.outcome (s.moveToReg reg (immValue imm) (Instr.movImmToRegAlt imm reg).length)

/-- MOV immediate to memory (R196). -/
def execMovImmToMem (imm : Imm) (m : Mem) (s : State) : Host.Outcome State Fault Refusal :=
  Res.outcome (s.moveToSeg (eaSeg m) (s.ea m) (immValue imm) (Instr.movImmToMem imm m).length)

/-- MOV memory to AL, AX (R197): the operand is at DS:offset. -/
def execMovMemToAcc (w : Width) (offset : Word) (s : State) : Host.Outcome State Fault Refusal :=
  Res.outcome (do
    let v ← s.segRead .ds offset w
    s.moveToReg axReg v (Instr.movMemToAcc w offset).length)

/-- MOV AL, AX to memory (R198): the operand is at DS:offset. -/
def execMovAccToMem (w : Width) (offset : Word) (s : State) : Host.Outcome State Fault Refusal :=
  Res.outcome (s.moveToSeg .ds offset (s.reg w axReg) (Instr.movAccToMem w offset).length)

/-- NOP (R199). -/
def execNop (s : State) : Host.Outcome State Fault Refusal := Res.outcome (s.advance Instr.nop.length)

/-- NOT register (R200). -/
def execNotReg (w : Width) (reg : RegNum) (s : State) : Host.Outcome State Fault Refusal :=
  Res.outcome (s.unReg (w := w) notFlags reg (Instr.notReg w reg).length)

/-- NOT memory (R201). -/
def execNotMem (w : Width) (m : Mem) (s : State) : Host.Outcome State Fault Refusal :=
  Res.outcome (s.unMem (w := w) notFlags m (Instr.notMem w m).length)

/-- OR register1 to register2 (R202): destination `reg2`, AF one draw. -/
def execOrReg1ToReg2 (w : Width) (reg1 reg2 : RegNum) (s : State) : Host.Outcome State Fault Refusal :=
  Res.outcome ((s.drawn 1).binToReg (w := w) (orFlags (s.draw 0)) reg2 (s.reg w reg1) (Instr.orReg1ToReg2 w reg1 reg2).length)

/-- OR register2 to register1 (R203): destination `reg1`, AF one draw. -/
def execOrReg2ToReg1 (w : Width) (reg1 reg2 : RegNum) (s : State) : Host.Outcome State Fault Refusal :=
  Res.outcome ((s.drawn 1).binToReg (w := w) (orFlags (s.draw 0)) reg1 (s.reg w reg2) (Instr.orReg2ToReg1 w reg1 reg2).length)

end Sys2Proof.Machine
end

