-- ==== Sys2Proof/Machine/Dispatch.lean ====
section
/-! DEFINITION. The dispatch: one arm per constructor of `Instr`, each one call of its meaning. -/

namespace Sys2Proof.Machine

def exec (i : Instr) (s : State) : Host.Outcome State Fault Refusal :=
  match i with
  | .addReg1ToReg2 w reg1 reg2 => Sys2Proof.Machine.execAddReg1ToReg2 w reg1 reg2 s
  | .addReg2ToReg1 w reg1 reg2 => Sys2Proof.Machine.execAddReg2ToReg1 w reg1 reg2 s
  | .addMemToReg w reg m => Sys2Proof.Machine.execAddMemToReg w reg m s
  | .addRegToMem w reg m => Sys2Proof.Machine.execAddRegToMem w reg m s
  | .addImmToReg imm reg => Sys2Proof.Machine.execAddImmToReg imm reg s
  | .addImmToAcc imm => Sys2Proof.Machine.execAddImmToAcc imm s
  | .addImmToMem imm m => Sys2Proof.Machine.execAddImmToMem imm m s
  | .daa => Sys2Proof.Machine.execDaa s
  | .das => Sys2Proof.Machine.execDas s
  | .decReg w reg => Sys2Proof.Machine.execDecReg w reg s
  | .decRegAlt reg => Sys2Proof.Machine.execDecRegAlt reg s
  | .decMem w m => Sys2Proof.Machine.execDecMem w m s
  | .divReg w reg => Sys2Proof.Machine.execDivReg w reg s
  | .divMem w m => Sys2Proof.Machine.execDivMem w m s
  | .inFixed w port => Sys2Proof.Machine.execInFixed w port s
  | .inVariable w => Sys2Proof.Machine.execInVariable w s
  | .incReg w reg => Sys2Proof.Machine.execIncReg w reg s
  | .incRegAlt reg => Sys2Proof.Machine.execIncRegAlt reg s
  | .incMem w m => Sys2Proof.Machine.execIncMem w m s
  | .ins w => Sys2Proof.Machine.execIns w s
  | .intN type => Sys2Proof.Machine.execIntN type s
  | .int3 => Sys2Proof.Machine.execInt3 s
  | .joShort d => Sys2Proof.Machine.execJoShort d s
  | .jnoShort d => Sys2Proof.Machine.execJnoShort d s
  | .jbShort d => Sys2Proof.Machine.execJbShort d s
  | .jnbShort d => Sys2Proof.Machine.execJnbShort d s
  | .jeShort d => Sys2Proof.Machine.execJeShort d s
  | .jneShort d => Sys2Proof.Machine.execJneShort d s
  | .jbeShort d => Sys2Proof.Machine.execJbeShort d s
  | .jnbeShort d => Sys2Proof.Machine.execJnbeShort d s
  | .jsShort d => Sys2Proof.Machine.execJsShort d s
  | .jnsShort d => Sys2Proof.Machine.execJnsShort d s
  | .jpShort d => Sys2Proof.Machine.execJpShort d s
  | .jnpShort d => Sys2Proof.Machine.execJnpShort d s
  | .jlShort d => Sys2Proof.Machine.execJlShort d s
  | .jnlShort d => Sys2Proof.Machine.execJnlShort d s
  | .jleShort d => Sys2Proof.Machine.execJleShort d s
  | .jnleShort d => Sys2Proof.Machine.execJnleShort d s
  | .joFull d => Sys2Proof.Machine.execJoFull d s
  | .jnoFull d => Sys2Proof.Machine.execJnoFull d s
  | .jbFull d => Sys2Proof.Machine.execJbFull d s
  | .jnbFull d => Sys2Proof.Machine.execJnbFull d s
  | .jeFull d => Sys2Proof.Machine.execJeFull d s
  | .jneFull d => Sys2Proof.Machine.execJneFull d s
  | .jbeFull d => Sys2Proof.Machine.execJbeFull d s
  | .jnbeFull d => Sys2Proof.Machine.execJnbeFull d s
  | .jsFull d => Sys2Proof.Machine.execJsFull d s
  | .jnsFull d => Sys2Proof.Machine.execJnsFull d s
  | .jpFull d => Sys2Proof.Machine.execJpFull d s
  | .jnpFull d => Sys2Proof.Machine.execJnpFull d s
  | .jlFull d => Sys2Proof.Machine.execJlFull d s
  | .jnlFull d => Sys2Proof.Machine.execJnlFull d s
  | .jleFull d => Sys2Proof.Machine.execJleFull d s
  | .jnleFull d => Sys2Proof.Machine.execJnleFull d s
  | .jcxz d => Sys2Proof.Machine.execJcxz d s
  | .jmpShort d => Sys2Proof.Machine.execJmpShort d s
  | .jmpDirect d => Sys2Proof.Machine.execJmpDirect d s
  | .jmpReg reg => Sys2Proof.Machine.execJmpReg reg s
  | .jmpMem m => Sys2Proof.Machine.execJmpMem m s
  | .jmpFar offset selector => Sys2Proof.Machine.execJmpFar offset selector s
  | .jmpFarMem m => Sys2Proof.Machine.execJmpFarMem m s
  | .loop d => Sys2Proof.Machine.execLoop d s
  | .movReg1ToReg2 w reg1 reg2 => Sys2Proof.Machine.execMovReg1ToReg2 w reg1 reg2 s
  | .movReg2ToReg1 w reg1 reg2 => Sys2Proof.Machine.execMovReg2ToReg1 w reg1 reg2 s
  | .movMemToReg w reg m => Sys2Proof.Machine.execMovMemToReg w reg m s
  | .movRegToMem w reg m => Sys2Proof.Machine.execMovRegToMem w reg m s
  | .movImmToReg imm reg => Sys2Proof.Machine.execMovImmToReg imm reg s
  | .movImmToRegAlt imm reg => Sys2Proof.Machine.execMovImmToRegAlt imm reg s
  | .movImmToMem imm m => Sys2Proof.Machine.execMovImmToMem imm m s
  | .movMemToAcc w offset => Sys2Proof.Machine.execMovMemToAcc w offset s
  | .movAccToMem w offset => Sys2Proof.Machine.execMovAccToMem w offset s
  | .nop => Sys2Proof.Machine.execNop s
  | .notReg w reg => Sys2Proof.Machine.execNotReg w reg s
  | .notMem w m => Sys2Proof.Machine.execNotMem w m s
  | .orReg1ToReg2 w reg1 reg2 => Sys2Proof.Machine.execOrReg1ToReg2 w reg1 reg2 s
  | .orReg2ToReg1 w reg1 reg2 => Sys2Proof.Machine.execOrReg2ToReg1 w reg1 reg2 s
  | .subReg1ToReg2 w reg1 reg2 => Sys2Proof.Machine.execSubReg1ToReg2 w reg1 reg2 s
  | .subReg2ToReg1 w reg1 reg2 => Sys2Proof.Machine.execSubReg2ToReg1 w reg1 reg2 s
  | .subMemToReg w reg m => Sys2Proof.Machine.execSubMemToReg w reg m s
  | .subRegToMem w reg m => Sys2Proof.Machine.execSubRegToMem w reg m s
  | .subImmToReg imm reg => Sys2Proof.Machine.execSubImmToReg imm reg s
  | .subImmToAcc imm => Sys2Proof.Machine.execSubImmToAcc imm s
  | .subImmToMem imm m => Sys2Proof.Machine.execSubImmToMem imm m s

end Sys2Proof.Machine
end

