-- ==== Sys2Proof/Machine/Fetch.lean ====
section
/-! DEFINITION. Fetching the bytes of an instruction at CS:IP (spec R53, R62, R102) and placing them. -/

namespace Sys2Proof.Machine

/-- Why a byte cannot be fetched. -/
inductive FetchStop where
  | fault (f : Fault)
  | refused (r : Refusal)
deriving DecidableEq, Repr

/-- The outcome of a step that needs a byte which cannot be fetched. -/
def FetchStop.outcome : FetchStop → Host.Outcome State Fault Refusal
  | .fault f => .fault f
  | .refused r => .refused r

/-- The physical address of byte k of the instruction: `Lin(CS, ip0 + k)` (R51, R102). -/
def State.fetchAddr (s : State) (k : Nat) : Nat := physAddr s.cs (s.pc.toNat + k)

/-- Can byte k of the instruction be fetched? Past offset FFFFh it is `SegLimit` (R53), outside `CodeRegion` it is
refused (R62, R102), outside `MemMap` it is `Unmapped` (R50), in this order (log 10). The refusal carries the byte's
physical address (log 20). -/
def State.fetchStop (s : State) (k : Nat) : Option FetchStop :=
  if s.pc.toNat + k > 0xFFFF then some (.fault (.segLimit .cs (s.pc.toNat + k)))
  else if !s.isCode (s.fetchAddr k) then some (.refused (.fetchOutsideCode (s.fetchAddr k)))
  else if !s.mapped (s.fetchAddr k) then some (.fault (.unmapped (s.fetchAddr k)))
  else none

/-- How many bytes at CS:IP can be fetched one after another, up to the longest instruction (R80). -/
def State.fetchCount (s : State) : Nat :=
  ((List.range maxLength).takeWhile fun k => (s.fetchStop k).isNone).length

/-- The bytes at CS:IP that can be fetched. The decoder looks at no more of them than it needs (R102). -/
def State.fetchBytes (s : State) : List Byte :=
  (List.range s.fetchCount).map fun k => Memory.read s.mem (s.fetchAddr k)

/-- Memory with a list of bytes written from an address upwards. -/
def Memory.writeBytes (m : Memory) (a : Nat) : List Byte → Memory
  | [] => m
  | v :: vs => Memory.writeBytes (Memory.write m a v) (a + 1) vs

/-- CS:IP equals `HaltAt` (R254): the pair of register values, not the linear address. -/
def State.atHalt (s : State) : Bool := s.haltAt == some { seg := s.cs, off := s.pc }

/-- The outcome of a step from what the decoder makes of the fetched bytes `bs`: the instruction's meaning, the refusal
`Unlisted` with the bytes examined (R99), or the stop of the first byte that is missing (R102). -/
def stepDecoded (run : Instr → State → Host.Outcome State Fault Refusal) (bs : List Byte) (s : State) :
    Host.Outcome State Fault Refusal :=
  match decode bs with
  | .ok i _ => run i s
  | .unlisted rest => .refused (.unlisted (bs.take (bs.length - rest.length)))
  | .short =>
    match s.fetchStop bs.length with
    | some stop => stop.outcome
    | none => .refused (.unlisted bs)

/-- The state with bytes loaded at CS:IP, declared as the program and present in the memory map, and no halt there
(log 13). -/
def State.loadBytes (s : State) (bs : List Byte) : State :=
  { s with
    mem := Memory.writeBytes s.mem (s.fetchAddr 0) bs
    memMap :=
      if (List.range bs.length).all (fun k => s.mapped (s.fetchAddr 0 + k)) then s.memMap
      else { base := s.fetchAddr 0, size := bs.length } :: s.memMap
    codeRegion := { base := s.fetchAddr 0, size := bs.length } :: s.codeRegion
    haltAt := if s.atHalt then none else s.haltAt }

end Sys2Proof.Machine
end

