-- ==== Sys2Proof/Machine/Step.lean ====
section
/-! DEFINITION. One step of the machine (spec R8, R11, R102, R254), and the placing of one instruction where the next
step fetches it. -/

namespace Sys2Proof.Machine

/-- One step. At `HaltAt` the run is over: nothing is fetched and the final state stays as it is (R254; log 6).
Elsewhere the instruction at CS:IP is fetched, decoded and performed (R102). -/
def step (s : State) : Host.Outcome State Fault Refusal :=
  if s.atHalt then .next s else stepDecoded exec s.fetchBytes s

/-- The state with an opcode-table row's bits (zeros above them) where the next step fetches (log 13, 14). -/
def State.withFetchWord (s : State) (nbits w : Nat) : State := s.loadBytes (tableBytes nbits w)

end Sys2Proof.Machine
end

