-- ==== Sys2Proof/Safety.lean ====
section
/-! DEFINITION. The terms claims use: when an access is performed, when an instruction that is no taken transfer
completes, the launch premises as an invariant, a final state, and what the flag functions and the decimal digits
mean in numbers. -/

namespace Sys2Proof.Machine

/-! ## When an access is performed -/

/-- All n/8 bytes at an offset of a segment lie inside the segment and in `MemMap` (R50, R53). -/
abbrev Readable (s : State) (seg : SegReg) (off : Word) (w : Width) : Prop :=
  off.toNat + w.bytes ≤ 0x10000 ∧ ∀ k < w.bytes, s.mapped (physAddr (s.seg seg) off.toNat + k) = true

/-- The same, and no byte lies in `CodeRegion` (R50, R53). -/
abbrev Writable (s : State) (seg : SegReg) (off : Word) (w : Width) : Prop :=
  Readable s seg off w ∧ ∀ k < w.bytes, s.isCode (physAddr (s.seg seg) off.toNat + k) = false

/-- The model fault of a read that is not performed (R50, R53, R224): `SegLimit` where a byte lies past offset FFFFh,
else `Unmapped` of the access's address. -/
def readFault (s : State) (seg : SegReg) (off : Word) (w : Width) : Fault :=
  if 0x10000 < off.toNat + w.bytes then .segLimit seg off.toNat else .unmapped (physAddr (s.seg seg) off.toNat)

/-- The model fault of a write that is not performed (R50, R53, R224): the same, and `CodeWrite` where all the bytes exist
and one lies in `CodeRegion`. -/
def writeFault (s : State) (seg : SegReg) (off : Word) (w : Width) : Fault :=
  if Readable s seg off w then .codeWrite (physAddr (s.seg seg) off.toNat) else readFault s seg off w

/-- The next instruction's offset lies inside the segment: an instruction of this length that is no taken transfer
can end (R24). -/
abbrev Continues (s : State) (len : Nat) : Prop := s.pc.toNat + len ≤ 0xFFFF

/-- The three words an interrupt entry pushes can be stored (R64, R221). -/
abbrev StackRoom (s : State) : Prop :=
  Writable s .ss (s.reg .word spReg - 2) .word ∧ Writable s .ss (s.reg .word spReg - 4) .word ∧
    Writable s .ss (s.reg .word spReg - 6) .word

/-- The four bytes of table entry n exist (R57, R222). -/
abbrev VectorMapped (s : State) (n : Byte) : Prop := ∀ k < 4, s.mapped (4 * n.toNat + k) = true

/-- The physical address of a memory operand: `EA` in the segment `EASeg` names (R51, R54, R84). -/
abbrev eaAddr (s : State) (m : Mem) : Nat := physAddr (s.seg (eaSeg m)) (s.ea m).toNat

/-- `next` modulo 2^16. -/
abbrev pcAfter (s : State) (len : Nat) : Word := BitVec.ofNat 16 (s.pc.toNat + len)

/-- The outcome of an instruction that cannot go on to `next`: `SegLimit` on CS (R24, R226; the offset it reports is left
open, log 9). -/
def EndsPastSegment (o : Host.Outcome State Fault Refusal) : Prop := ∃ off, o = .fault (.segLimit .cs off)

/-- Byte k from CS:IP on can be fetched: inside the segment, in `CodeRegion` and in `MemMap` (R51, R53, R62, R102). -/
abbrev Fetchable (s : State) (k : Nat) : Prop :=
  s.pc.toNat + k ≤ 0xFFFF ∧ s.isCode (s.cs.toNat * 16 + (s.pc.toNat + k)) = true ∧
    s.mapped (s.cs.toNat * 16 + (s.pc.toNat + k)) = true

/-- The bytes from CS:IP on can be fetched and are these. -/
abbrev Fetched (s : State) (bs : List Byte) : Prop :=
  ∀ k < bs.length, Fetchable s k ∧ Memory.read s.mem (s.cs.toNat * 16 + (s.pc.toNat + k)) = bs.getD k 0

/-! ## Whole states -/

/-- The launch premises that no step breaks: memory in its canonical form, TF = 0, and FLAGS bits 1, 3, 5, 15 at
1, 0, 0, 0 (R25, R32, R225). -/
abbrev Inv (s : State) : Prop :=
  Memory.wf s.mem = true ∧ s.flags.tf = false ∧ s.flags.bit1 = true ∧ s.flags.bit3 = false ∧
    s.flags.bit5 = false ∧ s.flags.bit15 = false

/-- The run is over in this state: CS:IP equals `HaltAt` (R254). -/
abbrev Final (s : State) : Prop := s.haltAt = some { seg := s.cs, off := s.pc }

/-- The state takes a step: no model fault and no refusal (R8, R224). -/
def Steps (s : State) : Prop := ∃ t, step s = .next t

/-- A run of k steps meets no fault and no refusal: what every claim about a run assumes (R224). -/
def SafeRun (k : Nat) (s : State) : Prop := ∃ t, Sys2Proof.core.run k s = .next t

/-! ## What an instruction leaves unchanged -/

/-- Every byte of memory reads as before. -/
def SameMemory (s t : State) : Prop := ∀ a, Memory.read t.mem a = Memory.read s.mem a

/-- Every byte outside the n/8 bytes at an address reads as before. -/
def SameMemoryOutside (base : Nat) (w : Width) (s t : State) : Prop :=
  ∀ a, (∀ k < w.bytes, a ≠ base + k) → Memory.read t.mem a = Memory.read s.mem a

/-- Every general register is as before, all 32 bits. -/
def SameRegisters (s t : State) : Prop := ∀ q : RegNum, t.reg32 q = s.reg32 q

/-- Every general register other than the one a view names is as before; of that one, bits 31..16 are, and the
other byte where the view is a byte (R20 to R22). -/
def OnlyRegister (w : Width) (r : RegNum) (s t : State) : Prop :=
  (∀ q : RegNum, q ≠ r → t.reg w q = s.reg w q) ∧
  (∀ q : RegNum, (t.reg32 q).extractLsb' 16 16 = (s.reg32 q).extractLsb' 16 16) ∧
  (w = .byte → ∀ q : RegNum, 4 ≤ q.toNat → t.reg .word q = s.reg .word q)

/-- SS, DS, ES, FS, GS and the launch parameters are as before. -/
def SameSegmentsAndLaunch (s t : State) : Prop :=
  t.ss = s.ss ∧ t.ds = s.ds ∧ t.es = s.es ∧ t.fs = s.fs ∧ t.gs = s.gs ∧
    t.memMap = s.memMap ∧ t.codeRegion = s.codeRegion ∧ t.haltAt = s.haltAt

/-- The port oracle has not moved. -/
def SamePorts (s t : State) : Prop := t.portAnswers = s.portAnswers ∧ t.portReads = s.portReads

/-- The frame of an instruction that is no far jump, no input and no interrupt: CS, the other segment registers,
the launch parameters and the port oracle are as before. -/
def SameSystem (s t : State) : Prop := t.cs = s.cs ∧ SameSegmentsAndLaunch s t ∧ SamePorts s t

/-! ## Results in numbers -/

/-- Bit n − 1 of a value: the sign bit of R150. -/
abbrev topBit {n : Nat} (v : BitVec n) : Bool := v.getLsbD (n - 1)

/-- The flags SF, ZF, PF follow a result (`SetSZP`, R150). -/
def SzpOf {n : Nat} (r : BitVec n) (g : Flags) : Prop :=
  g.sf = topBit r ∧ (g.zf = true ↔ r.toNat = 0) ∧
    (g.pf = true ↔ (∑ k ∈ Finset.range 8, (r.getLsbD k).toNat) % 2 = 0)

/-- All of FLAGS but CF, PF, AF, ZF, SF, OF is as before. -/
def OnlyStatusFlags (f g : Flags) : Prop :=
  g.bit1 = f.bit1 ∧ g.bit3 = f.bit3 ∧ g.bit5 = f.bit5 ∧ g.tf = f.tf ∧ g.intf = f.intf ∧ g.df = f.df ∧
    g.high = f.high ∧ g.bit15 = f.bit15

/-- The word has each flag at its bit position (R25). -/
def IsFlagsWord (f : Flags) (v : Word) : Prop :=
  v.getLsbD 0 = f.cf ∧ v.getLsbD 1 = f.bit1 ∧ v.getLsbD 2 = f.pf ∧ v.getLsbD 3 = f.bit3 ∧ v.getLsbD 4 = f.af ∧
    v.getLsbD 5 = f.bit5 ∧ v.getLsbD 6 = f.zf ∧ v.getLsbD 7 = f.sf ∧ v.getLsbD 8 = f.tf ∧ v.getLsbD 9 = f.intf ∧
    v.getLsbD 10 = f.df ∧ v.getLsbD 11 = f.ovf ∧ v.extractLsb' 12 3 = f.high ∧ v.getLsbD 15 = f.bit15

/-- `r` and the flags `g` are what `AddFlags(n, a, b)` gives from the flags `f` (R150). -/
def IsSum {n : Nat} (a b : BitVec n) (f : Flags) (r : BitVec n) (g : Flags) : Prop :=
  r.toNat = (a.toNat + b.toNat) % 2 ^ n ∧
  (g.cf = true ↔ 2 ^ n ≤ a.toNat + b.toNat) ∧
  (g.af = true ↔ 16 ≤ a.toNat % 16 + b.toNat % 16) ∧
  (g.ovf = true ↔ topBit a = topBit b ∧ topBit r ≠ topBit a) ∧
  SzpOf r g ∧ OnlyStatusFlags f g

/-- `r` and the flags `g` are what `SubFlags(n, a, b)` gives from the flags `f` (R150). -/
def IsDifference {n : Nat} (a b : BitVec n) (f : Flags) (r : BitVec n) (g : Flags) : Prop :=
  (r.toNat : Int) = ((a.toNat : Int) - b.toNat) % 2 ^ n ∧
  (g.cf = true ↔ a.toNat < b.toNat) ∧
  (g.af = true ↔ a.toNat % 16 < b.toNat % 16) ∧
  (g.ovf = true ↔ topBit a ≠ topBit b ∧ topBit r ≠ topBit a) ∧
  SzpOf r g ∧ OnlyStatusFlags f g

/-- The same with CF left as it was (`IncFlags`, R150). -/
def IsIncrement {n : Nat} (a : BitVec n) (f : Flags) (r : BitVec n) (g : Flags) : Prop :=
  g.cf = f.cf ∧ ∃ c, IsSum a 1 f r { g with cf := c }

/-- The same with CF left as it was (`DecFlags`, R150). -/
def IsDecrement {n : Nat} (a : BitVec n) (f : Flags) (r : BitVec n) (g : Flags) : Prop :=
  g.cf = f.cf ∧ ∃ c, IsDifference a 1 f r { g with cf := c }

/-- The two decimal digits of a packed-BCD byte are both at most 9. -/
abbrev IsBcd (v : Byte) : Prop := v.toNat % 16 ≤ 9 ∧ v.toNat / 16 ≤ 9

/-- The number a packed-BCD byte stands for. -/
abbrev bcdValue (v : Byte) : Nat := 10 * (v.toNat / 16) + v.toNat % 16

end Sys2Proof.Machine
end

