-- ==== Sys2Proof/Certificates/Slice0/Obligations.lean ====
section
/-! DEFINITION. The statements for the provers. Each docstring names the rules of the spec it formalises; where a
clause rests on a choice of the model it names the row of notes/assumptions/. -/

open Sys2Proof Sys2Proof.Machine

/-! ## Encoding -/

/-- Decoding the bytes of any well-formed instruction, whatever follows them, gives that instruction and leaves what
follows: no operand bit is dropped (R80 to R99, R102). -/
def Obligations.DecodeInvertsEncode : Prop :=
  ∀ (i : Instr) (rest : List Byte), i.wellFormed = true → decode (encode i ++ rest) = .ok i rest

/-- Whatever the decoder reads is well formed and is spelled by exactly the bytes read: no instruction is decoded
from bytes that are not its own encoding (R97 to R102). -/
def Obligations.EncodeInvertsDecode : Prop :=
  ∀ (bs rest : List Byte) (i : Instr), decode bs = .ok i rest → i.wellFormed = true ∧ bs = encode i ++ rest

/-- Six bytes settle every decoding: the longest instruction has 6 bytes, and a refused sequence is refused by its
first two (R80, R102). -/
def Obligations.SixBytesSettleDecoding : Prop :=
  (∀ bs : List Byte, 6 ≤ bs.length → decode bs ≠ .short) ∧
  (∀ bs rest : List Byte, decode bs = .unlisted rest → bs.length ≤ rest.length + 2)

/-- No first byte matches two lines of the first-byte map (R97, R107). -/
def Obligations.FirstByteMapUnambiguous : Prop :=
  ∀ b : Byte, (opcodeMap.filter fun l => l.matches b).length ≤ 1

/-- The 99 first bytes that begin a listed instruction (R97; 95_test_vectors.md section 5). -/
def listedFirstBytes : List Nat :=
  [0x00, 0x01, 0x02, 0x03, 0x04, 0x05, 0x08, 0x09, 0x0A, 0x0B, 0x0F, 0x27, 0x28, 0x29, 0x2A, 0x2B, 0x2C, 0x2D, 0x2F]
    ++ List.range' 0x40 16 ++ [0x6C, 0x6D] ++ List.range' 0x70 16 ++ [0x80, 0x81, 0x82, 0x83]
    ++ [0x88, 0x89, 0x8A, 0x8B, 0x90, 0xA0, 0xA1, 0xA2, 0xA3] ++ List.range' 0xB0 16
    ++ [0xC6, 0xC7, 0xCC, 0xCD, 0xE2, 0xE3, 0xE4, 0xE5, 0xE9, 0xEA, 0xEB, 0xEC, 0xED, 0xF6, 0xF7, 0xFE, 0xFF]

/-- The first two bytes that no row matches although rows begin with the first byte (R98, R99): 0F with a second byte
outside 80h..8Fh; OR with mod ≠ 11; bits 5..3 that R98 does not list; FF with bits 5..3 = 101 and mod = 11. -/
abbrev UnlistedPair (b c : Byte) : Prop :=
  (b = 0x0F ∧ (c.toNat < 0x80 ∨ 0x8F < c.toNat)) ∨
  (b.toNat ∈ [0x08, 0x09, 0x0A, 0x0B] ∧ c.toNat < 0xC0) ∨
  (b.toNat ∈ [0x80, 0x81, 0x82, 0x83] ∧ c.toNat / 8 % 8 ∉ [0, 5]) ∨
  (b.toNat ∈ [0xC6, 0xC7] ∧ c.toNat / 8 % 8 ≠ 0) ∨
  (b.toNat ∈ [0xF6, 0xF7] ∧ c.toNat / 8 % 8 ∉ [2, 6]) ∨
  (b = 0xFE ∧ c.toNat / 8 % 8 ∉ [0, 1]) ∨
  (b = 0xFF ∧ (c.toNat / 8 % 8 ∉ [0, 1, 4, 5] ∨ (c.toNat / 8 % 8 = 5 ∧ 0xC0 ≤ c.toNat)))

/-- A byte sequence that no row matches is refused as `Unlisted`, whatever follows (R97 to R100): a first byte outside
the first-byte map (prefixes, HLT, IRET, PUSH and every other instruction the handout does not list), and the pairs of
`UnlistedPair`. That the refusal carries the one or two bytes examined is the model's choice (log 11). -/
def Obligations.UnlistedFirstByteIsRefused : Prop :=
  (∀ (s : State) (b : Byte), ¬ Final s → Fetched s [b] → b.toNat ∉ listedFirstBytes →
    step s = .refused (.unlisted [b])) ∧
  (∀ (s : State) (b c : Byte), ¬ Final s → Fetched s [b, c] → UnlistedPair b c →
    step s = .refused (.unlisted [b, c]))

/-- Words written out from the spec's encodings decode to the instructions they stand for, one for each family. -/
def Obligations.SampleEncodingsDecode : Prop :=
  decode [0x01, 0xD8] = .ok (.addReg1ToReg2 .word 3 0) [] ∧
  decode [0x83, 0x46, 0xFE, 0xFF] = .ok (.addImmToMem (.sext 0xFF) (.disp8 .bp 0xFE)) [] ∧
  decode [0x2B, 0x04] = .ok (.subMemToReg .word 0 (.plain .si)) [] ∧
  decode [0x47] = .ok (.incRegAlt 7) [] ∧
  decode [0xF6, 0x36, 0x00, 0x30] = .ok (.divMem .byte (.direct 0x3000)) [] ∧
  decode [0x0F, 0x82, 0x00, 0x01] = .ok (.jbFull 0x0100) [] ∧
  decode [0xEA, 0x20, 0x00, 0x00, 0x10] = .ok (.jmpFar 0x0020 0x1000) [] ∧
  decode [0xE4, 0x60] = .ok (.inFixed .byte 0x60) [] ∧
  decode [0xCD, 0x21] = .ok (.intN 0x21) [] ∧
  decode [0xC7, 0x82, 0x00, 0x10, 0xEF, 0xBE] = .ok (.movImmToMem (.word 0xBEEF) (.disp16 .bpsi 0x1000)) [] ∧
  decode [0xF7, 0xD3] = .ok (.notReg .word 3) [] ∧
  decode [0x0A, 0xE5] = .ok (.orReg2ToReg1 .byte 4 5) []

/-! ## The step -/

/-- A step runs the decoded instruction: where the bytes fetched at CS:IP decode to an instruction, and CS:IP is not
`HaltAt`, the step is that instruction's meaning at that state, with nothing added around it (R102, R254). -/
def Obligations.StepRunsDecodedInstruction : Prop :=
  ∀ (s : State) (i : Instr) (rest : List Byte), ¬ Final s → decode s.fetchBytes = .ok i rest → step s = exec i s

/-- A step runs the instruction whose encoding lies in memory at `CS * 16 + IP` onward, where each of its bytes is
inside the segment, in `CodeRegion` and in `MemMap` (R51, R53, R62, R102). -/
def Obligations.StepRunsInstructionInMemory : Prop :=
  ∀ (s : State) (i : Instr), i.wellFormed = true → ¬ Final s → Fetched s (encode i) → step s = exec i s

/-- Where no instruction can be fetched (R53, R62, R102), CS:IP not being `HaltAt`: the bytes `bs` from CS:IP on are fetched
(none of them, where the first byte is at fault) and the decoder needs the next one. Past offset FFFFh that one is `SegLimit`
on CS, outside `CodeRegion` it is refused, and outside `MemMap` it is `Unmapped`, in this order (log 10); `Unmapped` reports the
byte's address (log 9), and the refusal carries it (log 20). -/
def Obligations.FetchStops : Prop :=
  ∀ (s : State) (bs : List Byte), ¬ Final s → Fetched s bs → decode bs = .short →
    (0xFFFF < s.pc.toNat + bs.length → EndsPastSegment (step s)) ∧
    (s.pc.toNat + bs.length ≤ 0xFFFF → s.isCode (s.cs.toNat * 16 + (s.pc.toNat + bs.length)) = false →
      step s = .refused (.fetchOutsideCode (s.cs.toNat * 16 + (s.pc.toNat + bs.length)))) ∧
    (s.pc.toNat + bs.length ≤ 0xFFFF → s.isCode (s.cs.toNat * 16 + (s.pc.toNat + bs.length)) = true →
      s.mapped (s.cs.toNat * 16 + (s.pc.toNat + bs.length)) = false →
      step s = .fault (.unmapped (s.cs.toNat * 16 + (s.pc.toNat + bs.length))))

/-- At `HaltAt` nothing is fetched and the final state stays (R254; that a further step keeps the state is the
model's choice, log 6). -/
def Obligations.StepAtHaltKeepsState : Prop :=
  ∀ s : State, Final s → step s = .next s

/-! ## Invariants of the whole machine -/

/-- The launch premises that no step breaks hold after reset (memory's canonical form and the reset value of FLAGS
are the model's, log 2 and log 3). -/
def Obligations.LaunchInvariantAtReset : Prop := Inv State.reset

/-- Every step keeps memory canonical, TF = 0 and FLAGS bits 1, 3, 5, 15 at 1, 0, 0, 0 (R25, R225). -/
def Obligations.StepKeepsLaunchInvariant : Prop :=
  ∀ s t : State, Inv s → step s = .next t → Inv t

/-- The bytes of the program never change, nor does any address outside `MemMap`, nor do `MemMap`, `CodeRegion` and
`HaltAt`, whatever instruction a step runs (R50, R62). -/
def Obligations.StepKeepsProgramBytes : Prop :=
  ∀ s t : State, step s = .next t →
    t.memMap = s.memMap ∧ t.codeRegion = s.codeRegion ∧ t.haltAt = s.haltAt ∧
    ∀ a, s.isCode a = true ∨ s.mapped a = false → Memory.read t.mem a = Memory.read s.mem a

/-- No step writes SS, DS, ES, FS or GS, bits 31..16 of a general register, DF or FLAGS bits 12..14, and none sets TF or
IF, which interrupt entry only clears (R20, R25, R27, R225). -/
def Obligations.StepKeepsUnwrittenState : Prop :=
  ∀ s t : State, step s = .next t →
    t.ss = s.ss ∧ t.ds = s.ds ∧ t.es = s.es ∧ t.fs = s.fs ∧ t.gs = s.gs ∧
    t.flags.df = s.flags.df ∧ t.flags.high = s.flags.high ∧
    (t.flags.tf = true → s.flags.tf = true) ∧ (t.flags.intf = true → s.flags.intf = true) ∧
    ∀ q : RegNum, (t.reg32 q).extractLsb' 16 16 = (s.reg32 q).extractLsb' 16 16

/-- The instructions that may write CS: the two jumps to another segment, and those that may enter a handler. -/
def mayWriteCs : Instr → Bool
  | .jmpFar _ _ | .jmpFarMem _ | .intN _ | .int3 | .divReg _ _ | .divMem _ _ => true
  | _ => false

/-- CS is written by the two jumps to another segment and by interrupt entry, and by nothing else (R27). -/
def Obligations.OnlyFarTransfersWriteCs : Prop :=
  ∀ (i : Instr) (s t : State), mayWriteCs i = false → exec i s = .next t → t.cs = s.cs

/-- The values after reset: IP, FLAGS and the segment registers are the family's, PRESUMED (log 2); registers,
memory, launch parameters (`MemMap` the addresses 0 to 10FFEFh, `CodeRegion` empty, no `HaltAt`, no written-out port
answers) and the two counters of free values are the model's choices (log 1, 3 to 8). The spec models no reset
(R32, R250). -/
def Obligations.ResetState : Prop :=
  State.reset.pc = 0xFFF0 ∧ State.reset.cs = 0xF000 ∧ State.reset.flags.toWord = 0x0002 ∧
  State.reset.ss = 0 ∧ State.reset.ds = 0 ∧ State.reset.es = 0 ∧ State.reset.fs = 0 ∧ State.reset.gs = 0 ∧
  (∀ q : RegNum, State.reset.reg32 q = 0) ∧ (∀ a, Memory.read State.reset.mem a = 0) ∧
  State.reset.mem = [] ∧ (∀ a, State.reset.mapped a = true ↔ a ≤ 0x10FFEF) ∧
  State.reset.codeRegion = [] ∧ State.reset.haltAt = none ∧
  State.reset.portAnswers = [] ∧ State.reset.portReads = 0 ∧ State.reset.draws = 0

/-! ## Registers, memory, operands -/

/-- The register views (R21, R22): AX .. DI are the low words, AL .. BL and AH .. BH the two low bytes; a write replaces
the bits of its view and no other bit of any register: the view reads back, every other register of its width, bits
31..16 of all eight and, for a byte, SP BP SI DI stay, and nothing but the register file changes. -/
def Obligations.RegisterViews : Prop :=
  (∀ (r : RegNum) (s : State),
    s.reg .word r = (s.reg32 r).extractLsb' 0 16 ∧
    (r.toNat < 4 → s.reg .byte r = (s.reg32 r).extractLsb' 0 8) ∧
    (4 ≤ r.toNat → s.reg .byte r = (s.reg32 (r - 4)).extractLsb' 8 8)) ∧
  (∀ (w : Width) (r : RegNum) (v : BitVec w.bits) (s : State),
    (s.setReg w r v).reg w r = v ∧ OnlyRegister w r s (s.setReg w r v) ∧ { s.setReg w r v with x := s.x } = s)

/-- Bytes and words in memory (R50, R52): a word read is the byte above joined to the byte below; a stored word has its low
byte at the lower address, whether it is read as two bytes or as a word; a stored byte reads back; every other byte is as
before. The clauses about stores take memory in its canonical form, which is the model's (log 3). -/
def Obligations.LittleEndianWords : Prop :=
  ∀ (s : State) (a : Nat),
    (∀ v : Word, s.memRead a .word = .ok v →
      s.memRead (a + 1) .byte = .ok (v.extractLsb' 8 8) ∧ s.memRead a .byte = .ok (v.extractLsb' 0 8)) ∧
    (∀ (t : State) (v : Word), Memory.wf s.mem = true → s.memWrite a .word v = .ok t →
      Memory.read t.mem a = v.extractLsb' 0 8 ∧ Memory.read t.mem (a + 1) = v.extractLsb' 8 8 ∧
      t.memRead a .word = .ok v ∧ ∀ c, c ≠ a → c ≠ a + 1 → Memory.read t.mem c = Memory.read s.mem c) ∧
    (∀ (t : State) (v : Byte), Memory.wf s.mem = true → s.memWrite a .byte v = .ok t →
      Memory.read t.mem a = v ∧ t.memRead a .byte = .ok v ∧ ∀ c, c ≠ a → Memory.read t.mem c = Memory.read s.mem c)

/-- Segment-relative access (R50, R51, R53): past offset FFFFh it is `SegLimit`, which only a word at FFFFh is; inside, the
bytes at `s * 16 + off` are read or written where they exist, else it is `Unmapped`, and a store that touches the
program is `CodeWrite`; both name the access's address (log 9), and `Unmapped` comes before `CodeWrite` where a word has a
byte of each kind (log 10). -/
def Obligations.SegmentAccess : Prop :=
  ∀ (s : State) (seg : SegReg) (off : Word) (w : Width) (v : BitVec w.bits),
    (off.toNat + w.bytes - 1 > 0xFFFF → w = .word ∧ off = 0xFFFF ∧
      s.segRead seg off w = .error (.segLimit seg off.toNat) ∧
      s.segWrite seg off w v = .error (.segLimit seg off.toNat)) ∧
    (off.toNat + w.bytes - 1 ≤ 0xFFFF →
      ((∀ k < w.bytes, s.mapped ((s.seg seg).toNat * 16 + off.toNat + k) = true) →
        s.segRead seg off w = .ok (Memory.readValue s.mem ((s.seg seg).toNat * 16 + off.toNat) w) ∧
        ((∀ k < w.bytes, s.isCode ((s.seg seg).toNat * 16 + off.toNat + k) = false) →
          s.segWrite seg off w v =
            .ok { s with mem := Memory.writeValue s.mem ((s.seg seg).toNat * 16 + off.toNat) w v }) ∧
        ((∃ k < w.bytes, s.isCode ((s.seg seg).toNat * 16 + off.toNat + k) = true) →
          s.segWrite seg off w v = .error (.codeWrite ((s.seg seg).toNat * 16 + off.toNat)))) ∧
      ((∃ k < w.bytes, s.mapped ((s.seg seg).toNat * 16 + off.toNat + k) = false) →
        s.segRead seg off w = .error (.unmapped ((s.seg seg).toNat * 16 + off.toNat)) ∧
        s.segWrite seg off w v = .error (.unmapped ((s.seg seg).toNat * 16 + off.toNat))))

/-- The base and index registers of an r/m row as one number (R84). -/
def baseNumber (s : State) : BaseIndex → Int
  | .bxsi => (s.reg .word 3).toNat + (s.reg .word 6).toNat
  | .bxdi => (s.reg .word 3).toNat + (s.reg .word 7).toNat
  | .bpsi => (s.reg .word 5).toNat + (s.reg .word 6).toNat
  | .bpdi => (s.reg .word 5).toNat + (s.reg .word 7).toNat
  | .si => (s.reg .word 6).toNat
  | .di => (s.reg .word 7).toNat
  | .bp => (s.reg .word 5).toNat
  | .bx => (s.reg .word 3).toNat

/-- The r/m number of each row (R84). -/
def rmNumber : BaseIndex → BitVec 3
  | .bxsi => 0b000
  | .bxdi => 0b001
  | .bpsi => 0b010
  | .bpdi => 0b011
  | .si => 0b100
  | .di => 0b101
  | .bp => 0b110
  | .bx => 0b111

/-- Memory operands: the effective addresses (R84), base and index plus the signed D8 or the D16 modulo 2^16, the Direct
Address being D16; and the bytes and lengths that stand for operands in an instruction (R83, R84, R88, R94, R95): mod, the
reg field and r/m by their numbers (mod = 00 with r/m = 110 is the Direct Address), a D16 or a word immediate with its low
byte first, and the w bit. -/
def Obligations.EffectiveAddresses : Prop :=
  (∀ s : State,
    (∀ d : Word, s.ea (.direct d) = d) ∧
    (∀ b : BaseIndex, ((s.ea (.plain b)).toNat : Int) = baseNumber s b % 0x10000) ∧
    (∀ (b : BaseIndex) (d : Byte), ((s.ea (.disp8 b d)).toNat : Int) = (baseNumber s b + d.toInt) % 0x10000) ∧
    (∀ (b : BaseIndex) (d : Word), ((s.ea (.disp16 b d)).toNat : Int) = (baseNumber s b + d.toNat) % 0x10000)) ∧
  (∀ field : BitVec 3,
    (∀ d : Word, modRMMem field (.direct d) = [0b00#2 ++ field ++ 0b110#3, d.extractLsb' 0 8, d.extractLsb' 8 8]) ∧
    (∀ b : BaseIndex, b ≠ .bp → modRMMem field (.plain b) = [0b00#2 ++ field ++ rmNumber b]) ∧
    (∀ (b : BaseIndex) (d : Byte), modRMMem field (.disp8 b d) = [0b01#2 ++ field ++ rmNumber b, d]) ∧
    (∀ (b : BaseIndex) (d : Word),
      modRMMem field (.disp16 b d) = [0b10#2 ++ field ++ rmNumber b, d.extractLsb' 0 8, d.extractLsb' 8 8]) ∧
    (∀ m : Mem, (modRMMem field m).length = 1 + m.dispLength)) ∧
  (∀ v : Byte, (Imm.byte v).bytes = [v] ∧ (∀ s : Bool, (ImmSW.byte s v).bytes = [v]) ∧ (ImmSW.sext v).bytes = [v]) ∧
  (∀ v : Word, (Imm.word v).bytes = [v.extractLsb' 0 8, v.extractLsb' 8 8] ∧
    (ImmSW.word v).bytes = [v.extractLsb' 0 8, v.extractLsb' 8 8]) ∧
  (∀ imm : Imm, imm.bytes.length = imm.length) ∧ (∀ imm : ImmSW, imm.bytes.length = imm.length) ∧
  Width.byte.bit = 0 ∧ Width.word.bit = 1

/-- The r/m rows that contain (BP) (R54). -/
def usesBp : BaseIndex → Bool
  | .bpsi | .bpdi | .bp => true
  | _ => false

/-- Default segments (R54): SS for a sum that contains (BP), DS for every other memory operand, the Direct Address
among them. -/
def Obligations.DefaultSegments : Prop :=
  (∀ d : Word, eaSeg (.direct d) = .ds) ∧
  (∀ b : BaseIndex, eaSeg (.plain b) = if usesBp b then .ss else .ds) ∧
  (∀ (b : BaseIndex) (d : Byte), eaSeg (.disp8 b d) = if usesBp b then .ss else .ds) ∧
  (∀ (b : BaseIndex) (d : Word), eaSeg (.disp16 b d) = if usesBp b then .ss else .ds)

/-! ## Flags -/

/-- `Cond(tttn)` (R130): the sixteen flag tests by their tttn value, each mnemonic's field, and that `Cond(ttt1)` is the
negation of `Cond(ttt0)`. -/
def Obligations.ConditionTable : Prop :=
  (∀ f : Flags,
    (f.cond (Cond.ofField 0x0) = true ↔ f.ovf = true) ∧ (f.cond (Cond.ofField 0x1) = true ↔ f.ovf = false) ∧
    (f.cond (Cond.ofField 0x2) = true ↔ f.cf = true) ∧ (f.cond (Cond.ofField 0x3) = true ↔ f.cf = false) ∧
    (f.cond (Cond.ofField 0x4) = true ↔ f.zf = true) ∧ (f.cond (Cond.ofField 0x5) = true ↔ f.zf = false) ∧
    (f.cond (Cond.ofField 0x6) = true ↔ f.cf = true ∨ f.zf = true) ∧
    (f.cond (Cond.ofField 0x7) = true ↔ f.cf = false ∧ f.zf = false) ∧
    (f.cond (Cond.ofField 0x8) = true ↔ f.sf = true) ∧ (f.cond (Cond.ofField 0x9) = true ↔ f.sf = false) ∧
    (f.cond (Cond.ofField 0xA) = true ↔ f.pf = true) ∧ (f.cond (Cond.ofField 0xB) = true ↔ f.pf = false) ∧
    (f.cond (Cond.ofField 0xC) = true ↔ f.sf ≠ f.ovf) ∧ (f.cond (Cond.ofField 0xD) = true ↔ f.sf = f.ovf) ∧
    (f.cond (Cond.ofField 0xE) = true ↔ f.zf = true ∨ f.sf ≠ f.ovf) ∧
    (f.cond (Cond.ofField 0xF) = true ↔ f.zf = false ∧ f.sf = f.ovf) ∧
    ∀ ttt : BitVec 3, f.cond (Cond.ofField (ttt ++ 1#1)) = !f.cond (Cond.ofField (ttt ++ 0#1))) ∧
  [Cond.o, .no, .b, .nb, .e, .ne, .be, .nbe, .s, .ns, .p, .np, .l, .nl, .le, .nle] =
    ((List.range 16).map fun k => Cond.ofField (BitVec.ofNat 4 k)) ∧
  ∀ c : Cond, Cond.ofField c.field = c

/-- After SUB the conditions compare the operands (R130, R150): B, BE and their negations as unsigned numbers, L, LE
and their negations as signed numbers, E and NE for equality. -/
def Obligations.ConditionsAfterSubCompare : Prop :=
  ∀ (w : Width) (reg1 reg2 : RegNum) (s t : State), exec (.subReg1ToReg2 w reg1 reg2) s = .next t →
    (t.flags.cond .b = true ↔ (s.reg w reg2).toNat < (s.reg w reg1).toNat) ∧
    (t.flags.cond .be = true ↔ (s.reg w reg2).toNat ≤ (s.reg w reg1).toNat) ∧
    (t.flags.cond .e = true ↔ s.reg w reg2 = s.reg w reg1) ∧
    (t.flags.cond .l = true ↔ (s.reg w reg2).toInt < (s.reg w reg1).toInt) ∧
    (t.flags.cond .le = true ↔ (s.reg w reg2).toInt ≤ (s.reg w reg1).toInt)

/-- After ADD, CF says that the unsigned sum and OF that the signed sum does not fit in n bits (R150). -/
def Obligations.CarryAndOverflowAfterAdd : Prop :=
  ∀ (w : Width) (reg1 reg2 : RegNum) (s t : State), exec (.addReg1ToReg2 w reg1 reg2) s = .next t →
    (t.flags.cf = true ↔ (t.reg w reg2).toNat ≠ (s.reg w reg2).toNat + (s.reg w reg1).toNat) ∧
    (t.flags.ovf = true ↔ (t.reg w reg2).toInt ≠ (s.reg w reg2).toInt + (s.reg w reg1).toInt)

/-! ## ADD and SUB -/

/-- ADD register1 to register2, register2 to register1 (R152, R153): encoding, result and flags. -/
def Obligations.AddBetweenRegisters : Prop :=
  ∀ (w : Width) (reg1 reg2 : RegNum) (s : State),
    encode (.addReg1ToReg2 w reg1 reg2) = [0b0000000#7 ++ w.bit, 0b11#2 ++ reg1 ++ reg2] ∧
    encode (.addReg2ToReg1 w reg1 reg2) = [0b0000001#7 ++ w.bit, 0b11#2 ++ reg1 ++ reg2] ∧
    (Continues s 2 →
      (∃ r g, IsSum (s.reg w reg2) (s.reg w reg1) s.flags r g ∧
        exec (.addReg1ToReg2 w reg1 reg2) s =
          .next { s.setReg w reg2 r with flags := g, pc := pcAfter s 2 }) ∧
      (∃ r g, IsSum (s.reg w reg1) (s.reg w reg2) s.flags r g ∧
        exec (.addReg2ToReg1 w reg1 reg2) s =
          .next { s.setReg w reg1 r with flags := g, pc := pcAfter s 2 }))

/-- SUB register1 to register2, register2 to register1 (R170, R171): destination - source. -/
def Obligations.SubBetweenRegisters : Prop :=
  ∀ (w : Width) (reg1 reg2 : RegNum) (s : State),
    encode (.subReg1ToReg2 w reg1 reg2) = [0b0010100#7 ++ w.bit, 0b11#2 ++ reg1 ++ reg2] ∧
    encode (.subReg2ToReg1 w reg1 reg2) = [0b0010101#7 ++ w.bit, 0b11#2 ++ reg1 ++ reg2] ∧
    (Continues s 2 →
      (∃ r g, IsDifference (s.reg w reg2) (s.reg w reg1) s.flags r g ∧
        exec (.subReg1ToReg2 w reg1 reg2) s =
          .next { s.setReg w reg2 r with flags := g, pc := pcAfter s 2 }) ∧
      (∃ r g, IsDifference (s.reg w reg1) (s.reg w reg2) s.flags r g ∧
        exec (.subReg2ToReg1 w reg1 reg2) s =
          .next { s.setReg w reg1 r with flags := g, pc := pcAfter s 2 }))

/-- ADD and SUB memory to register (R154, R172): the address is taken before the register changes; where the operand
cannot be read the outcome is that read's model fault (the address it reports for a word is log 9), and where it can but
`next` exceeds FFFFh it is `SegLimit` on CS (R24). -/
def Obligations.AddSubMemoryToRegister : Prop :=
  ∀ (w : Width) (reg : RegNum) (m : Mem) (s : State),
    encode (.addMemToReg w reg m) = (0b0000001#7 ++ w.bit) :: modRMMem reg m ∧
    encode (.subMemToReg w reg m) = (0b0010101#7 ++ w.bit) :: modRMMem reg m ∧
    (¬ Readable s (eaSeg m) (s.ea m) w →
      exec (.addMemToReg w reg m) s = .fault (readFault s (eaSeg m) (s.ea m) w) ∧
        exec (.subMemToReg w reg m) s = .fault (readFault s (eaSeg m) (s.ea m) w)) ∧
    (Readable s (eaSeg m) (s.ea m) w → Continues s (2 + m.dispLength) →
      (∃ r g, IsSum (s.reg w reg) (Memory.readValue s.mem (eaAddr s m) w) s.flags r g ∧
        exec (.addMemToReg w reg m) s =
          .next { s.setReg w reg r with flags := g, pc := pcAfter s (2 + m.dispLength) }) ∧
      (∃ r g, IsDifference (s.reg w reg) (Memory.readValue s.mem (eaAddr s m) w) s.flags r g ∧
        exec (.subMemToReg w reg m) s =
          .next { s.setReg w reg r with flags := g, pc := pcAfter s (2 + m.dispLength) })) ∧
    (Readable s (eaSeg m) (s.ea m) w → ¬ Continues s (2 + m.dispLength) →
      EndsPastSegment (exec (.addMemToReg w reg m) s) ∧ EndsPastSegment (exec (.subMemToReg w reg m) s))

/-- ADD and SUB register to memory (R155, R173): one read, one write of the same bytes; where the operand cannot be read and
written the outcome is that access's model fault (the address it reports for a word is log 9), and where it can but `next`
exceeds FFFFh it is `SegLimit` on CS (R24). -/
def Obligations.AddSubRegisterToMemory : Prop :=
  ∀ (w : Width) (reg : RegNum) (m : Mem) (s : State),
    encode (.addRegToMem w reg m) = (0b0000000#7 ++ w.bit) :: modRMMem reg m ∧
    encode (.subRegToMem w reg m) = (0b0010100#7 ++ w.bit) :: modRMMem reg m ∧
    (¬ Writable s (eaSeg m) (s.ea m) w →
      exec (.addRegToMem w reg m) s = .fault (writeFault s (eaSeg m) (s.ea m) w) ∧
        exec (.subRegToMem w reg m) s = .fault (writeFault s (eaSeg m) (s.ea m) w)) ∧
    (Writable s (eaSeg m) (s.ea m) w → Continues s (2 + m.dispLength) →
      (∃ r g, IsSum (Memory.readValue s.mem (eaAddr s m) w) (s.reg w reg) s.flags r g ∧
        exec (.addRegToMem w reg m) s =
          .next { s with mem := Memory.writeValue s.mem (eaAddr s m) w r, flags := g,
                         pc := pcAfter s (2 + m.dispLength) }) ∧
      (∃ r g, IsDifference (Memory.readValue s.mem (eaAddr s m) w) (s.reg w reg) s.flags r g ∧
        exec (.subRegToMem w reg m) s =
          .next { s with mem := Memory.writeValue s.mem (eaAddr s m) w r, flags := g,
                         pc := pcAfter s (2 + m.dispLength) })) ∧
    (Writable s (eaSeg m) (s.ea m) w → ¬ Continues s (2 + m.dispLength) →
      EndsPastSegment (exec (.addRegToMem w reg m) s) ∧ EndsPastSegment (exec (.subRegToMem w reg m) s))

/-- The four s, w combinations of `1000 00sw` as width and operand (R89): a byte for 80h and 82h, a word for 81h, a
sign-extended byte for 83h. -/
def immOperand : ImmSW → (Σ w : Width, BitVec w.bits)
  | .byte _ v => ⟨.byte, v⟩
  | .word v => ⟨.word, v⟩
  | .sext v => ⟨.word, BitVec.ofInt 16 v.toInt⟩

/-- The s and w bits of an opcode `1000 00sw` (R89). -/
def swBits : ImmSW → BitVec 2
  | .byte false _ => 0b00
  | .word _ => 0b01
  | .byte true _ => 0b10
  | .sext _ => 0b11

/-- The immediate of a pattern without an s bit as width and operand (R95). -/
def plainOperand : Imm → (Σ w : Width, BitVec w.bits)
  | .byte v => ⟨.byte, v⟩
  | .word v => ⟨.word, v⟩

/-- ADD and SUB immediate to register (R89, R156, R174): 80h and 82h a byte, 81h a word, 83h a sign-extended byte. -/
def Obligations.AddSubImmediateToRegister : Prop :=
  ∀ (imm : ImmSW) (reg : RegNum) (s : State),
    encode (.addImmToReg imm reg) = [0b100000#6 ++ swBits imm, 0b11000#5 ++ reg] ++ imm.bytes ∧
    encode (.subImmToReg imm reg) = [0b100000#6 ++ swBits imm, 0b11101#5 ++ reg] ++ imm.bytes ∧
    (Continues s (2 + imm.length) →
      (∃ r g, IsSum (s.reg (immOperand imm).1 reg) (immOperand imm).2 s.flags r g ∧
        exec (.addImmToReg imm reg) s =
          .next { s.setReg (immOperand imm).1 reg r with flags := g, pc := pcAfter s (2 + imm.length) }) ∧
      (∃ r g, IsDifference (s.reg (immOperand imm).1 reg) (immOperand imm).2 s.flags r g ∧
        exec (.subImmToReg imm reg) s =
          .next { s.setReg (immOperand imm).1 reg r with flags := g, pc := pcAfter s (2 + imm.length) }))

/-- ADD and SUB immediate to AL, AX (R157, R175). -/
def Obligations.AddSubImmediateToAccumulator : Prop :=
  ∀ (imm : Imm) (s : State),
    encode (.addImmToAcc imm) = (0b0000010#7 ++ (plainOperand imm).1.bit) :: imm.bytes ∧
    encode (.subImmToAcc imm) = (0b0010110#7 ++ (plainOperand imm).1.bit) :: imm.bytes ∧
    (Continues s (1 + imm.length) →
      (∃ r g, IsSum (s.reg (plainOperand imm).1 0) (plainOperand imm).2 s.flags r g ∧
        exec (.addImmToAcc imm) s =
          .next { s.setReg (plainOperand imm).1 0 r with flags := g, pc := pcAfter s (1 + imm.length) }) ∧
      (∃ r g, IsDifference (s.reg (plainOperand imm).1 0) (plainOperand imm).2 s.flags r g ∧
        exec (.subImmToAcc imm) s =
          .next { s.setReg (plainOperand imm).1 0 r with flags := g, pc := pcAfter s (1 + imm.length) }))

/-- ADD and SUB immediate to memory (R158, R176, R89): the displacement bytes come before the immediate; where the operand
cannot be read and written the outcome is that access's model fault (the address it reports for a word is log 9), and where it
can but `next` exceeds FFFFh it is `SegLimit` on CS (R24). -/
def Obligations.AddSubImmediateToMemory : Prop :=
  ∀ (imm : ImmSW) (m : Mem) (s : State),
    encode (.addImmToMem imm m) = (0b100000#6 ++ swBits imm) :: modRMMem 0b000 m ++ imm.bytes ∧
    encode (.subImmToMem imm m) = (0b100000#6 ++ swBits imm) :: modRMMem 0b101 m ++ imm.bytes ∧
    (¬ Writable s (eaSeg m) (s.ea m) (immOperand imm).1 →
      exec (.addImmToMem imm m) s = .fault (writeFault s (eaSeg m) (s.ea m) (immOperand imm).1) ∧
        exec (.subImmToMem imm m) s = .fault (writeFault s (eaSeg m) (s.ea m) (immOperand imm).1)) ∧
    (Writable s (eaSeg m) (s.ea m) (immOperand imm).1 → Continues s (2 + m.dispLength + imm.length) →
      (∃ r g, IsSum (Memory.readValue s.mem (eaAddr s m) (immOperand imm).1) (immOperand imm).2 s.flags r g ∧
        exec (.addImmToMem imm m) s =
          .next { s with mem := Memory.writeValue s.mem (eaAddr s m) (immOperand imm).1 r, flags := g,
                         pc := pcAfter s (2 + m.dispLength + imm.length) }) ∧
      (∃ r g, IsDifference (Memory.readValue s.mem (eaAddr s m) (immOperand imm).1) (immOperand imm).2 s.flags r g ∧
        exec (.subImmToMem imm m) s =
          .next { s with mem := Memory.writeValue s.mem (eaAddr s m) (immOperand imm).1 r, flags := g,
                         pc := pcAfter s (2 + m.dispLength + imm.length) })) ∧
    (Writable s (eaSeg m) (s.ea m) (immOperand imm).1 → ¬ Continues s (2 + m.dispLength + imm.length) →
      EndsPastSegment (exec (.addImmToMem imm m) s) ∧ EndsPastSegment (exec (.subImmToMem imm m) s))

/-! ## INC and DEC -/

/-- INC and DEC register, both encodings (R161, R162, R167, R168): CF is kept. -/
def Obligations.IncDecRegister : Prop :=
  (∀ (w : Width) (reg : RegNum) (s : State),
    encode (.incReg w reg) = [0b1111111#7 ++ w.bit, 0b11000#5 ++ reg] ∧
    encode (.decReg w reg) = [0b1111111#7 ++ w.bit, 0b11001#5 ++ reg] ∧
    (Continues s 2 →
      (∃ r g, IsIncrement (s.reg w reg) s.flags r g ∧
        exec (.incReg w reg) s = .next { s.setReg w reg r with flags := g, pc := pcAfter s 2 }) ∧
      (∃ r g, IsDecrement (s.reg w reg) s.flags r g ∧
        exec (.decReg w reg) s = .next { s.setReg w reg r with flags := g, pc := pcAfter s 2 }))) ∧
  (∀ (reg : RegNum) (s : State),
    encode (.incRegAlt reg) = [0b01000#5 ++ reg] ∧ encode (.decRegAlt reg) = [0b01001#5 ++ reg] ∧
    (Continues s 1 →
      (∃ r g, IsIncrement (s.reg .word reg) s.flags r g ∧
        exec (.incRegAlt reg) s = .next { s.setReg .word reg r with flags := g, pc := pcAfter s 1 }) ∧
      (∃ r g, IsDecrement (s.reg .word reg) s.flags r g ∧
        exec (.decRegAlt reg) s = .next { s.setReg .word reg r with flags := g, pc := pcAfter s 1 })))

/-- INC and DEC memory (R163, R169): CF is kept; where the operand cannot be read and written the outcome is that access's
model fault (the address it reports for a word is log 9), and where it can but `next` exceeds FFFFh it is `SegLimit` on CS
(R24). -/
def Obligations.IncDecMemory : Prop :=
  ∀ (w : Width) (m : Mem) (s : State),
    encode (.incMem w m) = (0b1111111#7 ++ w.bit) :: modRMMem 0b000 m ∧
    encode (.decMem w m) = (0b1111111#7 ++ w.bit) :: modRMMem 0b001 m ∧
    (¬ Writable s (eaSeg m) (s.ea m) w →
      exec (.incMem w m) s = .fault (writeFault s (eaSeg m) (s.ea m) w) ∧
        exec (.decMem w m) s = .fault (writeFault s (eaSeg m) (s.ea m) w)) ∧
    (Writable s (eaSeg m) (s.ea m) w → Continues s (2 + m.dispLength) →
      (∃ r g, IsIncrement (Memory.readValue s.mem (eaAddr s m) w) s.flags r g ∧
        exec (.incMem w m) s =
          .next { s with mem := Memory.writeValue s.mem (eaAddr s m) w r, flags := g,
                         pc := pcAfter s (2 + m.dispLength) }) ∧
      (∃ r g, IsDecrement (Memory.readValue s.mem (eaAddr s m) w) s.flags r g ∧
        exec (.decMem w m) s =
          .next { s with mem := Memory.writeValue s.mem (eaAddr s m) w r, flags := g,
                         pc := pcAfter s (2 + m.dispLength) })) ∧
    (Writable s (eaSeg m) (s.ea m) w → ¬ Continues s (2 + m.dispLength) →
      EndsPastSegment (exec (.incMem w m) s) ∧ EndsPastSegment (exec (.decMem w m) s))

/-! ## DAA, DAS -/

/-- DAA (R159): AL, AF, CF and SF ZF PF by the algorithm, OF free, AH and all else kept. -/
def Obligations.DaaAdjustsAl : Prop :=
  encode .daa = [0x27] ∧
  ∀ (s : State), Continues s 1 →
    ∃ (al : Byte) (g : Flags),
      exec .daa s = .next { s.setReg .byte 0 al with flags := g, pc := pcAfter s 1, draws := s.draws + 1 } ∧
      (g.af = true ↔ 9 < (s.reg .byte 0).toNat % 16 ∨ s.flags.af = true) ∧
      (g.cf = true ↔ 0x99 < (s.reg .byte 0).toNat ∨ s.flags.cf = true) ∧
      al.toNat = ((s.reg .byte 0).toNat + (if g.af then 6 else 0) + (if g.cf then 0x60 else 0)) % 256 ∧
      SzpOf al g ∧ OnlyStatusFlags s.flags g

/-- DAS (R160): AL, AF, CF and SF ZF PF by the algorithm, OF free, AH and all else kept. -/
def Obligations.DasAdjustsAl : Prop :=
  encode .das = [0x2F] ∧
  ∀ (s : State), Continues s 1 →
    ∃ (al : Byte) (g : Flags),
      exec .das s = .next { s.setReg .byte 0 al with flags := g, pc := pcAfter s 1, draws := s.draws + 1 } ∧
      (g.af = true ↔ 9 < (s.reg .byte 0).toNat % 16 ∨ s.flags.af = true) ∧
      (g.cf = true ↔ (0x99 < (s.reg .byte 0).toNat ∨ s.flags.cf = true) ∨
        (g.af = true ∧ (s.reg .byte 0).toNat < 6)) ∧
      (al.toNat : Int) = ((s.reg .byte 0).toNat - (if g.af then 6 else 0) -
        (if 0x99 < (s.reg .byte 0).toNat ∨ s.flags.cf = true then 0x60 else 0)) % 256 ∧
      SzpOf al g ∧ OnlyStatusFlags s.flags g

/-- DAA after ADD, and DAS after SUB, of packed-BCD bytes gives the packed-BCD sum or difference modulo 100, with CF
the decimal carry or borrow (what "Decimal Adjust AL after Addition" and "after Subtraction" say; R150, R157, R159,
R160, R175). -/
def Obligations.DecimalAdjustGivesBcd : Prop :=
  ∀ (b : Byte) (s t u : State), IsBcd (s.reg .byte 0) → IsBcd b →
    (exec (.addImmToAcc (.byte b)) s = .next t → exec .daa t = .next u →
      IsBcd (u.reg .byte 0) ∧ bcdValue (u.reg .byte 0) = (bcdValue (s.reg .byte 0) + bcdValue b) % 100 ∧
      (u.flags.cf = true ↔ 100 ≤ bcdValue (s.reg .byte 0) + bcdValue b)) ∧
    (exec (.subImmToAcc (.byte b)) s = .next t → exec .das t = .next u →
      IsBcd (u.reg .byte 0) ∧ bcdValue (u.reg .byte 0) = (bcdValue (s.reg .byte 0) + 100 - bcdValue b) % 100 ∧
      (u.flags.cf = true ↔ bcdValue (s.reg .byte 0) < bcdValue b))

/-! ## DIV -/

/-- The dividend of DIV as a number (R164): AX, or DX and AX with DX high. -/
def dividendNumber (s : State) : Width → Nat
  | .byte => (s.reg .word 0).toNat
  | .word => (s.reg .word 2).toNat * 0x10000 + (s.reg .word 0).toNat

/-- `t` is `s` after a division by `d` that completes (R164): quotient in AL or AX, remainder in AH or DX with
num = q * d + rem and rem < d, the six status flags free, all else kept. -/
def DividedBy (s : State) (w : Width) (d : BitVec w.bits) (len : Nat) (t : State) : Prop :=
  ∃ (q rem : BitVec w.bits) (g : Flags),
    dividendNumber s w = q.toNat * d.toNat + rem.toNat ∧ rem.toNat < d.toNat ∧ OnlyStatusFlags s.flags g ∧
    t = { (s.setReg w 0 q).setReg w (match w with | .byte => 4 | .word => 2) rem with
          flags := g, pc := pcAfter s len, draws := s.draws + 6 }

/-- DIV by register and by memory, where the divisor is not 0 and the quotient fits in n bits (R164 to R166); where a
memory divisor cannot be read the outcome is that read's model fault (the address it reports for a word is log 9), and where
the division fits but `next` exceeds FFFFh it is `SegLimit` on CS (R24, R226). The six status flags are free
values, and `draws` counts the values used (log 8). -/
def Obligations.DivCompletes : Prop :=
  ∀ (w : Width) (s : State),
    (∀ reg : RegNum, encode (.divReg w reg) = [0b1111011#7 ++ w.bit, 0b11110#5 ++ reg] ∧
      (s.reg w reg ≠ 0 → dividendNumber s w / (s.reg w reg).toNat ≤ 2 ^ w.bits - 1 → Continues s 2 →
        ∃ t, exec (.divReg w reg) s = .next t ∧ DividedBy s w (s.reg w reg) 2 t) ∧
      (s.reg w reg ≠ 0 → dividendNumber s w / (s.reg w reg).toNat ≤ 2 ^ w.bits - 1 → ¬ Continues s 2 →
        EndsPastSegment (exec (.divReg w reg) s))) ∧
    (∀ m : Mem, encode (.divMem w m) = (0b1111011#7 ++ w.bit) :: modRMMem 0b110 m ∧
      (¬ Readable s (eaSeg m) (s.ea m) w → exec (.divMem w m) s = .fault (readFault s (eaSeg m) (s.ea m) w)) ∧
      (Readable s (eaSeg m) (s.ea m) w → Memory.readValue s.mem (eaAddr s m) w ≠ 0 →
        dividendNumber s w / (Memory.readValue s.mem (eaAddr s m) w).toNat ≤ 2 ^ w.bits - 1 →
        Continues s (2 + m.dispLength) →
        ∃ t, exec (.divMem w m) s = .next t ∧
          DividedBy s w (Memory.readValue s.mem (eaAddr s m) w) (2 + m.dispLength) t) ∧
      (Readable s (eaSeg m) (s.ea m) w → Memory.readValue s.mem (eaAddr s m) w ≠ 0 →
        dividendNumber s w / (Memory.readValue s.mem (eaAddr s m) w).toNat ≤ 2 ^ w.bits - 1 →
        ¬ Continues s (2 + m.dispLength) → EndsPastSegment (exec (.divMem w m) s)))

/-! ## Interrupt entry -/

/-- `t` is `s` after entering vector n with return offset `ret` (R221): SP down by 6; FLAGS as before entry, with each flag
at its bit position (R25), CS and the return offset stored as words at the new SP + 4, + 2, + 0 of SS; IF and TF cleared
and no other flag; CS:IP the table entry as it reads after the pushes; the other general registers, SS DS ES FS GS, the
ports, and every byte outside the three words as before. -/
def Entered (s : State) (n : Byte) (ret : Word) (t : State) : Prop :=
  t.reg .word spReg = s.reg .word spReg - 6 ∧ OnlyRegister .word spReg s t ∧
  Memory.readValue t.mem (physAddr s.ss (s.reg .word spReg - 2).toNat) .word = s.flags.toWord ∧
  IsFlagsWord s.flags s.flags.toWord ∧
  Memory.readValue t.mem (physAddr s.ss (s.reg .word spReg - 4).toNat) .word = s.cs ∧
  Memory.readValue t.mem (physAddr s.ss (s.reg .word spReg - 6).toNat) .word = ret ∧
  (∀ a, (∀ j ∈ [2, 4, 6], ∀ k < 2, a ≠ physAddr s.ss (s.reg .word spReg - BitVec.ofNat 16 j).toNat + k) →
    Memory.read t.mem a = Memory.read s.mem a) ∧
  t.flags = { s.flags with intf := false, tf := false } ∧
  t.pc = Memory.readValue t.mem (4 * n.toNat) .word ∧ t.cs = Memory.readValue t.mem (4 * n.toNat + 2) .word ∧
  SameSegmentsAndLaunch s t ∧ SamePorts s t ∧ t.draws = s.draws

/-- INT n and INT 3 enter their vector with the next instruction's offset modulo 2^16 (R183, R184, R221); where the stack
has no room or the table entry is not mapped the whole instruction is a fault. -/
def Obligations.SoftwareInterruptsEnter : Prop :=
  (∀ n : Byte, encode (.intN n) = [0b11001101, n]) ∧ encode .int3 = [0b11001100] ∧
  ∀ s : State,
    (Memory.wf s.mem = true → StackRoom s →
      (∀ n : Byte, VectorMapped s n → ∃ t, exec (.intN n) s = .next t ∧ Entered s n (pcAfter s 2) t) ∧
      (VectorMapped s 3 → ∃ t, exec .int3 s = .next t ∧ Entered s 3 (pcAfter s 1) t)) ∧
    (∀ n : Byte, ¬ (StackRoom s ∧ VectorMapped s n) → ∃ f, exec (.intN n) s = .fault f) ∧
    (¬ (StackRoom s ∧ VectorMapped s 3) → ∃ f, exec .int3 s = .fault f)

/-- DIV with divisor 0 or a quotient that does not fit enters vector 0 with its own offset, AX, DX and the flags
pushed as before the DIV (R164, R223), or is a fault where the entry cannot be made (R221). -/
def Obligations.DivideErrorEntersVectorZero : Prop :=
  ∀ (w : Width) (s : State),
    (∀ reg : RegNum, s.reg w reg = 0 ∨ 2 ^ w.bits ≤ dividendNumber s w / (s.reg w reg).toNat →
      (Memory.wf s.mem = true → StackRoom s → VectorMapped s 0 →
        ∃ t, exec (.divReg w reg) s = .next t ∧ Entered s 0 s.pc t) ∧
      (¬ (StackRoom s ∧ VectorMapped s 0) → ∃ f, exec (.divReg w reg) s = .fault f)) ∧
    (∀ m : Mem, Readable s (eaSeg m) (s.ea m) w →
      Memory.readValue s.mem (eaAddr s m) w = 0 ∨
        2 ^ w.bits ≤ dividendNumber s w / (Memory.readValue s.mem (eaAddr s m) w).toNat →
      (Memory.wf s.mem = true → StackRoom s → VectorMapped s 0 →
        ∃ t, exec (.divMem w m) s = .next t ∧ Entered s 0 s.pc t) ∧
      (¬ (StackRoom s ∧ VectorMapped s 0) → ∃ f, exec (.divMem w m) s = .fault f))

/-! ## IN and INS -/

/-- IN, fixed and variable port (R180, R181): AL or AX gets the oracle's answer for the zero-extended port byte or for DX,
no flag and nothing else changes. The answer is the launch's next one or, where it wrote none out, unconstrained; the
list of answers and the count are the model's (R65; log 7). -/
def Obligations.InReadsPort : Prop :=
  ∀ (w : Width) (s : State),
    (∀ port : Byte, encode (.inFixed w port) = [0b1110010#7 ++ w.bit, port] ∧
      (Continues s 2 →
        exec (.inFixed w port) s =
          .next { s.setReg w 0 (s.portValue (BitVec.ofNat 16 port.toNat) w) with
                  pc := pcAfter s 2, portAnswers := s.portAnswers.tail, portReads := s.portReads + 1 })) ∧
    encode (.inVariable w) = [0b1110110#7 ++ w.bit] ∧
    (Continues s 1 →
      exec (.inVariable w) s =
        .next { s.setReg w 0 (s.portValue (s.reg .word 2) w) with
                pc := pcAfter s 1, portAnswers := s.portAnswers.tail, portReads := s.portReads + 1 })

/-- INS (R182): the answer of port DX is stored at ES:DI, and DI steps by n/8 up when DF = 0, down when DF = 1,
modulo 2^16; where ES:DI cannot be written the outcome is that write's model fault (the address it reports for a word is log
9, `Unmapped` before `CodeWrite` is log 10), and where it can but `next` exceeds FFFFh it is `SegLimit` on CS (R24). The list
of answers and the count are the model's (log 7). -/
def Obligations.InsStoresPortAnswer : Prop :=
  ∀ (w : Width) (s : State),
    encode (.ins w) = [0b0110110#7 ++ w.bit] ∧
    (¬ Writable s .es (s.reg .word 7) w → exec (.ins w) s = .fault (writeFault s .es (s.reg .word 7) w)) ∧
    (Writable s .es (s.reg .word 7) w → Continues s 1 →
      ∃ di : Word,
        (di.toNat : Int) =
          ((s.reg .word 7).toNat + (if s.flags.df then -(w.bytes : Int) else (w.bytes : Int))) % 0x10000 ∧
        exec (.ins w) s =
          .next { s.setReg .word 7 di with
                  mem := Memory.writeValue s.mem (s.es.toNat * 16 + (s.reg .word 7).toNat) w
                    (s.portValue (s.reg .word 2) w)
                  pc := pcAfter s 1, portAnswers := s.portAnswers.tail, portReads := s.portReads + 1 }) ∧
    (Writable s .es (s.reg .word 7) w → ¬ Continues s 1 → EndsPastSegment (exec (.ins w) s))

/-! ## Jumps -/

/-- A relative target as a number: (`next` + rel) mod 2^16 (R141). -/
def TargetIs (s : State) (len : Nat) (rel : Int) (pc : Word) : Prop :=
  (pc.toNat : Int) = ((s.pc.toNat : Int) + len + rel) % 0x10000

/-- Jcc, 8-bit and full displacement, for each of the sixteen conditions (R131, R132, R141): taken to the target when
the flag test holds, on to `next` when it does not (`SegLimit` past FFFFh, R24); only IP changes. `Instr.jccShort` and
`Instr.jccFull` give the sixteen constructors each: joShort to jnleShort, joFull to jnleFull. -/
def Obligations.ConditionalJumps : Prop :=
  ∀ (c : Cond) (s : State),
    (∀ d : Byte,
      encode (Instr.jccShort c d) = [0b0111#4 ++ c.field, d] ∧
      (s.flags.cond c = true →
        ∃ pc, TargetIs s 2 d.toInt pc ∧ exec (Instr.jccShort c d) s = .next { s with pc := pc }) ∧
      (s.flags.cond c = false → Continues s 2 →
        exec (Instr.jccShort c d) s = .next { s with pc := pcAfter s 2 }) ∧
      (s.flags.cond c = false → ¬ Continues s 2 → EndsPastSegment (exec (Instr.jccShort c d) s))) ∧
    (∀ d : Word,
      encode (Instr.jccFull c d) = [0x0F, 0b1000#4 ++ c.field, d.extractLsb' 0 8, d.extractLsb' 8 8] ∧
      (s.flags.cond c = true →
        ∃ pc, TargetIs s 4 d.toNat pc ∧ exec (Instr.jccFull c d) s = .next { s with pc := pc }) ∧
      (s.flags.cond c = false → Continues s 4 →
        exec (Instr.jccFull c d) s = .next { s with pc := pcAfter s 4 }) ∧
      (s.flags.cond c = false → ¬ Continues s 4 → EndsPastSegment (exec (Instr.jccFull c d) s)))

/-- JMP short and direct (R133, R134, R141): always taken, only IP changes, no limit check. -/
def Obligations.RelativeJumps : Prop :=
  ∀ s : State,
    (∀ d : Byte, encode (.jmpShort d) = [0xEB, d] ∧
      ∃ pc, TargetIs s 2 d.toInt pc ∧ exec (.jmpShort d) s = .next { s with pc := pc }) ∧
    (∀ d : Word, encode (.jmpDirect d) = [0xE9, d.extractLsb' 0 8, d.extractLsb' 8 8] ∧
      ∃ pc, TargetIs s 3 d.toNat pc ∧ exec (.jmpDirect d) s = .next { s with pc := pc })

/-- JMP register indirect and memory indirect (R135, R136): IP is the register's or the word's value itself; where the
word cannot be read the outcome is that read's model fault (the address it reports is log 9). -/
def Obligations.IndirectJumps : Prop :=
  ∀ s : State,
    (∀ reg : RegNum, encode (.jmpReg reg) = [0b11111111, 0b11100#5 ++ reg] ∧
      exec (.jmpReg reg) s = .next { s with pc := s.reg .word reg }) ∧
    (∀ m : Mem, encode (.jmpMem m) = 0b11111111 :: modRMMem 0b100 m ∧
      (¬ Readable s (eaSeg m) (s.ea m) .word → exec (.jmpMem m) s = .fault (readFault s (eaSeg m) (s.ea m) .word)) ∧
      (Readable s (eaSeg m) (s.ea m) .word →
        exec (.jmpMem m) s = .next { s with pc := Memory.readValue s.mem (eaAddr s m) .word }))

/-- JMP to another segment (R137, R138): direct, CS:IP from the instruction; indirect, IP from the word at EA and CS from
the word above it; EA above FFFCh is `SegLimit`; below, a word that is not all mapped is `Unmapped` of its address, also where
only its second byte is missing (log 9); with mod = 11 there is
no such instruction. -/
def Obligations.FarJumps : Prop :=
  ∀ s : State,
    (∀ off sel : Word,
      encode (.jmpFar off sel) = [0b11101010, off.extractLsb' 0 8, off.extractLsb' 8 8,
        sel.extractLsb' 0 8, sel.extractLsb' 8 8] ∧
      exec (.jmpFar off sel) s = .next { s with cs := sel, pc := off }) ∧
    (∀ m : Mem, encode (.jmpFarMem m) = 0b11111111 :: modRMMem 0b101 m ∧
      (0xFFFC < (s.ea m).toNat → exec (.jmpFarMem m) s = .fault (.segLimit (eaSeg m) (s.ea m).toNat)) ∧
      ((s.ea m).toNat ≤ 0xFFFC → ¬ (∀ k < 2, s.mapped (eaAddr s m + k) = true) →
        exec (.jmpFarMem m) s = .fault (.unmapped (eaAddr s m))) ∧
      ((s.ea m).toNat ≤ 0xFFFC → (∀ k < 2, s.mapped (eaAddr s m + k) = true) →
        ¬ (∀ k < 2, s.mapped (eaAddr s m + 2 + k) = true) →
        exec (.jmpFarMem m) s = .fault (.unmapped (eaAddr s m + 2))) ∧
      ((s.ea m).toNat ≤ 0xFFFC → (∀ k < 4, s.mapped (eaAddr s m + k) = true) →
        exec (.jmpFarMem m) s =
          .next { s with cs := Memory.readValue s.mem (eaAddr s m + 2) .word,
                         pc := Memory.readValue s.mem (eaAddr s m) .word })) ∧
    (∀ (reg : RegNum) (rest : List Byte), decode (0b11111111 :: (0b11101#5 ++ reg) :: rest) = .unlisted rest)

/-- JCXZ (R139): taken when CX = 0, else on to `next` (`SegLimit` past FFFFh, R24); CX and the flags are not
changed. -/
def Obligations.JcxzJumpsOnZero : Prop :=
  ∀ (d : Byte) (s : State),
    encode (.jcxz d) = [0xE3, d] ∧
    (s.reg .word 1 = 0 → ∃ pc, TargetIs s 2 d.toInt pc ∧ exec (.jcxz d) s = .next { s with pc := pc }) ∧
    (s.reg .word 1 ≠ 0 → Continues s 2 → exec (.jcxz d) s = .next { s with pc := pcAfter s 2 }) ∧
    (s.reg .word 1 ≠ 0 → ¬ Continues s 2 → EndsPastSegment (exec (.jcxz d) s))

/-- LOOP (R140): CX goes down by 1 modulo 2^16 with no flag written; taken when it is then not zero, else
on to `next` (`SegLimit` past FFFFh, R24). -/
def Obligations.LoopDecrementsCx : Prop :=
  ∀ (d : Byte) (s : State),
    encode (.loop d) = [0xE2, d] ∧
    ∃ cx : Word, (cx.toNat : Int) = ((s.reg .word 1).toNat - 1 : Int) % 0x10000 ∧
      (cx ≠ 0 → ∃ pc, TargetIs s 2 d.toInt pc ∧
        exec (.loop d) s = .next { s.setReg .word 1 cx with pc := pc }) ∧
      (cx = 0 → Continues s 2 → exec (.loop d) s = .next { s.setReg .word 1 cx with pc := pcAfter s 2 }) ∧
      (cx = 0 → ¬ Continues s 2 → EndsPastSegment (exec (.loop d) s))

/-! ## MOV, NOP, NOT, OR -/

/-- MOV register and immediate to register, all encodings (R190, R191, R194, R195): no flag changes; `1100 011w`
with bits 5..3 of the second byte other than 000 is no instruction. -/
def Obligations.MovToRegister : Prop :=
  ∀ s : State,
    (∀ (w : Width) (reg1 reg2 : RegNum),
      encode (.movReg1ToReg2 w reg1 reg2) = [0b1000100#7 ++ w.bit, 0b11#2 ++ reg1 ++ reg2] ∧
      encode (.movReg2ToReg1 w reg1 reg2) = [0b1000101#7 ++ w.bit, 0b11#2 ++ reg1 ++ reg2] ∧
      (Continues s 2 →
        exec (.movReg1ToReg2 w reg1 reg2) s = .next { s.setReg w reg2 (s.reg w reg1) with pc := pcAfter s 2 } ∧
        exec (.movReg2ToReg1 w reg1 reg2) s = .next { s.setReg w reg1 (s.reg w reg2) with pc := pcAfter s 2 })) ∧
    (∀ (imm : Imm) (reg : RegNum),
      encode (.movImmToReg imm reg) = [0b1100011#7 ++ (plainOperand imm).1.bit, 0b11000#5 ++ reg] ++ imm.bytes ∧
      encode (.movImmToRegAlt imm reg) = (0b1011#4 ++ (plainOperand imm).1.bit ++ reg) :: imm.bytes ∧
      (Continues s (2 + imm.length) →
        exec (.movImmToReg imm reg) s =
          .next { s.setReg (plainOperand imm).1 reg (plainOperand imm).2 with pc := pcAfter s (2 + imm.length) }) ∧
      (Continues s (1 + imm.length) →
        exec (.movImmToRegAlt imm reg) s =
          .next { s.setReg (plainOperand imm).1 reg (plainOperand imm).2 with pc := pcAfter s (1 + imm.length) })) ∧
    (∀ (w : Width) (md : BitVec 2) (ext rm : BitVec 3) (rest : List Byte), ext ≠ 0 →
      decode ((0b1100011#7 ++ w.bit) :: (md ++ ext ++ rm) :: rest) = .unlisted rest)

/-- MOV memory to register and memory to AL, AX (R192, R197): the accumulator form reads DS:offset; where the operand
cannot be read the outcome is that read's model fault (the address it reports for a word is log 9), and where it can but
`next` exceeds FFFFh it is `SegLimit` on CS (R24). -/
def Obligations.MovFromMemory : Prop :=
  ∀ (w : Width) (s : State),
    (∀ (reg : RegNum) (m : Mem), encode (.movMemToReg w reg m) = (0b1000101#7 ++ w.bit) :: modRMMem reg m ∧
      (¬ Readable s (eaSeg m) (s.ea m) w →
        exec (.movMemToReg w reg m) s = .fault (readFault s (eaSeg m) (s.ea m) w)) ∧
      (Readable s (eaSeg m) (s.ea m) w → Continues s (2 + m.dispLength) →
        exec (.movMemToReg w reg m) s =
          .next { s.setReg w reg (Memory.readValue s.mem (eaAddr s m) w) with pc := pcAfter s (2 + m.dispLength) }) ∧
      (Readable s (eaSeg m) (s.ea m) w → ¬ Continues s (2 + m.dispLength) →
        EndsPastSegment (exec (.movMemToReg w reg m) s))) ∧
    (∀ off : Word,
      encode (.movMemToAcc w off) = [0b1010000#7 ++ w.bit, off.extractLsb' 0 8, off.extractLsb' 8 8] ∧
      (¬ Readable s .ds off w → exec (.movMemToAcc w off) s = .fault (readFault s .ds off w)) ∧
      (Readable s .ds off w → Continues s 3 →
        exec (.movMemToAcc w off) s =
          .next { s.setReg w 0 (Memory.readValue s.mem (s.ds.toNat * 16 + off.toNat) w) with pc := pcAfter s 3 }) ∧
      (Readable s .ds off w → ¬ Continues s 3 → EndsPastSegment (exec (.movMemToAcc w off) s)))

/-- MOV register, immediate and AL, AX to memory (R193, R196, R198): the destination is not read, no flag changes; where it
cannot be written the outcome is that write's model fault (the address it reports for a word is log 9, `Unmapped` before
`CodeWrite` is log 10), and where it can but `next` exceeds FFFFh it is `SegLimit` on CS (R24). -/
def Obligations.MovToMemory : Prop :=
  ∀ s : State,
    (∀ (w : Width) (reg : RegNum) (m : Mem),
      encode (.movRegToMem w reg m) = (0b1000100#7 ++ w.bit) :: modRMMem reg m ∧
      (¬ Writable s (eaSeg m) (s.ea m) w →
        exec (.movRegToMem w reg m) s = .fault (writeFault s (eaSeg m) (s.ea m) w)) ∧
      (Writable s (eaSeg m) (s.ea m) w → Continues s (2 + m.dispLength) →
        exec (.movRegToMem w reg m) s =
          .next { s with mem := Memory.writeValue s.mem (eaAddr s m) w (s.reg w reg),
                         pc := pcAfter s (2 + m.dispLength) }) ∧
      (Writable s (eaSeg m) (s.ea m) w → ¬ Continues s (2 + m.dispLength) →
        EndsPastSegment (exec (.movRegToMem w reg m) s))) ∧
    (∀ (imm : Imm) (m : Mem),
      encode (.movImmToMem imm m) = (0b1100011#7 ++ (plainOperand imm).1.bit) :: modRMMem 0b000 m ++ imm.bytes ∧
      (¬ Writable s (eaSeg m) (s.ea m) (plainOperand imm).1 →
        exec (.movImmToMem imm m) s = .fault (writeFault s (eaSeg m) (s.ea m) (plainOperand imm).1)) ∧
      (Writable s (eaSeg m) (s.ea m) (plainOperand imm).1 → Continues s (2 + m.dispLength + imm.length) →
        exec (.movImmToMem imm m) s =
          .next { s with mem := Memory.writeValue s.mem (eaAddr s m) (plainOperand imm).1 (plainOperand imm).2,
                         pc := pcAfter s (2 + m.dispLength + imm.length) }) ∧
      (Writable s (eaSeg m) (s.ea m) (plainOperand imm).1 → ¬ Continues s (2 + m.dispLength + imm.length) →
        EndsPastSegment (exec (.movImmToMem imm m) s))) ∧
    (∀ (w : Width) (off : Word),
      encode (.movAccToMem w off) = [0b1010001#7 ++ w.bit, off.extractLsb' 0 8, off.extractLsb' 8 8] ∧
      (¬ Writable s .ds off w → exec (.movAccToMem w off) s = .fault (writeFault s .ds off w)) ∧
      (Writable s .ds off w → Continues s 3 →
        exec (.movAccToMem w off) s =
          .next { s with mem := Memory.writeValue s.mem (s.ds.toNat * 16 + off.toNat) w (s.reg w 0),
                         pc := pcAfter s 3 }) ∧
      (Writable s .ds off w → ¬ Continues s 3 → EndsPastSegment (exec (.movAccToMem w off) s)))

/-- NOP (R199): only IP changes, to `next`; where `next` would exceed FFFFh it is `SegLimit` (R24). -/
def Obligations.NopOnlyAdvances : Prop :=
  encode .nop = [0b10010000] ∧
  ∀ s : State,
    (Continues s 1 → exec .nop s = .next { s with pc := pcAfter s 1 }) ∧
    (¬ Continues s 1 → EndsPastSegment (exec .nop s))

/-- NOT register and memory (R200, R201): every bit inverted, no flag changes; where a memory operand cannot be read
and written the outcome is that access's model fault (the address it reports for a word is log 9), and where it can but
`next` exceeds FFFFh it is `SegLimit` on CS (R24). -/
def Obligations.NotInvertsBits : Prop :=
  ∀ (w : Width) (s : State),
    (∀ reg : RegNum, encode (.notReg w reg) = [0b1111011#7 ++ w.bit, 0b11010#5 ++ reg] ∧
      (Continues s 2 →
        ∃ r : BitVec w.bits, (∀ k < w.bits, r.getLsbD k = !(s.reg w reg).getLsbD k) ∧
          exec (.notReg w reg) s = .next { s.setReg w reg r with pc := pcAfter s 2 })) ∧
    (∀ m : Mem, encode (.notMem w m) = (0b1111011#7 ++ w.bit) :: modRMMem 0b010 m ∧
      (¬ Writable s (eaSeg m) (s.ea m) w → exec (.notMem w m) s = .fault (writeFault s (eaSeg m) (s.ea m) w)) ∧
      (Writable s (eaSeg m) (s.ea m) w → Continues s (2 + m.dispLength) →
        ∃ r : BitVec w.bits,
          (∀ k < w.bits, r.getLsbD k = !(Memory.readValue s.mem (eaAddr s m) w).getLsbD k) ∧
          exec (.notMem w m) s =
            .next { s with mem := Memory.writeValue s.mem (eaAddr s m) w r, pc := pcAfter s (2 + m.dispLength) }) ∧
      (Writable s (eaSeg m) (s.ea m) w → ¬ Continues s (2 + m.dispLength) → EndsPastSegment (exec (.notMem w m) s)))

/-- `r` and `g` are what OR gives from `a`, `b` and the flags `f` (R202): CF = OF = 0, SF ZF PF from the result, AF
free. -/
def IsOr {n : Nat} (a b : BitVec n) (f : Flags) (r : BitVec n) (g : Flags) : Prop :=
  (∀ k < n, r.getLsbD k = (a.getLsbD k || b.getLsbD k)) ∧ g.cf = false ∧ g.ovf = false ∧ SzpOf r g ∧
    OnlyStatusFlags f g

/-- OR register1 to register2, register2 to register1 (R202, R203). AF is a free value, and `draws` counts the values used
(log 8). -/
def Obligations.OrBetweenRegisters : Prop :=
  ∀ (w : Width) (reg1 reg2 : RegNum) (s : State),
    encode (.orReg1ToReg2 w reg1 reg2) = [0b0000100#7 ++ w.bit, 0b11#2 ++ reg1 ++ reg2] ∧
    encode (.orReg2ToReg1 w reg1 reg2) = [0b0000101#7 ++ w.bit, 0b11#2 ++ reg1 ++ reg2] ∧
    (Continues s 2 →
      (∃ r g, IsOr (s.reg w reg2) (s.reg w reg1) s.flags r g ∧
        exec (.orReg1ToReg2 w reg1 reg2) s =
          .next { s.setReg w reg2 r with flags := g, pc := pcAfter s 2, draws := s.draws + 1 }) ∧
      (∃ r g, IsOr (s.reg w reg1) (s.reg w reg2) s.flags r g ∧
        exec (.orReg2ToReg1 w reg1 reg2) s =
          .next { s.setReg w reg1 r with flags := g, pc := pcAfter s 2, draws := s.draws + 1 }))

/-! ## Where register forms stop -/

/-- The forms between registers, immediates, ports and AL: they touch no memory and are no transfer. -/
def isRegisterForm : Instr → Bool
  | .addReg1ToReg2 _ _ _ | .addReg2ToReg1 _ _ _ | .addImmToReg _ _ | .addImmToAcc _ => true
  | .subReg1ToReg2 _ _ _ | .subReg2ToReg1 _ _ _ | .subImmToReg _ _ | .subImmToAcc _ => true
  | .movReg1ToReg2 _ _ _ | .movReg2ToReg1 _ _ _ | .movImmToReg _ _ | .movImmToRegAlt _ _ => true
  | .orReg1ToReg2 _ _ _ | .orReg2ToReg1 _ _ _ | .notReg _ _ | .nop | .daa | .das => true
  | .incReg _ _ | .incRegAlt _ | .decReg _ _ | .decRegAlt _ | .inFixed _ _ | .inVariable _ => true
  | _ => false

/-- The register forms have no exception: they complete where `next` is at most FFFFh and stop with `SegLimit` on CS
where it is not (R24). -/
def Obligations.RegisterFormsStopOnlyAtSegmentEnd : Prop :=
  ∀ (i : Instr) (s : State), isRegisterForm i = true →
    (Continues s i.length → ∃ t, exec i s = .next t ∧ t.pc = pcAfter s i.length) ∧
    (¬ Continues s i.length → EndsPastSegment (exec i s))

/-! ## Frames -/

/-- The register a register form writes, with its width (R23): the destination of the two-operand forms, the operand
of the one-operand forms, AL or AX. NOP writes none. -/
def registerDest : Instr → Option (Width × RegNum)
  | .addReg1ToReg2 w _ r | .subReg1ToReg2 w _ r | .movReg1ToReg2 w _ r | .orReg1ToReg2 w _ r => some (w, r)
  | .addReg2ToReg1 w r _ | .subReg2ToReg1 w r _ | .movReg2ToReg1 w r _ | .orReg2ToReg1 w r _ => some (w, r)
  | .addMemToReg w r _ | .subMemToReg w r _ | .movMemToReg w r _ => some (w, r)
  | .addImmToReg imm r | .subImmToReg imm r => some ((immOperand imm).1, r)
  | .movImmToReg imm r | .movImmToRegAlt imm r => some ((plainOperand imm).1, r)
  | .addImmToAcc imm | .subImmToAcc imm => some ((plainOperand imm).1, 0)
  | .movMemToAcc w _ => some (w, 0)
  | .incReg w r | .decReg w r | .notReg w r => some (w, r)
  | .incRegAlt r | .decRegAlt r => some (.word, r)
  | .daa | .das => some (.byte, 0)
  | _ => none

/-- The frame of the forms that write one register and store nothing (ADD, SUB, MOV, OR, INC, DEC, NOT, DAA, DAS to a
register): no other register, no byte of memory, no segment register, no port, no flag but the six status flags. -/
def Obligations.RegisterDestinationFrame : Prop :=
  ∀ (i : Instr) (w : Width) (r : RegNum) (s t : State), registerDest i = some (w, r) → exec i s = .next t →
    OnlyRegister w r s t ∧ SameMemory s t ∧ SameSystem s t ∧ OnlyStatusFlags s.flags t.flags

/-- The memory operand a storing form stores to, with its width. -/
def storeDest : Instr → Option (Width × Mem)
  | .addRegToMem w _ m | .subRegToMem w _ m | .movRegToMem w _ m => some (w, m)
  | .addImmToMem imm m | .subImmToMem imm m => some ((immOperand imm).1, m)
  | .movImmToMem imm m => some ((plainOperand imm).1, m)
  | .incMem w m | .decMem w m | .notMem w m => some (w, m)
  | .movAccToMem w off => some (w, .direct off)
  | _ => none

/-- The frame of the storing forms (ADD, SUB, MOV, INC, DEC, NOT to memory): every byte outside the operand's bytes at
EA in EASeg, every register, segment register and port, and every flag but the six status flags. -/
def Obligations.StoreFrame : Prop :=
  ∀ (i : Instr) (w : Width) (m : Mem) (s t : State), storeDest i = some (w, m) → exec i s = .next t →
    SameMemoryOutside (eaAddr s m) w s t ∧ SameRegisters s t ∧ SameSystem s t ∧ OnlyStatusFlags s.flags t.flags

/-- The instructions that write no flag at all: MOV, NOT, NOP, IN, INS and the jumps (R26). -/
def writesNoFlag : Instr → Bool
  | .movReg1ToReg2 _ _ _ | .movReg2ToReg1 _ _ _ | .movMemToReg _ _ _ | .movRegToMem _ _ _ => true
  | .movImmToReg _ _ | .movImmToRegAlt _ _ | .movImmToMem _ _ | .movMemToAcc _ _ | .movAccToMem _ _ => true
  | .notReg _ _ | .notMem _ _ | .nop | .inFixed _ _ | .inVariable _ | .ins _ => true
  | .joShort _ | .jnoShort _ | .jbShort _ | .jnbShort _ | .jeShort _ | .jneShort _ | .jbeShort _ => true
  | .jnbeShort _ | .jsShort _ | .jnsShort _ | .jpShort _ | .jnpShort _ | .jlShort _ | .jnlShort _ => true
  | .jleShort _ | .jnleShort _ | .joFull _ | .jnoFull _ | .jbFull _ | .jnbFull _ | .jeFull _ | .jneFull _ => true
  | .jbeFull _ | .jnbeFull _ | .jsFull _ | .jnsFull _ | .jpFull _ | .jnpFull _ | .jlFull _ | .jnlFull _ => true
  | .jleFull _ | .jnleFull _ | .jcxz _ | .jmpShort _ | .jmpDirect _ | .jmpReg _ | .jmpMem _ => true
  | .jmpFar _ _ | .jmpFarMem _ | .loop _ => true
  | _ => false

/-- INC and DEC in all forms. -/
def isIncDec : Instr → Bool
  | .incReg _ _ | .incRegAlt _ | .incMem _ _ | .decReg _ _ | .decRegAlt _ | .decMem _ _ => true
  | _ => false

/-- INT n and INT 3. -/
def isInt : Instr → Bool
  | .intN _ | .int3 => true
  | _ => false

/-- The flag table (R26): MOV, NOT, NOP, IN, INS and the jumps write no flag; INC and DEC keep CF; INT writes only IF
and TF; every instruction but INT and DIV (which may enter vector 0) keeps DF, IF, TF and the unnamed bits. -/
def Obligations.FlagEffects : Prop :=
  ∀ (i : Instr) (s t : State), exec i s = .next t →
    (writesNoFlag i = true → t.flags = s.flags) ∧
    (isIncDec i = true → t.flags.cf = s.flags.cf) ∧
    (isInt i = true → t.flags = { s.flags with intf := false, tf := false }) ∧
    (isInt i = false → mayWriteCs i = false → OnlyStatusFlags s.flags t.flags)

/-- The jumps. -/
def isJump : Instr → Bool
  | .joShort _ | .jnoShort _ | .jbShort _ | .jnbShort _ | .jeShort _ | .jneShort _ | .jbeShort _ => true
  | .jnbeShort _ | .jsShort _ | .jnsShort _ | .jpShort _ | .jnpShort _ | .jlShort _ | .jnlShort _ => true
  | .jleShort _ | .jnleShort _ | .joFull _ | .jnoFull _ | .jbFull _ | .jnbFull _ | .jeFull _ | .jneFull _ => true
  | .jbeFull _ | .jnbeFull _ | .jsFull _ | .jnsFull _ | .jpFull _ | .jnpFull _ | .jlFull _ | .jnlFull _ => true
  | .jleFull _ | .jnleFull _ | .jcxz _ | .jmpShort _ | .jmpDirect _ | .jmpReg _ | .jmpMem _ => true
  | .jmpFar _ _ | .jmpFarMem _ | .loop _ => true
  | _ => false

/-- The frame of the jumps: no flag, no byte of memory, no register but CX for LOOP, no segment register but CS for
the far forms. -/
def Obligations.JumpFrame : Prop :=
  ∀ (i : Instr) (s t : State), isJump i = true → exec i s = .next t →
    SameMemory s t ∧ t.flags = s.flags ∧ SameSegmentsAndLaunch s t ∧ SamePorts s t ∧ t.draws = s.draws ∧
    (mayWriteCs i = false → t.cs = s.cs) ∧
    ((∀ d, i ≠ .loop d) → SameRegisters s t) ∧ OnlyRegister .word cxReg s t

/-- The frame of IN and INS: IN writes only AL or AX, INS only DI and the bytes at ES:DI; no flag, no segment register;
the oracle moves on by one answer. -/
def Obligations.InputFrame : Prop :=
  ∀ (w : Width) (s t : State),
    ((∃ port, exec (.inFixed w port) s = .next t) ∨ exec (.inVariable w) s = .next t →
      OnlyRegister w axReg s t ∧ SameMemory s t ∧ t.flags = s.flags ∧ t.cs = s.cs ∧ SameSegmentsAndLaunch s t ∧
      t.portAnswers = s.portAnswers.tail ∧ t.portReads = s.portReads + 1) ∧
    (exec (.ins w) s = .next t →
      OnlyRegister .word diReg s t ∧ SameMemoryOutside (physAddr s.es (s.reg .word diReg).toNat) w s t ∧
      t.flags = s.flags ∧ t.cs = s.cs ∧ SameSegmentsAndLaunch s t ∧
      t.portAnswers = s.portAnswers.tail ∧ t.portReads = s.portReads + 1)

/-- The frame of INT n, INT 3 and DIV: no byte outside the three words below SP, no general register but SP for INT and
AX, DX, SP for DIV, no segment register but CS, no port, no flag but IF, TF and the six status flags. -/
def Obligations.InterruptAndDivFrame : Prop :=
  ∀ (i : Instr) (s t : State), exec i s = .next t →
    (isInt i = true ∨ (∃ w r, i = .divReg w r) ∨ (∃ w m, i = .divMem w m)) →
    (∀ a, (∀ j ∈ [2, 4, 6], ∀ k < 2, a ≠ physAddr s.ss (s.reg .word spReg - BitVec.ofNat 16 j).toNat + k) →
      Memory.read t.mem a = Memory.read s.mem a) ∧
    SameSegmentsAndLaunch s t ∧ SamePorts s t ∧
    (isInt i = true → OnlyRegister .word spReg s t) ∧
    (∀ q : RegNum, q ≠ axReg → q ≠ dxReg → q ≠ spReg → t.reg32 q = s.reg32 q) ∧
    OnlyStatusFlags s.flags { t.flags with tf := s.flags.tf, intf := s.flags.intf }
end

