-- ==== Sys2Proof/Laws/Bits.lean ====
section
/-! SUPPORT. Bytes, words and double words put together from slices and cut into slices, in numbers. -/

namespace Sys2Proof

theorem toNat_append_mul {n m : Nat} (x : BitVec n) (y : BitVec m) :
    (x ++ y).toNat = x.toNat * 2 ^ m + y.toNat := by
  rw [BitVec.toNat_append, ← Nat.shiftLeft_add_eq_or_of_lt y.isLt, Nat.shiftLeft_eq]

theorem toNat_high24 (x : BitVec 24) (y : Byte) : (x ++ y : Dword).toNat = x.toNat * 256 + y.toNat :=
  toNat_append_mul x y

theorem toNat_high16 (x y : Word) : (x ++ y : Dword).toNat = x.toNat * 65536 + y.toNat :=
  toNat_append_mul x y

theorem toNat_mid (x : BitVec 16) (y z : Byte) :
    (x ++ y ++ z : Dword).toNat = x.toNat * 65536 + y.toNat * 256 + z.toNat := by
  have h : (x ++ y ++ z : Dword).toNat = (x ++ y).toNat * 256 + z.toNat := toNat_append_mul (x ++ y) z
  rw [h, toNat_append_mul]
  omega

theorem toNat_word (hi lo : Byte) : (hi ++ lo : Word).toNat = hi.toNat * 256 + lo.toNat :=
  toNat_append_mul hi lo

theorem toNat_slice {n : Nat} (v : BitVec n) (start len : Nat) :
    (v.extractLsb' start len).toNat = v.toNat / 2 ^ start % 2 ^ len := by
  rw [BitVec.extractLsb'_toNat, Nat.shiftRight_eq_div_pow]

/-- A word is its high byte and its low byte. -/
theorem word_of_bytes (v : Word) : (v.extractLsb' 8 8 ++ v.extractLsb' 0 8 : Word) = v := by
  apply BitVec.eq_of_toNat_eq
  rw [toNat_word, toNat_slice, toNat_slice]
  have := v.isLt
  omega

theorem low_of_word (hi lo : Byte) : (hi ++ lo : Word).extractLsb' 0 8 = lo := by
  apply BitVec.eq_of_toNat_eq
  rw [toNat_slice, toNat_word]
  have := lo.isLt
  omega

theorem high_of_word (hi lo : Byte) : (hi ++ lo : Word).extractLsb' 8 8 = hi := by
  apply BitVec.eq_of_toNat_eq
  rw [toNat_slice, toNat_word]
  have := lo.isLt
  have := hi.isLt
  omega

/-- A double word with its low byte replaced. -/
theorem slices_low (d : Dword) (v : Byte) :
    (d.extractLsb' 8 24 ++ v : Dword).extractLsb' 0 8 = v ∧
    (d.extractLsb' 8 24 ++ v : Dword).extractLsb' 8 8 = d.extractLsb' 8 8 ∧
    (d.extractLsb' 8 24 ++ v : Dword).extractLsb' 16 16 = d.extractLsb' 16 16 := by
  have := v.isLt
  have := d.isLt
  refine ⟨?_, ?_, ?_⟩ <;> apply BitVec.eq_of_toNat_eq <;> simp only [toNat_slice, toNat_high24] <;> omega

/-- A double word with its second byte replaced. -/
theorem slices_high (d : Dword) (v : Byte) :
    (d.extractLsb' 16 16 ++ v ++ d.extractLsb' 0 8 : Dword).extractLsb' 0 8 = d.extractLsb' 0 8 ∧
    (d.extractLsb' 16 16 ++ v ++ d.extractLsb' 0 8 : Dword).extractLsb' 8 8 = v ∧
    (d.extractLsb' 16 16 ++ v ++ d.extractLsb' 0 8 : Dword).extractLsb' 16 16 = d.extractLsb' 16 16 := by
  have := v.isLt
  have := d.isLt
  refine ⟨?_, ?_, ?_⟩ <;> apply BitVec.eq_of_toNat_eq <;> simp only [toNat_slice, toNat_mid] <;> omega

/-- A double word with its low word replaced. -/
theorem slices_word (d : Dword) (v : Word) :
    (d.extractLsb' 16 16 ++ v : Dword).extractLsb' 0 16 = v ∧
    (d.extractLsb' 16 16 ++ v : Dword).extractLsb' 0 8 = v.extractLsb' 0 8 ∧
    (d.extractLsb' 16 16 ++ v : Dword).extractLsb' 8 8 = v.extractLsb' 8 8 ∧
    (d.extractLsb' 16 16 ++ v : Dword).extractLsb' 16 16 = d.extractLsb' 16 16 := by
  have := v.isLt
  have := d.isLt
  refine ⟨?_, ?_, ?_, ?_⟩ <;> apply BitVec.eq_of_toNat_eq <;> simp only [toNat_slice, toNat_high16] <;> omega

end Sys2Proof
end

