-- ==== Sys2Proof/Laws/Fetch.lean ====
section
/-! SUPPORT. The fetch: when a byte can be fetched, and which bytes the decoder is given. -/

namespace Sys2Proof.Machine

variable {s : State} {bs : List Byte} {k : Nat}

theorem fetchStop_none : s.fetchStop k = none ↔ Fetchable s k := by
  simp only [State.fetchStop, State.fetchAddr, physAddr, Config.physMap, Fetchable]
  by_cases h1 : s.pc.toNat + k > 0xFFFF
  · rw [if_pos h1]
    simp only [reduceCtorEq, false_iff]
    omega
  · rw [if_neg h1]
    by_cases h2 : s.isCode (s.cs.toNat * 16 + (s.pc.toNat + k)) = true
    · by_cases h3 : s.mapped (s.cs.toNat * 16 + (s.pc.toNat + k)) = true
      · simp only [h2, h3]
        simp
        omega
      · simp [h2, h3]
    · simp [h2]

/-- The fetched bytes begin with any bytes that are fetched, and end where a byte cannot be. -/
theorem fetchBytes_of_fetched (h : Fetched s bs) (hl : bs.length ≤ 6) :
    ∃ rest, s.fetchBytes = bs ++ rest ∧ (¬ Fetchable s bs.length → rest = []) := by
  have key : ∀ n d, n + d = 6 → n ≤ bs.length →
      ∃ m, bs.length - n ≤ m ∧ (¬ Fetchable s bs.length → m = bs.length - n) ∧
        ((List.range' n d).takeWhile fun k => (s.fetchStop k).isNone).length = m := by
    intro n d
    induction d generalizing n with
    | zero => exact fun e hn => ⟨0, by omega, by omega, rfl⟩
    | succ d ih =>
      intro e hn
      rw [List.range'_succ, List.takeWhile_cons]
      by_cases hk : n < bs.length
      · obtain ⟨m, h2, h3, h4⟩ := ih (n + 1) (by omega) (by omega)
        rw [if_pos (by rw [fetchStop_none.2 (h n hk).1]; rfl)]
        exact ⟨m + 1, by omega, fun c => by have := h3 c; omega, by rw [List.length_cons, h4]⟩
      · have hn' : n = bs.length := by omega
        subst hn'
        by_cases hf : Fetchable s bs.length
        · exact ⟨_, by omega, fun c => absurd hf c, rfl⟩
        · rw [if_neg (by rw [Option.isNone_iff_eq_none, fetchStop_none]; exact hf)]
          exact ⟨0, by omega, by omega, rfl⟩
  obtain ⟨m, h2, h3, h4⟩ := key 0 6 rfl (Nat.zero_le _)
  have hc : s.fetchCount = m := by rw [← h4, State.fetchCount, maxLength, List.range_eq_range']
  have hb : bs = (List.range bs.length).map fun k => Memory.read s.mem (s.fetchAddr k) := by
    refine List.ext_getElem (by simp) fun k hk _ => ?_
    have := (h k hk).2
    rw [List.getD_eq_getElem _ _ hk] at this
    simpa [State.fetchAddr, physAddr, Config.physMap] using this.symm
  refine ⟨(List.range' bs.length (m - bs.length)).map fun k => Memory.read s.mem (s.fetchAddr k), ?_, fun c => ?_⟩
  · conv_lhs => rw [State.fetchBytes, hc]
    conv_rhs => rw [hb]
    simp only [List.length_map, List.length_range]
    rw [← List.map_append]
    congr 1
    rw [List.range_eq_range', List.range_eq_range']
    have e := List.range'_append_1 (s := 0) (m := bs.length) (n := m - bs.length)
    rw [Nat.zero_add] at e
    rw [e]
    congr 1
    omega
  · have := h3 c
    simp only [Nat.sub_zero] at this
    rw [this, Nat.sub_self]
    rfl

end Sys2Proof.Machine
end

