-- ==== Sys2Proof/Laws/Flags.lean ====
section
/-! SUPPORT. The flag functions in numbers: `addFlags`, `subFlags`, `incFlags`, `decFlags` are the sum, difference,
increment and decrement of Safety.lean (spec R150), for every width. -/

namespace Sys2Proof.Machine

theorem msb_eq_topBit {n : Nat} (v : BitVec n) : v.msb = topBit v := BitVec.msb_eq_getLsbD_last v

/-- `parity8` says that the number of 1 bits in the low byte is even. -/
theorem parity8_iff {n : Nat} (v : BitVec n) :
    parity8 v = true ↔ (∑ k ∈ Finset.range 8, (v.getLsbD k).toNat) % 2 = 0 := by
  simp only [parity8, beq_iff_eq, Finset.sum_range_succ, Finset.sum_range_zero, List.range_succ, List.range_zero,
    List.countP_append, List.countP_cons, List.countP_nil, List.nil_append]
  cases v.getLsbD 0 <;> cases v.getLsbD 1 <;> cases v.getLsbD 2 <;> cases v.getLsbD 3 <;>
    cases v.getLsbD 4 <;> cases v.getLsbD 5 <;> cases v.getLsbD 6 <;> cases v.getLsbD 7 <;> decide

/-- `setSZP` sets SF, ZF and PF by a result. -/
theorem szpOf_setSZP {n : Nat} (r : BitVec n) (f : Flags) : SzpOf r (setSZP r f) := by
  refine ⟨msb_eq_topBit r, ?_, parity8_iff r⟩
  simp only [setSZP, beq_iff_eq]
  exact ⟨fun h => by simp [h], fun h => BitVec.eq_of_toNat_eq (by simpa using h)⟩

/-- SF, ZF, PF of a result do not look at the other flags. -/
theorem SzpOf.congr {n : Nat} {r : BitVec n} {g h : Flags} (e : SzpOf r g) (hs : h.sf = g.sf) (hz : h.zf = g.zf)
    (hp : h.pf = g.pf) : SzpOf r h := by
  obtain ⟨a, b, c⟩ := e
  exact ⟨hs ▸ a, by rw [hz]; exact b, by rw [hp]; exact c⟩

/-- `addFlags` gives the sum and its flags (R150). -/
theorem isSum_addFlags {n : Nat} (a b : BitVec n) (f : Flags) :
    IsSum a b f (addFlags a b f).value (addFlags a b f).flags := by
  refine ⟨BitVec.toNat_add a b, ?_, ?_, ?_, szpOf_setSZP _ _, ⟨rfl, rfl, rfl, rfl, rfl, rfl, rfl, rfl⟩⟩
  · simp [addFlags, setSZP]
  · simp [addFlags, setSZP]
  · simp only [addFlags, setSZP, Bool.and_eq_true, beq_iff_eq, bne_iff_ne, msb_eq_topBit, ne_eq]

/-- `subFlags` gives the difference and its flags (R150). -/
theorem isDifference_subFlags {n : Nat} (a b : BitVec n) (f : Flags) :
    IsDifference a b f (subFlags a b f).value (subFlags a b f).flags := by
  refine ⟨?_, ?_, ?_, ?_, szpOf_setSZP _ _, ⟨rfl, rfl, rfl, rfl, rfl, rfl, rfl, rfl⟩⟩
  · simp only [subFlags, BitVec.toNat_sub]
    have ha := a.isLt
    have hb := b.isLt
    rw [Int.natCast_mod]
    push_cast [Nat.le_of_lt hb]
    rw [show ((2 : Int) ^ n - b.toNat + a.toNat) = (a.toNat - b.toNat) + 2 ^ n by ring, Int.add_emod_right]
  · simp [subFlags, setSZP]
  · simp [subFlags, setSZP]
  · simp only [subFlags, setSZP, Bool.and_eq_true, bne_iff_ne, msb_eq_topBit, ne_eq]

/-- `incFlags` is the sum with 1, CF kept (R150). -/
theorem isIncrement_incFlags {n : Nat} (a : BitVec n) (f : Flags) :
    IsIncrement a f (incFlags a f).value (incFlags a f).flags :=
  ⟨rfl, (addFlags a 1 f).flags.cf, isSum_addFlags a 1 f⟩

/-- `decFlags` is the difference with 1, CF kept (R150). -/
theorem isDecrement_decFlags {n : Nat} (a : BitVec n) (f : Flags) :
    IsDecrement a f (decFlags a f).value (decFlags a f).flags :=
  ⟨rfl, (subFlags a 1 f).flags.cf, isDifference_subFlags a 1 f⟩

/-! What each flag function leaves alone. -/

theorem onlyStatus_refl (f : Flags) : OnlyStatusFlags f f := ⟨rfl, rfl, rfl, rfl, rfl, rfl, rfl, rfl⟩

theorem onlyStatus_addFlags {n : Nat} (a b : BitVec n) (f : Flags) : OnlyStatusFlags f (addFlags a b f).flags :=
  ⟨rfl, rfl, rfl, rfl, rfl, rfl, rfl, rfl⟩

theorem onlyStatus_subFlags {n : Nat} (a b : BitVec n) (f : Flags) : OnlyStatusFlags f (subFlags a b f).flags :=
  ⟨rfl, rfl, rfl, rfl, rfl, rfl, rfl, rfl⟩

theorem onlyStatus_incFlags {n : Nat} (a : BitVec n) (f : Flags) : OnlyStatusFlags f (incFlags a f).flags :=
  ⟨rfl, rfl, rfl, rfl, rfl, rfl, rfl, rfl⟩

theorem onlyStatus_decFlags {n : Nat} (a : BitVec n) (f : Flags) : OnlyStatusFlags f (decFlags a f).flags :=
  ⟨rfl, rfl, rfl, rfl, rfl, rfl, rfl, rfl⟩

theorem onlyStatus_notFlags {n : Nat} (a : BitVec n) (f : Flags) : OnlyStatusFlags f (notFlags a f).flags :=
  ⟨rfl, rfl, rfl, rfl, rfl, rfl, rfl, rfl⟩

theorem onlyStatus_orFlags {n : Nat} (af : Bool) (a b : BitVec n) (f : Flags) :
    OnlyStatusFlags f (orFlags af a b f).flags :=
  ⟨rfl, rfl, rfl, rfl, rfl, rfl, rfl, rfl⟩

theorem onlyStatus_daaFn (al : Byte) (f : Flags) (o : Bool) : OnlyStatusFlags f (daaFn al f o).flags :=
  ⟨rfl, rfl, rfl, rfl, rfl, rfl, rfl, rfl⟩

theorem onlyStatus_dasFn (al : Byte) (f : Flags) (o : Bool) : OnlyStatusFlags f (dasFn al f o).flags :=
  ⟨rfl, rfl, rfl, rfl, rfl, rfl, rfl, rfl⟩

theorem onlyStatus_divFlags (s : State) : OnlyStatusFlags s.flags s.divFlags :=
  ⟨rfl, rfl, rfl, rfl, rfl, rfl, rfl, rfl⟩

/-- A bit appended below is bit 0. -/
theorem append_bit_zero {n : Nat} (x : BitVec n) (b : Bool) : (x ++ BitVec.ofBool b).getLsbD 0 = b := by
  simp [BitVec.getElem_append]

/-- A bit appended below moves the others up by one. -/
theorem append_bit_succ {n : Nat} (x : BitVec n) (b : Bool) (k : Nat) :
    (x ++ BitVec.ofBool b).getLsbD (k + 1) = x.getLsbD k := by
  rw [BitVec.getLsbD_append, if_neg (by omega), Nat.add_sub_cancel]

/-- The pushed word has each flag at its bit position (R25). -/
theorem toWord_isFlagsWord (f : Flags) : IsFlagsWord f f.toWord := by
  have top : ∀ (b : Bool) (h : BitVec 3), (BitVec.ofBool b ++ h).getLsbD 3 = b ∧
      ∀ k < 3, (BitVec.ofBool b ++ h).getLsbD k = h.getLsbD k := by decide
  refine ⟨?_, ?_, ?_, ?_, ?_, ?_, ?_, ?_, ?_, ?_, ?_, ?_, BitVec.eq_of_getLsbD_eq fun k hk => ?_, ?_⟩
  case refine_13 =>
    rw [BitVec.getLsbD_extractLsb', decide_eq_true hk, Bool.true_and, Nat.add_comm]
    refine Eq.trans ?_ ((top f.bit15 f.high).2 k hk)
    iterate 12 refine (append_bit_succ _ _ _).trans ?_
    rfl
  case refine_14 =>
    iterate 12 refine (append_bit_succ _ _ _).trans ?_
    exact (top f.bit15 f.high).1
  all_goals repeat (first | exact append_bit_zero _ _ | refine (append_bit_succ _ _ _).trans ?_)

end Sys2Proof.Machine
end

