-- ==== Sys2Proof/Laws/Memory.lean ====
section
/-! SUPPORT. Memory: read after write, the frame of a write, and the canonical form kept by every write. -/

namespace Sys2Proof.Machine

/-- A write leaves every other address alone. -/
theorem Memory.read_write_ne (m : Memory) {a c : Nat} (h : c ≠ a) (v : Byte) :
    Memory.read (Memory.write m a v) c = Memory.read m c := by
  induction m with
  | nil => by_cases hv : v = Config.blankByte <;> simp [Memory.write, Memory.read, hv, h]
  | cons e m ih =>
    obtain ⟨b, u⟩ := e
    simp only [Memory.write]
    split
    · split
      · rfl
      · simp [Memory.read, h]
    · split
      · next e =>
        have hb : c ≠ b := e ▸ h
        split <;> simp [Memory.read, h, hb]
      · simp only [Memory.read, ih]

theorem Memory.wf_cons {b : Nat} {u : Byte} {m : Memory} :
    Memory.wf ((b, u) :: m) = true ↔ u ≠ Config.blankByte ∧ (∀ c ∈ m, b < c.1) ∧ Memory.wf m = true := by
  simp [Memory.wf, and_assoc]

/-- Below the first entry nothing is listed. -/
theorem Memory.read_below {m : Memory} {a : Nat} (h : ∀ c ∈ m, a < c.1) : Memory.read m a = Config.blankByte := by
  induction m with
  | nil => rfl
  | cons e m ih =>
    obtain ⟨b, u⟩ := e
    have hb : a < b := h (b, u) (by simp)
    simp only [Memory.read, if_neg (Nat.ne_of_lt hb)]
    exact ih fun c hc => h c (by simp [hc])

/-- A read of the address just written gives the value, in a memory in canonical form. -/
theorem Memory.read_write_same {m : Memory} (hm : Memory.wf m = true) (a : Nat) (v : Byte) :
    Memory.read (Memory.write m a v) a = v := by
  induction m with
  | nil => by_cases hv : v = Config.blankByte <;> simp [Memory.write, Memory.read, hv]
  | cons e m ih =>
    obtain ⟨b, u⟩ := e
    obtain ⟨-, hlt, hwf⟩ := Memory.wf_cons.1 hm
    simp only [Memory.write]
    split
    · next hab =>
      split
      · next hv =>
        rw [hv]
        refine Memory.read_below fun c hc => ?_
        rcases List.mem_cons.1 hc with rfl | hc
        · exact hab
        · exact lt_trans hab (hlt c hc)
      · simp [Memory.read]
    · split
      · next hab =>
        split
        · next hv => rw [hv]; exact Memory.read_below (hab ▸ hlt)
        · simp [Memory.read]
      · next hne => simp only [Memory.read, if_neg hne, ih hwf]

/-- Every address a write lists was listed before or is the one written. -/
theorem Memory.mem_write {m : Memory} {a : Nat} {v : Byte} {c : Host.Cell} (h : c ∈ Memory.write m a v) :
    c ∈ m ∨ c = (a, v) := by
  induction m with
  | nil =>
    simp only [Memory.write] at h
    split at h <;> simp_all
  | cons e m ih =>
    obtain ⟨b, u⟩ := e
    simp only [Memory.write] at h
    split at h
    · split at h
      · exact .inl h
      · rcases List.mem_cons.1 h with h | h
        · exact .inr h
        · exact .inl h
    · split at h
      · split at h
        · exact .inl (List.mem_cons_of_mem _ h)
        · rcases List.mem_cons.1 h with h | h
          · exact .inr h
          · exact .inl (List.mem_cons_of_mem _ h)
      · rcases List.mem_cons.1 h with h | h
        · exact .inl (h ▸ List.mem_cons_self)
        · exact (ih h).imp_left (List.mem_cons_of_mem _)

/-- A write keeps the canonical form. -/
theorem Memory.wf_write {m : Memory} (hm : Memory.wf m = true) (a : Nat) (v : Byte) :
    Memory.wf (Memory.write m a v) = true := by
  induction m with
  | nil => by_cases hv : v = Config.blankByte <;> simp [Memory.write, Memory.wf, hv]
  | cons e m ih =>
    obtain ⟨b, u⟩ := e
    obtain ⟨hu, hlt, hwf⟩ := Memory.wf_cons.1 hm
    simp only [Memory.write]
    split
    · next hab =>
      split
      · exact hm
      · next hv =>
        refine Memory.wf_cons.2 ⟨hv, fun c hc => ?_, hm⟩
        rcases List.mem_cons.1 hc with rfl | hc
        · exact hab
        · exact lt_trans hab (hlt c hc)
    · next hab =>
      split
      · next e =>
        split
        · exact hwf
        · next hv => exact Memory.wf_cons.2 ⟨hv, e ▸ hlt, hwf⟩
      · next hne =>
        refine Memory.wf_cons.2 ⟨hu, fun c hc => ?_, ih hwf⟩
        rcases Memory.mem_write hc with hc | rfl
        · exact hlt c hc
        · omega

/-- A write of a byte or word keeps the canonical form. -/
theorem Memory.wf_writeValue {m : Memory} (hm : Memory.wf m = true) (a : Nat) (w : Width) (v : BitVec w.bits) :
    Memory.wf (Memory.writeValue m a w v) = true := by
  cases w
  · exact Memory.wf_write hm a v
  · exact Memory.wf_write (Memory.wf_write hm _ _) _ _

/-- A write of a byte or word leaves every address outside its bytes alone. -/
theorem Memory.read_writeValue_ne (m : Memory) {a c : Nat} (w : Width) (h : ∀ k < w.bytes, c ≠ a + k)
    (v : BitVec w.bits) : Memory.read (Memory.writeValue m a w v) c = Memory.read m c := by
  cases w
  · exact Memory.read_write_ne m (h 0 (by decide)) v
  · have h0 : c ≠ a := h 0 (by decide)
    have h1 : c ≠ a + 1 := h 1 (by decide)
    simp only [Memory.writeValue, Memory.read_write_ne _ h1, Memory.read_write_ne _ h0]

/-- The two bytes of a stored word, the low byte at the lower address (R52). -/
theorem Memory.read_writeValue_word {m : Memory} (hm : Memory.wf m = true) (a : Nat) (v : Word) :
    Memory.read (Memory.writeValue m a .word v) a = v.extractLsb' 0 8 ∧
    Memory.read (Memory.writeValue m a .word v) (a + 1) = v.extractLsb' 8 8 := by
  constructor
  · show Memory.read (Memory.write (Memory.write m a _) (a + 1) _) a = _
    rw [Memory.read_write_ne _ (by omega), Memory.read_write_same hm]
  · exact Memory.read_write_same (Memory.wf_write hm _ _) _ _

/-- A read of the byte or word just written gives the value. -/
theorem Memory.readValue_writeValue {m : Memory} (hm : Memory.wf m = true) (a : Nat) (w : Width) (v : BitVec w.bits) :
    Memory.readValue (Memory.writeValue m a w v) a w = v := by
  cases w
  · exact Memory.read_write_same hm a v
  · obtain ⟨h0, h1⟩ := Memory.read_writeValue_word hm a v
    show (_ ++ _ : Word) = v
    rw [h0, h1]
    exact word_of_bytes v

/-- A read of a byte or word depends on its bytes only. -/
theorem Memory.readValue_congr {m m' : Memory} {a : Nat} {w : Width}
    (h : ∀ k < w.bytes, Memory.read m (a + k) = Memory.read m' (a + k)) :
    Memory.readValue m a w = Memory.readValue m' a w := by
  cases w
  · exact h 0 (by decide)
  · have h0 : Memory.read m a = Memory.read m' a := h 0 (by decide)
    have h1 : Memory.read m (a + 1) = Memory.read m' (a + 1) := h 1 (by decide)
    show (_ ++ _ : Word) = (_ ++ _ : Word)
    rw [h0, h1]

/-- A write of a byte or word leaves a byte or word that shares no byte with it. -/
theorem Memory.readValue_writeValue_ne (m : Memory) {a c : Nat} {w w' : Width} (v : BitVec w'.bits)
    (h : ∀ k < w.bytes, ∀ j < w'.bytes, c + k ≠ a + j) :
    Memory.readValue (Memory.writeValue m a w' v) c w = Memory.readValue m c w :=
  Memory.readValue_congr fun k hk => Memory.read_writeValue_ne m w' (h k hk) v

end Sys2Proof.Machine
end

