-- ==== Sys2Proof/Laws/State.lean ====
section
/-! SUPPORT. The small lemmas of State: one per field per update, so that no proof unfolds a record update. -/

namespace Sys2Proof.Machine

variable (s : State)

@[simp] theorem setReg32_pc (i : RegNum) (v : Dword) : (s.setReg32 i v).pc = s.pc := rfl
@[simp] theorem setReg32_flags (i : RegNum) (v : Dword) : (s.setReg32 i v).flags = s.flags := rfl
@[simp] theorem setReg32_cs (i : RegNum) (v : Dword) : (s.setReg32 i v).cs = s.cs := rfl
@[simp] theorem setReg32_ss (i : RegNum) (v : Dword) : (s.setReg32 i v).ss = s.ss := rfl
@[simp] theorem setReg32_ds (i : RegNum) (v : Dword) : (s.setReg32 i v).ds = s.ds := rfl
@[simp] theorem setReg32_es (i : RegNum) (v : Dword) : (s.setReg32 i v).es = s.es := rfl
@[simp] theorem setReg32_fs (i : RegNum) (v : Dword) : (s.setReg32 i v).fs = s.fs := rfl
@[simp] theorem setReg32_gs (i : RegNum) (v : Dword) : (s.setReg32 i v).gs = s.gs := rfl
@[simp] theorem setReg32_mem (i : RegNum) (v : Dword) : (s.setReg32 i v).mem = s.mem := rfl
@[simp] theorem setReg32_memMap (i : RegNum) (v : Dword) : (s.setReg32 i v).memMap = s.memMap := rfl
@[simp] theorem setReg32_codeRegion (i : RegNum) (v : Dword) : (s.setReg32 i v).codeRegion = s.codeRegion := rfl
@[simp] theorem setReg32_haltAt (i : RegNum) (v : Dword) : (s.setReg32 i v).haltAt = s.haltAt := rfl
@[simp] theorem setReg32_portAnswers (i : RegNum) (v : Dword) : (s.setReg32 i v).portAnswers = s.portAnswers := rfl
@[simp] theorem setReg32_portReads (i : RegNum) (v : Dword) : (s.setReg32 i v).portReads = s.portReads := rfl
@[simp] theorem setReg32_draws (i : RegNum) (v : Dword) : (s.setReg32 i v).draws = s.draws := rfl

@[simp] theorem setReg_pc (w : Width) (r : RegNum) (v : BitVec w.bits) : (s.setReg w r v).pc = s.pc := by
  cases w <;> simp only [State.setReg] <;> first | rfl | (split <;> rfl)
@[simp] theorem setReg_flags (w : Width) (r : RegNum) (v : BitVec w.bits) : (s.setReg w r v).flags = s.flags := by
  cases w <;> simp only [State.setReg] <;> first | rfl | (split <;> rfl)
@[simp] theorem setReg_cs (w : Width) (r : RegNum) (v : BitVec w.bits) : (s.setReg w r v).cs = s.cs := by
  cases w <;> simp only [State.setReg] <;> first | rfl | (split <;> rfl)
@[simp] theorem setReg_ss (w : Width) (r : RegNum) (v : BitVec w.bits) : (s.setReg w r v).ss = s.ss := by
  cases w <;> simp only [State.setReg] <;> first | rfl | (split <;> rfl)
@[simp] theorem setReg_ds (w : Width) (r : RegNum) (v : BitVec w.bits) : (s.setReg w r v).ds = s.ds := by
  cases w <;> simp only [State.setReg] <;> first | rfl | (split <;> rfl)
@[simp] theorem setReg_es (w : Width) (r : RegNum) (v : BitVec w.bits) : (s.setReg w r v).es = s.es := by
  cases w <;> simp only [State.setReg] <;> first | rfl | (split <;> rfl)
@[simp] theorem setReg_fs (w : Width) (r : RegNum) (v : BitVec w.bits) : (s.setReg w r v).fs = s.fs := by
  cases w <;> simp only [State.setReg] <;> first | rfl | (split <;> rfl)
@[simp] theorem setReg_gs (w : Width) (r : RegNum) (v : BitVec w.bits) : (s.setReg w r v).gs = s.gs := by
  cases w <;> simp only [State.setReg] <;> first | rfl | (split <;> rfl)
@[simp] theorem setReg_mem (w : Width) (r : RegNum) (v : BitVec w.bits) : (s.setReg w r v).mem = s.mem := by
  cases w <;> simp only [State.setReg] <;> first | rfl | (split <;> rfl)
@[simp] theorem setReg_memMap (w : Width) (r : RegNum) (v : BitVec w.bits) : (s.setReg w r v).memMap = s.memMap := by
  cases w <;> simp only [State.setReg] <;> first | rfl | (split <;> rfl)
@[simp] theorem setReg_codeRegion (w : Width) (r : RegNum) (v : BitVec w.bits) : (s.setReg w r v).codeRegion = s.codeRegion := by
  cases w <;> simp only [State.setReg] <;> first | rfl | (split <;> rfl)
@[simp] theorem setReg_haltAt (w : Width) (r : RegNum) (v : BitVec w.bits) : (s.setReg w r v).haltAt = s.haltAt := by
  cases w <;> simp only [State.setReg] <;> first | rfl | (split <;> rfl)
@[simp] theorem setReg_portAnswers (w : Width) (r : RegNum) (v : BitVec w.bits) : (s.setReg w r v).portAnswers = s.portAnswers := by
  cases w <;> simp only [State.setReg] <;> first | rfl | (split <;> rfl)
@[simp] theorem setReg_portReads (w : Width) (r : RegNum) (v : BitVec w.bits) : (s.setReg w r v).portReads = s.portReads := by
  cases w <;> simp only [State.setReg] <;> first | rfl | (split <;> rfl)
@[simp] theorem setReg_draws (w : Width) (r : RegNum) (v : BitVec w.bits) : (s.setReg w r v).draws = s.draws := by
  cases w <;> simp only [State.setReg] <;> first | rfl | (split <;> rfl)

@[simp] theorem portDone_x : s.portDone.x = s.x := rfl
@[simp] theorem portDone_pc : s.portDone.pc = s.pc := rfl
@[simp] theorem portDone_flags : s.portDone.flags = s.flags := rfl
@[simp] theorem portDone_cs : s.portDone.cs = s.cs := rfl
@[simp] theorem portDone_ss : s.portDone.ss = s.ss := rfl
@[simp] theorem portDone_ds : s.portDone.ds = s.ds := rfl
@[simp] theorem portDone_es : s.portDone.es = s.es := rfl
@[simp] theorem portDone_fs : s.portDone.fs = s.fs := rfl
@[simp] theorem portDone_gs : s.portDone.gs = s.gs := rfl
@[simp] theorem portDone_mem : s.portDone.mem = s.mem := rfl
@[simp] theorem portDone_memMap : s.portDone.memMap = s.memMap := rfl
@[simp] theorem portDone_codeRegion : s.portDone.codeRegion = s.codeRegion := rfl
@[simp] theorem portDone_haltAt : s.portDone.haltAt = s.haltAt := rfl
@[simp] theorem portDone_draws : s.portDone.draws = s.draws := rfl
@[simp] theorem portDone_portAnswers : s.portDone.portAnswers = s.portAnswers.tail := rfl
@[simp] theorem portDone_portReads : s.portDone.portReads = s.portReads + 1 := rfl

@[simp] theorem drawn_x (n : Nat) : (s.drawn n).x = s.x := rfl
@[simp] theorem drawn_pc (n : Nat) : (s.drawn n).pc = s.pc := rfl
@[simp] theorem drawn_flags (n : Nat) : (s.drawn n).flags = s.flags := rfl
@[simp] theorem drawn_cs (n : Nat) : (s.drawn n).cs = s.cs := rfl
@[simp] theorem drawn_ss (n : Nat) : (s.drawn n).ss = s.ss := rfl
@[simp] theorem drawn_ds (n : Nat) : (s.drawn n).ds = s.ds := rfl
@[simp] theorem drawn_es (n : Nat) : (s.drawn n).es = s.es := rfl
@[simp] theorem drawn_fs (n : Nat) : (s.drawn n).fs = s.fs := rfl
@[simp] theorem drawn_gs (n : Nat) : (s.drawn n).gs = s.gs := rfl
@[simp] theorem drawn_mem (n : Nat) : (s.drawn n).mem = s.mem := rfl
@[simp] theorem drawn_memMap (n : Nat) : (s.drawn n).memMap = s.memMap := rfl
@[simp] theorem drawn_codeRegion (n : Nat) : (s.drawn n).codeRegion = s.codeRegion := rfl
@[simp] theorem drawn_haltAt (n : Nat) : (s.drawn n).haltAt = s.haltAt := rfl
@[simp] theorem drawn_portAnswers (n : Nat) : (s.drawn n).portAnswers = s.portAnswers := rfl
@[simp] theorem drawn_portReads (n : Nat) : (s.drawn n).portReads = s.portReads := rfl
@[simp] theorem drawn_draws (n : Nat) : (s.drawn n).draws = s.draws + n := rfl

/-! Registers and the rest of the state are independent. -/

theorem setReg_mem_comm (s : State) (w : Width) (r : RegNum) (v : BitVec w.bits) (m : Memory) :
    State.setReg { s with mem := m } w r v = { s.setReg w r v with mem := m } := by
  cases w <;> simp only [State.setReg] <;> first | rfl | (split <;> rfl)

theorem setReg_portDone (s : State) (w : Width) (r : RegNum) (v : BitVec w.bits) :
    s.portDone.setReg w r v =
      { s.setReg w r v with portAnswers := s.portAnswers.tail, portReads := s.portReads + 1 } := by
  cases w <;> simp only [State.setReg] <;> first | rfl | (split <;> rfl)

theorem setReg_drawn (s : State) (n : Nat) (w : Width) (r : RegNum) (v : BitVec w.bits) :
    (s.drawn n).setReg w r v = { s.setReg w r v with draws := s.draws + n } := by
  cases w <;> simp only [State.setReg] <;> first | rfl | (split <;> rfl)

theorem setReg_x_congr {s t : State} (h : s.x = t.x) (w : Width) (r : RegNum) (v : BitVec w.bits) :
    (s.setReg w r v).x = (t.setReg w r v).x := by
  cases w <;> simp only [State.setReg, State.setReg32, State.reg32, h]
  split <;> rfl

/-- A state is the one with its registers written, with every other field put in. -/
theorem setReg_eq (s : State) (w : Width) (r : RegNum) (v : BitVec w.bits) :
    s.setReg w r v = { s with x := (s.setReg w r v).x } := by
  cases w <;> simp only [State.setReg] <;> first | rfl | (split <;> rfl)

/-! The accessors read only the fields they name. -/

theorem reg32_congr {s t : State} (h : t.x = s.x) (i : RegNum) : t.reg32 i = s.reg32 i := by
  simp [State.reg32, h]

theorem reg_congr {s t : State} (h : t.x = s.x) (w : Width) (r : RegNum) : t.reg w r = s.reg w r := by
  cases w <;> simp [State.reg, State.reg32, h]

@[simp] theorem mapped_setReg (w : Width) (r : RegNum) (v : BitVec w.bits) (a : Nat) :
    (s.setReg w r v).mapped a = s.mapped a := by simp [State.mapped]

@[simp] theorem isCode_setReg (w : Width) (r : RegNum) (v : BitVec w.bits) (a : Nat) :
    (s.setReg w r v).isCode a = s.isCode a := by simp [State.isCode]

@[simp] theorem seg_setReg (w : Width) (r : RegNum) (v : BitVec w.bits) (q : SegReg) :
    (s.setReg w r v).seg q = s.seg q := by cases q <;> simp [State.seg]

end Sys2Proof.Machine
end

