-- ==== Sys2Proof/Laws/Registers.lean ====
section
/-! SUPPORT. The register file: what reading a view gives after writing one (spec R20 to R23). -/

namespace Sys2Proof.Machine

variable (s : State)

theorem reg32_eq (i : RegNum) : s.reg32 i = s.x[i.toNat]'i.isLt := rfl

theorem setReg32_x (i : RegNum) (v : Dword) : (s.setReg32 i v).x = s.x.set i.toNat v i.isLt := rfl

/-- The general registers after a write of one (R20). -/
theorem reg32_setReg32 (i j : RegNum) (v : Dword) :
    (s.setReg32 i v).reg32 j = if i = j then v else s.reg32 j := by
  simp only [reg32_eq, setReg32_x, Vector.getElem_set]
  simp only [BitVec.toNat_inj]

@[simp] theorem reg32_setReg32_same (i : RegNum) (v : Dword) : (s.setReg32 i v).reg32 i = v := by
  simp [reg32_setReg32]

theorem reg32_setReg32_ne {i j : RegNum} (h : i ≠ j) (v : Dword) : (s.setReg32 i v).reg32 j = s.reg32 j := by
  simp [reg32_setReg32, h]

/-- A write through a view leaves bits 31..16 of every general register (R20, R21, R22). -/
theorem setReg_upper (w : Width) (r : RegNum) (v : BitVec w.bits) (q : RegNum) :
    ((s.setReg w r v).reg32 q).extractLsb' 16 16 = (s.reg32 q).extractLsb' 16 16 := by
  cases w
  · by_cases h : r < 4
    · simp only [State.setReg, if_pos h, reg32_setReg32]
      split
      · next e => subst e; exact (slices_low _ v).2.2
      · rfl
    · simp only [State.setReg, if_neg h, reg32_setReg32]
      split
      · next e => rw [← e]; exact (slices_high _ v).2.2
      · rfl
  · simp only [State.setReg, reg32_setReg32]
    split
    · next e => subst e; exact (slices_word _ v).2.2.2
    · rfl

theorem reg_setReg_byte (r q : RegNum) (v : Byte) :
    (s.setReg .byte r v).reg .byte q = if r = q then v else s.reg .byte q := by
  by_cases hr : r < 4
  · simp only [State.setReg, if_pos hr, State.reg, reg32_setReg32]
    by_cases hq : q < 4
    · simp only [if_pos hq]
      split
      · next e => subst e; exact (slices_low _ v).1
      · rfl
    · have hne : r ≠ q := fun e => hq (e ▸ hr)
      simp only [if_neg hq, if_neg hne]
      split
      · next e => rw [← e]; exact (slices_low _ v).2.1
      · rfl
  · simp only [State.setReg, if_neg hr, State.reg, reg32_setReg32]
    by_cases hq : q < 4
    · have hne : r ≠ q := fun e => hr (e ▸ hq)
      simp only [if_pos hq, if_neg hne]
      split
      · next e => rw [← e]; exact (slices_high _ v).1
      · rfl
    · have hcancel : (r - 4 = q - 4) ↔ r = q := by
        revert r q; decide
      simp only [if_neg hq, hcancel]
      split
      · exact (slices_high _ v).2.1
      · rfl

theorem reg_setReg_word (r q : RegNum) (v : Word) :
    (s.setReg .word r v).reg .word q = if r = q then v else s.reg .word q := by
  simp only [State.setReg, State.reg, reg32_setReg32]
  split
  · next e => subst e; exact (slices_word _ v).1
  · rfl

/-- Reading the view just written gives the value (R23). -/
@[simp] theorem reg_setReg_same (w : Width) (r : RegNum) (v : BitVec w.bits) : (s.setReg w r v).reg w r = v := by
  cases w
  · simp [reg_setReg_byte]
  · simp [reg_setReg_word]

/-- Writing a view leaves every other register of the same width (R22, R23). -/
theorem reg_setReg_ne (w : Width) {r q : RegNum} (h : r ≠ q) (v : BitVec w.bits) :
    (s.setReg w r v).reg w q = s.reg w q := by
  cases w
  · simp [reg_setReg_byte, h]
  · simp [reg_setReg_word, h]

/-- A write of a byte register leaves SP, BP, SI, DI (R22). -/
theorem reg_word_setReg_byte (r q : RegNum) (h : ¬ q < 4) (v : Byte) :
    (s.setReg .byte r v).reg .word q = s.reg .word q := by
  have lo : ∀ r q : RegNum, ¬ q < 4 → r < 4 → r ≠ q := by decide
  have hi : ∀ r q : RegNum, ¬ q < 4 → ¬ r < 4 → r - 4 ≠ q := by decide
  by_cases hr : r < 4
  · simp only [State.setReg, if_pos hr, State.reg, reg32_setReg32, if_neg (lo r q h hr)]
  · simp only [State.setReg, if_neg hr, State.reg, reg32_setReg32, if_neg (hi r q h hr)]

/-- A word register is its two byte registers (R22). -/
theorem reg_word_eq_bytes (q : RegNum) (h : q < 4) :
    s.reg .word q = (s.reg .byte (q + 4) ++ s.reg .byte q : Word) := by
  have e : ∀ q : RegNum, q < 4 → ¬ (q + 4 < 4) ∧ q + 4 - 4 = q := by decide
  simp only [State.reg, if_pos h, if_neg (e q h).1, (e q h).2]
  apply BitVec.eq_of_toNat_eq
  rw [toNat_word, toNat_slice, toNat_slice, toNat_slice]
  have := (s.reg32 q).isLt
  omega

end Sys2Proof.Machine
end

