-- ==== Sys2Proof/Laws/Ops.lean ====
section
/-! SUPPORT. Each shared operation once: exactly when it answers a value, and which. Proofs cite these lemmas and do
not unfold the operations. -/

namespace Sys2Proof.Machine

/-! ## Results -/

@[simp] theorem outcome_ok (s : State) : Res.outcome (.ok s) = .next s := rfl

@[simp] theorem outcome_error (f : Fault) : Res.outcome (.error f) = .fault f := rfl

theorem outcome_next {r : Res State} {t : State} : Res.outcome r = .next t ↔ r = .ok t := by
  cases r <;> simp [Res.outcome]

theorem bind_ok {α β : Type} {r : Res α} {k : α → Res β} {b : β} :
    (r >>= k) = .ok b ↔ ∃ a, r = .ok a ∧ k a = .ok b := by
  cases r <;> simp [bind, Except.bind]

@[simp] theorem error_bind {α β : Type} (f : Fault) (k : α → Res β) : ((.error f : Res α) >>= k) = .error f := rfl

@[simp] theorem ok_bind {α β : Type} (a : α) (k : α → Res β) : ((.ok a : Res α) >>= k) = k a := rfl

/-! ## Checks and memory accesses (R50, R53) -/

theorem checkMapped_ok {s : State} {a : Nat} {w : Width} {u : Unit} :
    s.checkMapped a w = .ok u ↔ ∀ k < w.bytes, s.mapped (a + k) = true := by
  simp only [State.checkMapped]
  split <;> rename_i h <;> simpa using h

theorem checkMapped_error {s : State} {a : Nat} {w : Width} (h : ¬ ∀ k < w.bytes, s.mapped (a + k) = true) :
    s.checkMapped a w = .error (.unmapped a) := by
  rw [State.checkMapped, if_neg (by simpa using h)]

theorem checkNotCode_ok {s : State} {a : Nat} {w : Width} {u : Unit} :
    s.checkNotCode a w = .ok u ↔ ∀ k < w.bytes, s.isCode (a + k) = false := by
  simp only [State.checkNotCode]
  split <;> rename_i h <;> simpa using h

theorem checkNotCode_error {s : State} {a : Nat} {w : Width} (h : ¬ ∀ k < w.bytes, s.isCode (a + k) = false) :
    s.checkNotCode a w = .error (.codeWrite a) := by
  rw [State.checkNotCode, if_pos (by simpa using h)]

theorem checkLimit_ok {seg : SegReg} {off : Word} {n : Nat} {u : Unit} :
    checkLimit seg off n = .ok u ↔ off.toNat + n ≤ 0x10000 := by
  simp only [checkLimit]
  split
  · simp only [reduceCtorEq, false_iff]; omega
  · simp only [true_iff]; omega

theorem memRead_ok {s : State} {a : Nat} {w : Width} {v : BitVec w.bits} :
    s.memRead a w = .ok v ↔ (∀ k < w.bytes, s.mapped (a + k) = true) ∧ v = Memory.readValue s.mem a w := by
  simp only [State.memRead, bind_ok, checkMapped_ok]
  constructor
  · rintro ⟨-, h, e⟩
    exact ⟨h, (Except.ok.inj e).symm⟩
  · rintro ⟨h, rfl⟩
    exact ⟨(), h, rfl⟩

theorem memWrite_ok {s t : State} {a : Nat} {w : Width} {v : BitVec w.bits} :
    s.memWrite a w v = .ok t ↔ (∀ k < w.bytes, s.mapped (a + k) = true) ∧ (∀ k < w.bytes, s.isCode (a + k) = false) ∧
      t = { s with mem := Memory.writeValue s.mem a w v } := by
  simp only [State.memWrite, bind_ok, checkMapped_ok, checkNotCode_ok]
  constructor
  · rintro ⟨-, h, -, h', e⟩
    exact ⟨h, h', (Except.ok.inj e).symm⟩
  · rintro ⟨h, h', rfl⟩
    exact ⟨(), h, (), h', rfl⟩

/-- `SegRead` answers exactly where the operand is readable (R53). -/
theorem segRead_ok {s : State} {seg : SegReg} {off : Word} {w : Width} {v : BitVec w.bits} :
    s.segRead seg off w = .ok v ↔
      Readable s seg off w ∧ v = Memory.readValue s.mem (physAddr (s.seg seg) off.toNat) w := by
  simp only [State.segRead, bind_ok, checkLimit_ok, memRead_ok, Readable]
  constructor
  · rintro ⟨-, h, h', e⟩
    exact ⟨⟨h, h'⟩, e⟩
  · rintro ⟨⟨h, h'⟩, e⟩
    exact ⟨(), h, h', e⟩

/-- `SegWrite` answers exactly where the operand is writable (R53). -/
theorem segWrite_ok {s t : State} {seg : SegReg} {off : Word} {w : Width} {v : BitVec w.bits} :
    s.segWrite seg off w v = .ok t ↔
      Writable s seg off w ∧ t = { s with mem := Memory.writeValue s.mem (physAddr (s.seg seg) off.toNat) w v } := by
  simp only [State.segWrite, bind_ok, checkLimit_ok, memWrite_ok, Writable, Readable]
  constructor
  · rintro ⟨-, h, h', h'', e⟩
    exact ⟨⟨⟨h, h'⟩, h''⟩, e⟩
  · rintro ⟨⟨⟨h, h'⟩, h''⟩, e⟩
    exact ⟨(), h, h', h'', e⟩

/-- `SegRead` of an operand that is not readable is its model fault. -/
theorem segRead_error {s : State} {seg : SegReg} {off : Word} {w : Width} (h : ¬ Readable s seg off w) :
    s.segRead seg off w = .error (readFault s seg off w) := by
  by_cases hl : off.toNat + w.bytes ≤ 0x10000
  · have hm : ¬ ∀ k < w.bytes, s.mapped (physAddr (s.seg seg) off.toNat + k) = true := fun c => h ⟨hl, c⟩
    have hn : ¬ off.toNat + w.bytes - 1 > 0xFFFF := by omega
    simp only [State.segRead, checkLimit, if_neg hn, State.memRead, ok_bind, checkMapped_error hm, readFault,
      if_neg (Nat.not_lt.2 hl)]
    rfl
  · have hn : off.toNat + w.bytes - 1 > 0xFFFF := by omega
    simp only [State.segRead, checkLimit, if_pos hn, readFault, if_pos (Nat.not_le.1 hl)]
    rfl

/-- `SegWrite` of an operand that is not writable is its model fault. -/
theorem segWrite_error {s : State} {seg : SegReg} {off : Word} {w : Width} {v : BitVec w.bits}
    (h : ¬ Writable s seg off w) : s.segWrite seg off w v = .error (writeFault s seg off w) := by
  by_cases hr : Readable s seg off w
  · have hc : ¬ ∀ k < w.bytes, s.isCode (physAddr (s.seg seg) off.toNat + k) = false := fun c => h ⟨hr, c⟩
    have hn : ¬ off.toNat + w.bytes - 1 > 0xFFFF := by have := hr.1; omega
    have hm : s.checkMapped (physAddr (s.seg seg) off.toNat) w = .ok () := checkMapped_ok.2 hr.2
    simp only [State.segWrite, checkLimit, if_neg hn, State.memWrite, ok_bind, hm,
      checkNotCode_error hc, writeFault, if_pos hr]
    rfl
  · simp only [writeFault, if_neg hr]
    by_cases hl : off.toNat + w.bytes ≤ 0x10000
    · have hm : ¬ ∀ k < w.bytes, s.mapped (physAddr (s.seg seg) off.toNat + k) = true := fun c => hr ⟨hl, c⟩
      have hn : ¬ off.toNat + w.bytes - 1 > 0xFFFF := by omega
      simp only [State.segWrite, checkLimit, if_neg hn, State.memWrite, ok_bind, checkMapped_error hm, readFault,
        if_neg (Nat.not_lt.2 hl)]
      rfl
    · have hn : off.toNat + w.bytes - 1 > 0xFFFF := by omega
      simp only [State.segWrite, checkLimit, if_pos hn, readFault, if_pos (Nat.not_le.1 hl)]
      rfl

/-! ## The end of an instruction (R24) -/

theorem advance_ok {s t : State} {len : Nat} :
    s.advance len = .ok t ↔ Continues s len ∧ t = { s with pc := BitVec.ofNat 16 (s.pc.toNat + len) } := by
  by_cases h : s.nextOffset len > 0xFFFF
  · simp only [State.advance, if_pos h, reduceCtorEq, false_iff, Continues, not_and]
    simp only [State.nextOffset] at h
    omega
  · simp only [State.advance, if_neg h, Except.ok.injEq, Continues]
    simp only [State.nextOffset] at h
    exact ⟨fun e => ⟨by omega, e.symm⟩, fun e => e.2.symm⟩

/-- Sequential flow past FFFFh is `SegLimit` on CS (R24). -/
theorem advance_error {s : State} {len : Nat} (h : ¬ Continues s len) :
    s.advance len = .error (.segLimit .cs (s.nextOffset len)) := by
  have h' : s.nextOffset len > 0xFFFF := Nat.not_le.1 h
  rw [State.advance, if_pos h']

/-- A relative transfer: taken to (`next` + rel) mod 2^16, or on to `next` (R24, R141). -/
theorem branch_ok {s t : State} {taken : Bool} {len : Nat} {rel : Word} :
    s.branch taken len rel = .ok t ↔
      (taken = true ∧ t = { s with pc := BitVec.ofNat 16 (s.pc.toNat + len) + rel }) ∨
      (taken = false ∧ Continues s len ∧ t = { s with pc := BitVec.ofNat 16 (s.pc.toNat + len) }) := by
  cases taken
  · simp [State.branch, advance_ok]
  · simp only [State.branch, State.relTarget, State.nextWord, State.nextOffset]
    simp [eq_comm]

/-! ## Stack and interrupt entry (R64, R221) -/

theorem push16_ok {s t : State} {v : Word} :
    s.push16 v = .ok t ↔ Writable s .ss (s.reg .word spReg - 2) .word ∧
      t = { s with
            x := (s.setReg .word spReg (s.reg .word spReg - 2)).x
            mem := Memory.writeValue s.mem (physAddr s.ss (s.reg .word spReg - 2).toNat) .word v } := by
  simp only [State.push16, bind_ok, segWrite_ok]
  constructor
  · rintro ⟨u, ⟨h, rfl⟩, e⟩
    exact ⟨h, (Except.ok.inj e).symm⟩
  · rintro ⟨h, rfl⟩
    exact ⟨_, ⟨h, rfl⟩, rfl⟩

end Sys2Proof.Machine
end

