-- ==== Sys2Proof/Laws/Shapes.lean ====
section
/-! SUPPORT. The shapes that instructions share, interrupt entry and the divide error: exactly when each answers a next
state, and which. Proofs about an instruction cite the lemma of its shape. -/

namespace Sys2Proof.Machine

/-! ## Faults -/

theorem outcome_fault {r : Res State} : (∃ f, Res.outcome r = .fault f) ↔ ∀ t, r ≠ .ok t := by
  cases r <;> simp [Res.outcome]

/-! ## Registers and the rest of the state are independent -/

/-- Two register files with the same double words are the same. -/
theorem x_ext {s t : State} (h : ∀ q : RegNum, s.reg32 q = t.reg32 q) : s.x = t.x := by
  refine Vector.ext fun k hk => ?_
  have := h (BitVec.ofFin ⟨k, hk⟩)
  simpa [State.reg32, Vector.get] using this

/-- A second write of the same word register replaces the first. -/
theorem setReg_word_twice_x (s : State) (r : RegNum) (u v : Word) :
    ((s.setReg .word r u).setReg .word r v).x = (s.setReg .word r v).x := by
  refine x_ext fun q => ?_
  simp only [State.setReg, reg32_setReg32]
  split
  · rw [if_pos trivial, (slices_word _ u).2.2.2]
  · rfl

/-! ## The shapes -/

section
variable {s t : State} {w : Width} {len : Nat}

theorem binToReg_ok {op : BinOp w} {dst : RegNum} {v : BitVec w.bits} :
    s.binToReg op dst v len = .ok t ↔ Continues s len ∧
      t = { s.setReg w dst (op (s.reg w dst) v s.flags).value with
            flags := (op (s.reg w dst) v s.flags).flags, pc := pcAfter s len } := by
  simp only [State.binToReg, advance_ok, Continues, setReg_pc]

theorem unReg_ok {op : UnOp w} {dst : RegNum} :
    s.unReg op dst len = .ok t ↔ Continues s len ∧
      t = { s.setReg w dst (op (s.reg w dst) s.flags).value with
            flags := (op (s.reg w dst) s.flags).flags, pc := pcAfter s len } := by
  simp only [State.unReg, advance_ok, Continues, setReg_pc]

theorem moveToReg_ok {dst : RegNum} {v : BitVec w.bits} :
    s.moveToReg dst v len = .ok t ↔ Continues s len ∧ t = { s.setReg w dst v with pc := pcAfter s len } := by
  simp only [State.moveToReg, advance_ok, Continues, setReg_pc]

theorem readMem_ok {m : Mem} {v : BitVec w.bits} :
    s.readMem m w = .ok v ↔ Readable s (eaSeg m) (s.ea m) w ∧ v = Memory.readValue s.mem (eaAddr s m) w :=
  segRead_ok

theorem writeMem_ok {m : Mem} {v : BitVec w.bits} :
    s.writeMem s m w v = .ok t ↔
      Writable s (eaSeg m) (s.ea m) w ∧ t = { s with mem := Memory.writeValue s.mem (eaAddr s m) w v } :=
  segWrite_ok

theorem binMemToReg_ok {op : BinOp w} {dst : RegNum} {m : Mem} :
    s.binMemToReg op dst m len = .ok t ↔ Readable s (eaSeg m) (s.ea m) w ∧ Continues s len ∧
      t = { s.setReg w dst (op (s.reg w dst) (Memory.readValue s.mem (eaAddr s m) w) s.flags).value with
            flags := (op (s.reg w dst) (Memory.readValue s.mem (eaAddr s m) w) s.flags).flags
            pc := pcAfter s len } := by
  simp only [State.binMemToReg, bind_ok, readMem_ok, binToReg_ok]
  constructor
  · rintro ⟨v, ⟨h, rfl⟩, h', e⟩
    exact ⟨h, h', e⟩
  · rintro ⟨h, h', e⟩
    exact ⟨_, ⟨h, rfl⟩, h', e⟩

theorem binToMem_ok {op : BinOp w} {m : Mem} {v : BitVec w.bits} :
    s.binToMem op m v len = .ok t ↔ Writable s (eaSeg m) (s.ea m) w ∧ Continues s len ∧
      t = { s with
            mem := Memory.writeValue s.mem (eaAddr s m) w
              (op (Memory.readValue s.mem (eaAddr s m) w) v s.flags).value
            flags := (op (Memory.readValue s.mem (eaAddr s m) w) v s.flags).flags
            pc := pcAfter s len } := by
  simp only [State.binToMem, bind_ok, readMem_ok, writeMem_ok, advance_ok]
  constructor
  · rintro ⟨v, ⟨-, rfl⟩, _, ⟨h, rfl⟩, h', e⟩
    exact ⟨h, h', e⟩
  · rintro ⟨h, h', e⟩
    exact ⟨_, ⟨h.1, rfl⟩, _, ⟨h, rfl⟩, h', e⟩

theorem unMem_ok {op : UnOp w} {m : Mem} :
    s.unMem op m len = .ok t ↔ Writable s (eaSeg m) (s.ea m) w ∧ Continues s len ∧
      t = { s with
            mem := Memory.writeValue s.mem (eaAddr s m) w (op (Memory.readValue s.mem (eaAddr s m) w) s.flags).value
            flags := (op (Memory.readValue s.mem (eaAddr s m) w) s.flags).flags
            pc := pcAfter s len } := by
  simp only [State.unMem, bind_ok, readMem_ok, writeMem_ok, advance_ok]
  constructor
  · rintro ⟨v, ⟨-, rfl⟩, _, ⟨h, rfl⟩, h', e⟩
    exact ⟨h, h', e⟩
  · rintro ⟨h, h', e⟩
    exact ⟨_, ⟨h.1, rfl⟩, _, ⟨h, rfl⟩, h', e⟩

theorem moveToSeg_ok {seg : SegReg} {off : Word} {v : BitVec w.bits} :
    s.moveToSeg seg off v len = .ok t ↔ Writable s seg off w ∧ Continues s len ∧
      t = { s with
            mem := Memory.writeValue s.mem (physAddr (s.seg seg) off.toNat) w v, pc := pcAfter s len } := by
  simp only [State.moveToSeg, bind_ok, segWrite_ok, advance_ok]
  constructor
  · rintro ⟨_, ⟨h, rfl⟩, h', e⟩
    exact ⟨h, h', e⟩
  · rintro ⟨h, h', e⟩
    exact ⟨_, ⟨h, rfl⟩, h', e⟩

theorem adjustAl_ok {fn : Byte → Flags → Bool → Alu 8} :
    s.adjustAl fn len = .ok t ↔ Continues s len ∧
      t = { s.setReg .byte axReg (fn (s.reg .byte axReg) s.flags (s.draw 0)).value with
            flags := (fn (s.reg .byte axReg) s.flags (s.draw 0)).flags
            pc := pcAfter s len, draws := s.draws + 1 } := by
  simp only [State.adjustAl, State.drawn, advance_ok, Continues, setReg_pc, setReg_draws]

/-- The same for an operation that has drawn an undefined flag (OR). -/
theorem binToReg_drawn_ok {op : BinOp w} {dst : RegNum} {v : BitVec w.bits} :
    (s.drawn 1).binToReg op dst v len = .ok t ↔ Continues s len ∧
      t = { s.setReg w dst (op (s.reg w dst) v s.flags).value with
            flags := (op (s.reg w dst) v s.flags).flags, pc := pcAfter s len, draws := s.draws + 1 } := by
  rw [binToReg_ok, setReg_drawn, reg_congr (t := s.drawn 1) (s := s) rfl]
  rfl

theorem input_ok {port : Word} :
    s.input w port len = .ok t ↔ Continues s len ∧
      t = { s.setReg w axReg (s.portValue port w) with
            pc := pcAfter s len, portAnswers := s.portAnswers.tail, portReads := s.portReads + 1 } := by
  simp only [State.input, setReg_portDone, advance_ok, Continues, setReg_pc]

theorem readMem_error {m : Mem} (h : ¬ Readable s (eaSeg m) (s.ea m) w) :
    s.readMem m w = .error (readFault s (eaSeg m) (s.ea m) w) := segRead_error h

theorem binMemToReg_error {op : BinOp w} {dst : RegNum} {m : Mem} (h : ¬ Readable s (eaSeg m) (s.ea m) w) :
    s.binMemToReg op dst m len = .error (readFault s (eaSeg m) (s.ea m) w) := by
  rw [State.binMemToReg, readMem_error h, error_bind]

theorem binToMem_error {op : BinOp w} {m : Mem} {v : BitVec w.bits} (h : ¬ Writable s (eaSeg m) (s.ea m) w) :
    s.binToMem op m v len = .error (writeFault s (eaSeg m) (s.ea m) w) := by
  rw [State.binToMem]
  by_cases hr : Readable s (eaSeg m) (s.ea m) w
  · simp only [readMem_ok.2 ⟨hr, rfl⟩, ok_bind, State.writeMem, segWrite_error h, error_bind]
  · rw [readMem_error hr, error_bind, writeFault, if_neg hr]

theorem unMem_error {op : UnOp w} {m : Mem} (h : ¬ Writable s (eaSeg m) (s.ea m) w) :
    s.unMem op m len = .error (writeFault s (eaSeg m) (s.ea m) w) := by
  rw [State.unMem]
  by_cases hr : Readable s (eaSeg m) (s.ea m) w
  · simp only [readMem_ok.2 ⟨hr, rfl⟩, ok_bind, State.writeMem, segWrite_error h, error_bind]
  · rw [readMem_error hr, error_bind, writeFault, if_neg hr]

theorem moveToSeg_error {seg : SegReg} {off : Word} {v : BitVec w.bits} (h : ¬ Writable s seg off w) :
    s.moveToSeg seg off v len = .error (writeFault s seg off w) := by
  rw [State.moveToSeg, segWrite_error h, error_bind]

/-! ### Past the end of the segment: the operands are accessible and `next` exceeds FFFFh (R24, R226) -/

theorem endsPastSegment_error {r : Res State} {off : Nat} (h : r = .error (.segLimit .cs off)) :
    EndsPastSegment (Res.outcome r) := ⟨off, by rw [h]; rfl⟩

theorem advance_limit {u : State} (hp : u.pc = s.pc) (hc : ¬ Continues s len) :
    u.advance len = .error (.segLimit .cs (s.nextOffset len)) := by
  have hu : ¬ Continues u len := by rwa [Continues, hp]
  rw [advance_error hu, State.nextOffset, hp, State.nextOffset]

theorem binToReg_limit {op : BinOp w} {dst : RegNum} {v : BitVec w.bits} (hc : ¬ Continues s len) :
    s.binToReg op dst v len = .error (.segLimit .cs (s.nextOffset len)) :=
  advance_limit (setReg_pc ..) hc

theorem unReg_limit {op : UnOp w} {dst : RegNum} (hc : ¬ Continues s len) :
    s.unReg op dst len = .error (.segLimit .cs (s.nextOffset len)) :=
  advance_limit (setReg_pc ..) hc

theorem moveToReg_limit {dst : RegNum} {v : BitVec w.bits} (hc : ¬ Continues s len) :
    s.moveToReg dst v len = .error (.segLimit .cs (s.nextOffset len)) :=
  advance_limit (setReg_pc ..) hc

theorem adjustAl_limit {fn : Byte → Flags → Bool → Alu 8} (hc : ¬ Continues s len) :
    s.adjustAl fn len = .error (.segLimit .cs (s.nextOffset len)) :=
  advance_limit (setReg_pc ..) hc

theorem input_limit {port : Word} (hc : ¬ Continues s len) :
    s.input w port len = .error (.segLimit .cs (s.nextOffset len)) :=
  advance_limit (setReg_pc ..) hc

theorem branch_limit {u : State} {rel : Word} (hp : u.pc = s.pc) (hc : ¬ Continues s len) :
    u.branch false len rel = .error (.segLimit .cs (s.nextOffset len)) :=
  advance_limit hp hc

theorem binMemToReg_limit {op : BinOp w} {dst : RegNum} {m : Mem} (h : Readable s (eaSeg m) (s.ea m) w)
    (hc : ¬ Continues s len) : s.binMemToReg op dst m len = .error (.segLimit .cs (s.nextOffset len)) := by
  rw [State.binMemToReg, readMem_ok.2 ⟨h, rfl⟩, ok_bind, binToReg_limit hc]

theorem binToMem_limit {op : BinOp w} {m : Mem} {v : BitVec w.bits} (h : Writable s (eaSeg m) (s.ea m) w)
    (hc : ¬ Continues s len) : s.binToMem op m v len = .error (.segLimit .cs (s.nextOffset len)) := by
  simp only [State.binToMem, readMem_ok.2 ⟨h.1, rfl⟩, ok_bind, writeMem_ok.2 ⟨h, rfl⟩]
  exact advance_limit rfl hc

theorem unMem_limit {op : UnOp w} {m : Mem} (h : Writable s (eaSeg m) (s.ea m) w) (hc : ¬ Continues s len) :
    s.unMem op m len = .error (.segLimit .cs (s.nextOffset len)) := by
  simp only [State.unMem, readMem_ok.2 ⟨h.1, rfl⟩, ok_bind, writeMem_ok.2 ⟨h, rfl⟩]
  exact advance_limit rfl hc

theorem moveToSeg_limit {seg : SegReg} {off : Word} {v : BitVec w.bits} (h : Writable s seg off w)
    (hc : ¬ Continues s len) : s.moveToSeg seg off v len = .error (.segLimit .cs (s.nextOffset len)) := by
  rw [State.moveToSeg, segWrite_ok.2 ⟨h, rfl⟩, ok_bind]
  exact advance_limit rfl hc

end

/-! ## Interrupt entry (R221) -/

/-- Memory after the three pushes of an interrupt entry: FLAGS, CS, the return offset. -/
def pushedMemory (s : State) (ret : Word) : Memory :=
  Memory.writeValue
    (Memory.writeValue
      (Memory.writeValue s.mem (physAddr s.ss (s.reg .word spReg - 2).toNat) .word s.flags.toWord)
      (physAddr s.ss (s.reg .word spReg - 4).toNat) .word s.cs)
    (physAddr s.ss (s.reg .word spReg - 6).toNat) .word ret

/-- Where bytes can be written does not depend on registers, memory, flags or the oracle. -/
theorem writable_congr {s t : State} (hm : t.memMap = s.memMap) (hc : t.codeRegion = s.codeRegion) {seg : SegReg}
    (hs : t.seg seg = s.seg seg) (off : Word) (w : Width) : Writable t seg off w ↔ Writable s seg off w := by
  simp only [Writable, Readable, State.mapped, State.isCode, hm, hc, hs]

/-- Interrupt entry answers exactly where the three words can be pushed and the table entry is mapped. -/
theorem interrupt_ok {s t : State} {n : Byte} {ret : Word} :
    s.interrupt n ret = .ok t ↔ StackRoom s ∧ VectorMapped s n ∧
      t = { s with
            x := (s.setReg .word spReg (s.reg .word spReg - 6)).x
            mem := pushedMemory s ret
            flags := { s.flags with intf := false, tf := false }
            cs := Memory.readValue (pushedMemory s ret) (4 * n.toNat + 2) .word
            pc := Memory.readValue (pushedMemory s ret) (4 * n.toNat) .word } := by
  have e4 : ∀ a : Word, a - 2 - 2 = a - 4 := by intro a; bv_omega
  have e6 : ∀ a : Word, a - 4 - 2 = a - 6 := by intro a; bv_omega
  have hv : vectorAddr n = 4 * n.toNat := by simp [vectorAddr, Config.physMap, Config.ivtBase]
  -- the three states after the pushes
  have key : ∀ s1 s3 s4 : State,
      s1 = { s with
             x := (s.setReg .word spReg (s.reg .word spReg - 2)).x
             mem := Memory.writeValue s.mem (physAddr s.ss (s.reg .word spReg - 2).toNat) .word s.flags.toWord } →
      ∀ s2 : State, s2 = { s1 with flags := { s1.flags with intf := false, tf := false } } →
      s3 = { s2 with
             x := (s2.setReg .word spReg (s2.reg .word spReg - 2)).x
             mem := Memory.writeValue s2.mem (physAddr s2.ss (s2.reg .word spReg - 2).toNat) .word s2.cs } →
      s4 = { s3 with
             x := (s3.setReg .word spReg (s3.reg .word spReg - 2)).x
             mem := Memory.writeValue s3.mem (physAddr s3.ss (s3.reg .word spReg - 2).toNat) .word ret } →
      s2.reg .word spReg = s.reg .word spReg - 2 ∧ s3.reg .word spReg = s.reg .word spReg - 4 ∧
      s4 = { s with
             x := (s.setReg .word spReg (s.reg .word spReg - 6)).x
             mem := pushedMemory s ret
             flags := { s.flags with intf := false, tf := false } } := by
    intro s1 s3 s4 h1 s2 h2 h3 h4
    have x2 : s2.x = (s.setReg .word spReg (s.reg .word spReg - 2)).x := by rw [h2, h1]
    have r2 : s2.reg .word spReg = s.reg .word spReg - 2 := by
      rw [reg_congr x2, reg_setReg_same]
    have x3 : s3.x = (s.setReg .word spReg (s.reg .word spReg - 4)).x := by
      rw [h3, r2, e4]
      exact (setReg_x_congr x2 _ _ _).trans (setReg_word_twice_x s spReg _ _)
    have r3 : s3.reg .word spReg = s.reg .word spReg - 4 := by
      rw [reg_congr x3, reg_setReg_same]
    have x4 : s4.x = (s.setReg .word spReg (s.reg .word spReg - 6)).x := by
      rw [h4, r3, e6]
      exact (setReg_x_congr x3 _ _ _).trans (setReg_word_twice_x s spReg _ _)
    refine ⟨r2, r3, ?_⟩
    apply State.ext
    · exact x4
    all_goals rw [h4]
    case mem => rw [r3, e6, h3, r2, e4, h2, h1]; rfl
    all_goals rw [h3, h2, h1]
  simp only [State.interrupt, bind_ok, push16_ok, hv]
  constructor
  · rintro ⟨s1, ⟨w1, h1⟩, s3, ⟨w2, h3⟩, s4, ⟨w3, h4⟩, off, mo, sel, ms, e⟩
    obtain ⟨m1, eo⟩ := memRead_ok.1 mo
    obtain ⟨m2, es⟩ := memRead_ok.1 ms
    obtain ⟨r2, r3, e4'⟩ := key s1 s3 s4 h1 _ rfl h3 h4
    rw [r2, e4, writable_congr (by rw [h1]) (by rw [h1]) (by rw [h1])] at w2
    rw [r3, e6, writable_congr (by rw [h3, h1]) (by rw [h3, h1]) (by rw [h3, h1])] at w3
    subst e4'
    refine ⟨⟨w1, w2, w3⟩, ?_, ?_⟩
    · intro k hk
      have := m1 0 (by decide)
      have := m1 1 (by decide)
      have := m2 0 (by decide)
      have := m2 1 (by decide)
      interval_cases k <;> assumption
    · rw [← Except.ok.inj e, eo, es]
  · rintro ⟨⟨w1, w2, w3⟩, hm, rfl⟩
    obtain ⟨s1, h1⟩ : ∃ s1 : State, s1 = { s with
      x := (s.setReg .word spReg (s.reg .word spReg - 2)).x
      mem := Memory.writeValue s.mem (physAddr s.ss (s.reg .word spReg - 2).toNat) .word s.flags.toWord } := ⟨_, rfl⟩
    obtain ⟨s2, h2⟩ : ∃ s2 : State, s2 = { s1 with flags := { s1.flags with intf := false, tf := false } } := ⟨_, rfl⟩
    obtain ⟨s3, h3⟩ : ∃ s3 : State, s3 = { s2 with
      x := (s2.setReg .word spReg (s2.reg .word spReg - 2)).x
      mem := Memory.writeValue s2.mem (physAddr s2.ss (s2.reg .word spReg - 2).toNat) .word s2.cs } := ⟨_, rfl⟩
    obtain ⟨s4, h4⟩ : ∃ s4 : State, s4 = { s3 with
      x := (s3.setReg .word spReg (s3.reg .word spReg - 2)).x
      mem := Memory.writeValue s3.mem (physAddr s3.ss (s3.reg .word spReg - 2).toNat) .word ret } := ⟨_, rfl⟩
    obtain ⟨r2, r3, e4'⟩ := key s1 s3 s4 h1 s2 h2 h3 h4
    refine ⟨s1, ⟨w1, h1⟩, s3, ⟨?_, by rw [h3, h2]⟩, s4, ⟨?_, h4⟩, _, memRead_ok.2 ⟨?_, rfl⟩, _, memRead_ok.2 ⟨?_, rfl⟩, ?_⟩
    · rw [← h2, r2, e4, writable_congr (by rw [h2, h1]) (by rw [h2, h1]) (by rw [h2, h1])]
      exact w2
    · rw [r3, e6, writable_congr (by rw [h3, h2, h1]) (by rw [h3, h2, h1]) (by rw [h3, h2, h1])]
      exact w3
    · rw [e4']
      exact fun k hk => hm k (by simp [Width.bytes] at hk; omega)
    · rw [e4']
      intro k hk
      have := hm (2 + k) (by simp [Width.bytes] at hk; omega)
      rwa [← Nat.add_assoc] at this
    · rw [e4']
      rfl

/-! ## DIV (R164) -/

theorem putQuotient_eq (s : State) (w : Width) (q rem : Nat) :
    s.putQuotient w q rem = { s with x := (s.putQuotient w q rem).x } := by
  cases w
  · exact (setReg_eq _ .byte ahReg _).trans (by rw [setReg_eq s .byte axReg]; rfl)
  · exact (setReg_eq _ .word dxReg _).trans (by rw [setReg_eq s .word axReg]; rfl)

/-- DIV completes where the divisor is not 0 and the quotient fits; otherwise it enters vector 0 with its own offset. -/
theorem divCore_ok {s t : State} {w : Width} {d : BitVec w.bits} {len : Nat} :
    s.divCore w d len = .ok t ↔
      (d ≠ 0 ∧ s.dividend w / d.toNat ≤ 2 ^ w.bits - 1 ∧ Continues s len ∧
        t = { s with
              x := (s.putQuotient w (s.dividend w / d.toNat) (s.dividend w % d.toNat)).x
              flags := s.divFlags, pc := pcAfter s len, draws := s.draws + 6 }) ∨
      ((d = 0 ∨ 2 ^ w.bits - 1 < s.dividend w / d.toNat) ∧ s.interrupt 0 s.pc = .ok t) := by
  simp only [State.divCore, State.divideError, divReturn, Config.divRet]
  by_cases hd : d = 0
  · simp [hd]
  · simp only [if_neg hd]
    by_cases hq : s.dividend w / d.toNat > 2 ^ w.bits - 1
    · simp only [if_pos hq]
      simp only [hd, false_or, ne_eq, not_false_eq_true, true_and, Nat.not_le.2 hq, false_and]
      exact ⟨fun h => ⟨hq, h⟩, fun h => h.2⟩
    · simp only [if_neg hq, advance_ok, State.drawn]
      rw [putQuotient_eq]
      simp only [hd, Continues, ne_eq, not_false_eq_true, true_and, Nat.not_lt.1 hq, Nat.not_lt.2 (Nat.not_lt.1 hq),
        false_and, or_false]

/-! ## INS (R182) -/

theorem ins_ok {s t : State} {w : Width} :
    execIns w s = .next t ↔ Writable s .es (s.reg .word diReg) w ∧ Continues s 1 ∧
      t = { s with
            x := (s.setReg .word diReg (s.stepDi w)).x
            mem := Memory.writeValue s.mem (physAddr s.es (s.reg .word diReg).toNat) w
              (s.portValue (s.reg .word dxReg) w)
            pc := pcAfter s 1, portAnswers := s.portAnswers.tail, portReads := s.portReads + 1 } := by
  simp only [execIns, outcome_next, bind_ok, segWrite_ok, advance_ok, Continues, setReg_pc]
  have hw : Writable s.portDone .es (s.reg .word diReg) w ↔ Writable s .es (s.reg .word diReg) w :=
    writable_congr rfl rfl rfl _ _
  constructor
  · rintro ⟨_, ⟨h, rfl⟩, h', rfl⟩
    refine ⟨hw.1 h, h', ?_⟩
    rw [setReg_eq, setReg_x_congr (t := s) rfl]
    rfl
  · rintro ⟨h, h', rfl⟩
    refine ⟨_, ⟨hw.2 h, rfl⟩, h', ?_⟩
    rw [setReg_eq, setReg_x_congr (t := s) rfl]
    rfl

theorem ins_error {s : State} {w : Width} (h : ¬ Writable s .es (s.reg .word diReg) w) :
    execIns w s = .fault (writeFault s .es (s.reg .word diReg) w) := by
  have h' : ¬ Writable s.portDone .es (s.reg .word diReg) w := fun c => h ((writable_congr rfl rfl rfl _ _).1 c)
  simp only [execIns, segWrite_error h', error_bind, outcome_error]
  rfl

theorem ins_limit {s : State} {w : Width} (h : Writable s .es (s.reg .word diReg) w) (hc : ¬ Continues s 1) :
    EndsPastSegment (execIns w s) := by
  have h' : Writable s.portDone .es (s.reg .word diReg) w := (writable_congr rfl rfl rfl _ _).2 h
  simp only [execIns, segWrite_ok.2 ⟨h', rfl⟩, ok_bind]
  exact endsPastSegment_error (advance_limit (setReg_pc ..) hc)

/-- DIV whose quotient fits and whose `next` exceeds FFFFh (R164, R226). -/
theorem divCore_limit {s : State} {w : Width} {d : BitVec w.bits} {len : Nat} (hd : d ≠ 0)
    (hq : s.dividend w / d.toNat ≤ 2 ^ w.bits - 1) (hc : ¬ Continues s len) :
    s.divCore w d len = .error (.segLimit .cs (s.nextOffset len)) := by
  simp only [State.divCore, if_neg hd, if_neg (Nat.not_lt.2 hq), State.drawn]
  refine advance_limit ?_ hc
  cases w <;> simp only [State.putQuotient, setReg_pc]

end Sys2Proof.Machine
end

