-- ==== Sys2Proof/Laws/Interrupt.lean ====
section
/-! SUPPORT. Memory after the three pushes of an interrupt entry (spec R64, R221): the three words read back, every other
byte is as before, the canonical form is kept. -/

namespace Sys2Proof.Machine

theorem word_sub_toNat (a : Word) (k : Nat) (hk : k ≤ 6) :
    (a - BitVec.ofNat 16 k).toNat = (a.toNat + 65536 - k) % 65536 := by
  rw [BitVec.toNat_sub]
  simp
  omega

/-- The words at two of SP − 2, SP − 4, SP − 6 share no byte where both lie inside the segment. -/
theorem push_slots_apart (ss sp : Word) {i j : Nat} (hi : i ∈ [2, 4, 6]) (hj : j ∈ [2, 4, 6]) (hij : i ≠ j)
    (li : (sp - BitVec.ofNat 16 i).toNat + 2 ≤ 0x10000) (lj : (sp - BitVec.ofNat 16 j).toNat + 2 ≤ 0x10000)
    (k : Nat) (hk : k < Width.bytes .word) (l : Nat) (hl : l < Width.bytes .word) :
    physAddr ss (sp - BitVec.ofNat 16 i).toNat + k ≠ physAddr ss (sp - BitVec.ofNat 16 j).toNat + l := by
  simp only [List.mem_cons, List.not_mem_nil, or_false] at hi hj
  rw [word_sub_toNat sp i (by omega)] at li ⊢
  rw [word_sub_toNat sp j (by omega)] at lj ⊢
  have := sp.isLt
  simp only [Width.bytes] at hk hl
  simp only [physAddr, Config.physMap]
  rcases hi with rfl | rfl | rfl <;> rcases hj with rfl | rfl | rfl <;> omega

variable {s : State} {ret : Word}

theorem wf_pushedMemory (h : Memory.wf s.mem = true) : Memory.wf (pushedMemory s ret) = true :=
  Memory.wf_writeValue (Memory.wf_writeValue (Memory.wf_writeValue h _ _ _) _ _ _) _ _ _

/-- The three words of an interrupt entry, as they read afterwards. -/
theorem pushedMemory_words (hm : Memory.wf s.mem = true) (h : StackRoom s) :
    Memory.readValue (pushedMemory s ret) (physAddr s.ss (s.reg .word spReg - 2).toNat) .word = s.flags.toWord ∧
    Memory.readValue (pushedMemory s ret) (physAddr s.ss (s.reg .word spReg - 4).toNat) .word = s.cs ∧
    Memory.readValue (pushedMemory s ret) (physAddr s.ss (s.reg .word spReg - 6).toNat) .word = ret := by
  obtain ⟨h2, h4, h6⟩ := h
  have d24 : ∀ k < Width.bytes .word, ∀ l < Width.bytes .word,
      physAddr s.ss (s.reg .word spReg - 2).toNat + k ≠ physAddr s.ss (s.reg .word spReg - 4).toNat + l :=
    push_slots_apart s.ss (s.reg .word spReg) (i := 2) (j := 4) (by decide) (by decide) (by decide) h2.1.1 h4.1.1
  have d26 : ∀ k < Width.bytes .word, ∀ l < Width.bytes .word,
      physAddr s.ss (s.reg .word spReg - 2).toNat + k ≠ physAddr s.ss (s.reg .word spReg - 6).toNat + l :=
    push_slots_apart s.ss (s.reg .word spReg) (i := 2) (j := 6) (by decide) (by decide) (by decide) h2.1.1 h6.1.1
  have d46 : ∀ k < Width.bytes .word, ∀ l < Width.bytes .word,
      physAddr s.ss (s.reg .word spReg - 4).toNat + k ≠ physAddr s.ss (s.reg .word spReg - 6).toNat + l :=
    push_slots_apart s.ss (s.reg .word spReg) (i := 4) (j := 6) (by decide) (by decide) (by decide) h4.1.1 h6.1.1
  refine ⟨?_, ?_, ?_⟩
  · rw [pushedMemory, Memory.readValue_writeValue_ne _ _ d26, Memory.readValue_writeValue_ne _ _ d24,
      Memory.readValue_writeValue hm]
  · rw [pushedMemory, Memory.readValue_writeValue_ne _ _ d46,
      Memory.readValue_writeValue (Memory.wf_writeValue hm _ _ _)]
  · rw [pushedMemory, Memory.readValue_writeValue (Memory.wf_writeValue (Memory.wf_writeValue hm _ _ _) _ _ _)]

/-- Every byte outside the three words is as before. -/
theorem pushedMemory_frame {a : Nat}
    (h : ∀ j ∈ [2, 4, 6], ∀ k < 2, a ≠ physAddr s.ss (s.reg .word spReg - BitVec.ofNat 16 j).toNat + k) :
    Memory.read (pushedMemory s ret) a = Memory.read s.mem a := by
  rw [pushedMemory, Memory.read_writeValue_ne, Memory.read_writeValue_ne, Memory.read_writeValue_ne]
  · exact h 2 (by decide)
  · exact h 4 (by decide)
  · exact h 6 (by decide)

end Sys2Proof.Machine
end

