-- ==== Sys2Proof/Laws/PerInstr.lean ====
section
/-! SUPPORT. The per-instruction family `EncodedLength`: an instruction's encoding has as many bytes as the length
table says (spec R105), whatever its operands. -/

namespace Sys2Proof.Laws.EncodedLength

/-- The bytes that spell an instruction are as many as its length (R105). -/
def Statement (i : Instr) : Prop := (encode i).length = i.length

theorem op_mem (op : Byte) (field : BitVec 3) (m : Mem) : (op :: modRMMem field m).length = 2 + m.dispLength := by
  cases m <;> rfl

theorem op_imm (op : Byte) (imm : Imm) : (op :: imm.bytes).length = 1 + imm.length := by cases imm <;> rfl

theorem op_reg_imm (op : Byte) (field : BitVec 3) (r : RegNum) (imm : Imm) :
    (op :: modRMReg field r ++ imm.bytes).length = 2 + imm.length := by cases imm <;> rfl

theorem op_reg_immSW (op : Byte) (field : BitVec 3) (r : RegNum) (imm : ImmSW) :
    (op :: modRMReg field r ++ imm.bytes).length = 2 + imm.length := by cases imm <;> rfl

theorem op_mem_imm (op : Byte) (field : BitVec 3) (m : Mem) (imm : Imm) :
    (op :: modRMMem field m ++ imm.bytes).length = 2 + m.dispLength + imm.length := by
  cases m <;> cases imm <;> rfl

theorem op_mem_immSW (op : Byte) (field : BitVec 3) (m : Mem) (imm : ImmSW) :
    (op :: modRMMem field m ++ imm.bytes).length = 2 + m.dispLength + imm.length := by
  cases m <;> cases imm <;> rfl

theorem addReg1ToReg2 (w : Width) (reg1 reg2 : RegNum) : Statement (.addReg1ToReg2 w reg1 reg2) := rfl
theorem addReg2ToReg1 (w : Width) (reg1 reg2 : RegNum) : Statement (.addReg2ToReg1 w reg1 reg2) := rfl
theorem addMemToReg (w : Width) (reg : RegNum) (m : Mem) : Statement (.addMemToReg w reg m) := op_mem _ _ _
theorem addRegToMem (w : Width) (reg : RegNum) (m : Mem) : Statement (.addRegToMem w reg m) := op_mem _ _ _
theorem addImmToReg (imm : ImmSW) (reg : RegNum) : Statement (.addImmToReg imm reg) := op_reg_immSW _ _ _ _
theorem addImmToAcc (imm : Imm) : Statement (.addImmToAcc imm) := op_imm _ _
theorem addImmToMem (imm : ImmSW) (m : Mem) : Statement (.addImmToMem imm m) := op_mem_immSW _ _ _ _
theorem daa : Statement .daa := rfl
theorem das : Statement .das := rfl
theorem decReg (w : Width) (reg : RegNum) : Statement (.decReg w reg) := rfl
theorem decRegAlt (reg : RegNum) : Statement (.decRegAlt reg) := rfl
theorem decMem (w : Width) (m : Mem) : Statement (.decMem w m) := op_mem _ _ _
theorem divReg (w : Width) (reg : RegNum) : Statement (.divReg w reg) := rfl
theorem divMem (w : Width) (m : Mem) : Statement (.divMem w m) := op_mem _ _ _
theorem inFixed (w : Width) (port : Byte) : Statement (.inFixed w port) := rfl
theorem inVariable (w : Width) : Statement (.inVariable w) := rfl
theorem incReg (w : Width) (reg : RegNum) : Statement (.incReg w reg) := rfl
theorem incRegAlt (reg : RegNum) : Statement (.incRegAlt reg) := rfl
theorem incMem (w : Width) (m : Mem) : Statement (.incMem w m) := op_mem _ _ _
theorem ins (w : Width) : Statement (.ins w) := rfl
theorem intN (type : Byte) : Statement (.intN type) := rfl
theorem int3 : Statement .int3 := rfl
theorem joShort (d : Byte) : Statement (.joShort d) := rfl
theorem jnoShort (d : Byte) : Statement (.jnoShort d) := rfl
theorem jbShort (d : Byte) : Statement (.jbShort d) := rfl
theorem jnbShort (d : Byte) : Statement (.jnbShort d) := rfl
theorem jeShort (d : Byte) : Statement (.jeShort d) := rfl
theorem jneShort (d : Byte) : Statement (.jneShort d) := rfl
theorem jbeShort (d : Byte) : Statement (.jbeShort d) := rfl
theorem jnbeShort (d : Byte) : Statement (.jnbeShort d) := rfl
theorem jsShort (d : Byte) : Statement (.jsShort d) := rfl
theorem jnsShort (d : Byte) : Statement (.jnsShort d) := rfl
theorem jpShort (d : Byte) : Statement (.jpShort d) := rfl
theorem jnpShort (d : Byte) : Statement (.jnpShort d) := rfl
theorem jlShort (d : Byte) : Statement (.jlShort d) := rfl
theorem jnlShort (d : Byte) : Statement (.jnlShort d) := rfl
theorem jleShort (d : Byte) : Statement (.jleShort d) := rfl
theorem jnleShort (d : Byte) : Statement (.jnleShort d) := rfl
theorem joFull (d : Word) : Statement (.joFull d) := rfl
theorem jnoFull (d : Word) : Statement (.jnoFull d) := rfl
theorem jbFull (d : Word) : Statement (.jbFull d) := rfl
theorem jnbFull (d : Word) : Statement (.jnbFull d) := rfl
theorem jeFull (d : Word) : Statement (.jeFull d) := rfl
theorem jneFull (d : Word) : Statement (.jneFull d) := rfl
theorem jbeFull (d : Word) : Statement (.jbeFull d) := rfl
theorem jnbeFull (d : Word) : Statement (.jnbeFull d) := rfl
theorem jsFull (d : Word) : Statement (.jsFull d) := rfl
theorem jnsFull (d : Word) : Statement (.jnsFull d) := rfl
theorem jpFull (d : Word) : Statement (.jpFull d) := rfl
theorem jnpFull (d : Word) : Statement (.jnpFull d) := rfl
theorem jlFull (d : Word) : Statement (.jlFull d) := rfl
theorem jnlFull (d : Word) : Statement (.jnlFull d) := rfl
theorem jleFull (d : Word) : Statement (.jleFull d) := rfl
theorem jnleFull (d : Word) : Statement (.jnleFull d) := rfl
theorem jcxz (d : Byte) : Statement (.jcxz d) := rfl
theorem jmpShort (d : Byte) : Statement (.jmpShort d) := rfl
theorem jmpDirect (d : Word) : Statement (.jmpDirect d) := rfl
theorem jmpReg (reg : RegNum) : Statement (.jmpReg reg) := rfl
theorem jmpMem (m : Mem) : Statement (.jmpMem m) := op_mem _ _ _
theorem jmpFar (offset selector : Word) : Statement (.jmpFar offset selector) := rfl
theorem jmpFarMem (m : Mem) : Statement (.jmpFarMem m) := op_mem _ _ _
theorem loop (d : Byte) : Statement (.loop d) := rfl
theorem movReg1ToReg2 (w : Width) (reg1 reg2 : RegNum) : Statement (.movReg1ToReg2 w reg1 reg2) := rfl
theorem movReg2ToReg1 (w : Width) (reg1 reg2 : RegNum) : Statement (.movReg2ToReg1 w reg1 reg2) := rfl
theorem movMemToReg (w : Width) (reg : RegNum) (m : Mem) : Statement (.movMemToReg w reg m) := op_mem _ _ _
theorem movRegToMem (w : Width) (reg : RegNum) (m : Mem) : Statement (.movRegToMem w reg m) := op_mem _ _ _
theorem movImmToReg (imm : Imm) (reg : RegNum) : Statement (.movImmToReg imm reg) := op_reg_imm _ _ _ _
theorem movImmToRegAlt (imm : Imm) (reg : RegNum) : Statement (.movImmToRegAlt imm reg) := op_imm _ _
theorem movImmToMem (imm : Imm) (m : Mem) : Statement (.movImmToMem imm m) := op_mem_imm _ _ _ _
theorem movMemToAcc (w : Width) (offset : Word) : Statement (.movMemToAcc w offset) := rfl
theorem movAccToMem (w : Width) (offset : Word) : Statement (.movAccToMem w offset) := rfl
theorem nop : Statement .nop := rfl
theorem notReg (w : Width) (reg : RegNum) : Statement (.notReg w reg) := rfl
theorem notMem (w : Width) (m : Mem) : Statement (.notMem w m) := op_mem _ _ _
theorem orReg1ToReg2 (w : Width) (reg1 reg2 : RegNum) : Statement (.orReg1ToReg2 w reg1 reg2) := rfl
theorem orReg2ToReg1 (w : Width) (reg1 reg2 : RegNum) : Statement (.orReg2ToReg1 w reg1 reg2) := rfl
theorem subReg1ToReg2 (w : Width) (reg1 reg2 : RegNum) : Statement (.subReg1ToReg2 w reg1 reg2) := rfl
theorem subReg2ToReg1 (w : Width) (reg1 reg2 : RegNum) : Statement (.subReg2ToReg1 w reg1 reg2) := rfl
theorem subMemToReg (w : Width) (reg : RegNum) (m : Mem) : Statement (.subMemToReg w reg m) := op_mem _ _ _
theorem subRegToMem (w : Width) (reg : RegNum) (m : Mem) : Statement (.subRegToMem w reg m) := op_mem _ _ _
theorem subImmToReg (imm : ImmSW) (reg : RegNum) : Statement (.subImmToReg imm reg) := op_reg_immSW _ _ _ _
theorem subImmToAcc (imm : Imm) : Statement (.subImmToAcc imm) := op_imm _ _
theorem subImmToMem (imm : ImmSW) (m : Mem) : Statement (.subImmToMem imm m) := op_mem_immSW _ _ _ _

end Sys2Proof.Laws.EncodedLength
end

