-- ==== Sys2Proof/Laws/Step.lean ====
section
/-! SUPPORT. What a step can do, once: every next state of an instruction is one of seven effects. -/

namespace Sys2Proof.Machine

/-- The effects an instruction that completes can have. -/
inductive Effect (s : State) : State → Prop
  /-- one view of a register, the six status flags, IP -/
  | register (w : Width) (r : RegNum) (v : BitVec w.bits) (f : Flags) (pc : Word) (draws : Nat)
      (hf : OnlyStatusFlags s.flags f) :
      Effect s { s with x := (s.setReg w r v).x, flags := f, pc := pc, draws := draws }
  /-- the bytes at a writable offset of a segment, the six status flags, IP -/
  | store (seg : SegReg) (off : Word) (w : Width) (v : BitVec w.bits) (f : Flags) (pc : Word)
      (hw : Writable s seg off w) (hf : OnlyStatusFlags s.flags f) :
      Effect s { s with
        mem := Memory.writeValue s.mem (physAddr (s.seg seg) off.toNat) w v, flags := f, pc := pc }
  /-- IP and, for a jump to another segment, CS -/
  | transfer (cs pc : Word) : Effect s { s with cs := cs, pc := pc }
  /-- AL or AX from a port -/
  | input (w : Width) (v : BitVec w.bits) (pc : Word) :
      Effect s { s with
        x := (s.setReg w axReg v).x, pc := pc, portAnswers := s.portAnswers.tail, portReads := s.portReads + 1 }
  /-- ES:DI from a port, and DI -/
  | ins (w : Width) (v : BitVec w.bits) (di pc : Word) (hw : Writable s .es (s.reg .word diReg) w) :
      Effect s { s with
        x := (s.setReg .word diReg di).x
        mem := Memory.writeValue s.mem (physAddr s.es (s.reg .word diReg).toNat) w v
        pc := pc, portAnswers := s.portAnswers.tail, portReads := s.portReads + 1 }
  /-- quotient and remainder, the six status flags, IP -/
  | divide (w : Width) (q rem : Nat) (pc : Word) :
      Effect s { s with x := (s.putQuotient w q rem).x, flags := s.divFlags, pc := pc, draws := s.draws + 6 }
  /-- interrupt entry -/
  | enter (n : Byte) (ret : Word) (hs : StackRoom s) :
      Effect s { s with
        x := (s.setReg .word spReg (s.reg .word spReg - 6)).x
        mem := pushedMemory s ret
        flags := { s.flags with intf := false, tf := false }
        cs := Memory.readValue (pushedMemory s ret) (4 * n.toNat + 2) .word
        pc := Memory.readValue (pushedMemory s ret) (4 * n.toNat) .word }

section
variable {s t : State} {w : Width} {len : Nat}

theorem effect_binToReg {op : BinOp w} (hop : ∀ a b f, OnlyStatusFlags f (op a b f).flags) {dst : RegNum}
    {v : BitVec w.bits} (h : s.binToReg op dst v len = .ok t) : Effect s t := by
  obtain ⟨-, rfl⟩ := binToReg_ok.1 h
  rw [setReg_eq]
  exact .register w dst _ _ _ s.draws (hop _ _ _)

theorem effect_binToReg_drawn {op : BinOp w} (hop : ∀ a b f, OnlyStatusFlags f (op a b f).flags) {dst : RegNum}
    {v : BitVec w.bits} (h : (s.drawn 1).binToReg op dst v len = .ok t) : Effect s t := by
  obtain ⟨-, rfl⟩ := binToReg_drawn_ok.1 h
  rw [setReg_eq]
  exact .register w dst _ _ _ _ (hop _ _ _)

theorem effect_binMemToReg {op : BinOp w} (hop : ∀ a b f, OnlyStatusFlags f (op a b f).flags) {dst : RegNum} {m : Mem}
    (h : s.binMemToReg op dst m len = .ok t) : Effect s t := by
  obtain ⟨-, -, rfl⟩ := binMemToReg_ok.1 h
  rw [setReg_eq]
  exact .register w dst _ _ _ s.draws (hop _ _ _)

theorem effect_binToMem {op : BinOp w} (hop : ∀ a b f, OnlyStatusFlags f (op a b f).flags) {m : Mem}
    {v : BitVec w.bits} (h : s.binToMem op m v len = .ok t) : Effect s t := by
  obtain ⟨hw, -, rfl⟩ := binToMem_ok.1 h
  exact .store _ _ w _ _ _ hw (hop _ _ _)

theorem effect_unReg {op : UnOp w} (hop : ∀ a f, OnlyStatusFlags f (op a f).flags) {dst : RegNum}
    (h : s.unReg op dst len = .ok t) : Effect s t := by
  obtain ⟨-, rfl⟩ := unReg_ok.1 h
  rw [setReg_eq]
  exact .register w dst _ _ _ s.draws (hop _ _)

theorem effect_unMem {op : UnOp w} (hop : ∀ a f, OnlyStatusFlags f (op a f).flags) {m : Mem}
    (h : s.unMem op m len = .ok t) : Effect s t := by
  obtain ⟨hw, -, rfl⟩ := unMem_ok.1 h
  exact .store _ _ w _ _ _ hw (hop _ _)

theorem effect_moveToReg {dst : RegNum} {v : BitVec w.bits} (h : s.moveToReg dst v len = .ok t) : Effect s t := by
  obtain ⟨-, rfl⟩ := moveToReg_ok.1 h
  rw [setReg_eq]
  exact .register w dst _ s.flags _ s.draws (onlyStatus_refl _)

theorem effect_moveToSeg {seg : SegReg} {off : Word} {v : BitVec w.bits} (h : s.moveToSeg seg off v len = .ok t) :
    Effect s t := by
  obtain ⟨hw, -, rfl⟩ := moveToSeg_ok.1 h
  exact .store _ _ w _ s.flags _ hw (onlyStatus_refl _)

theorem effect_adjustAl {fn : Byte → Flags → Bool → Alu 8} (hfn : ∀ a f o, OnlyStatusFlags f (fn a f o).flags)
    (h : s.adjustAl fn len = .ok t) : Effect s t := by
  obtain ⟨-, rfl⟩ := adjustAl_ok.1 h
  rw [setReg_eq]
  exact .register .byte axReg _ _ _ _ (hfn _ _ _)

theorem effect_branch {taken : Bool} {rel : Word} (h : s.branch taken len rel = .ok t) : Effect s t := by
  rcases branch_ok.1 h with ⟨-, rfl⟩ | ⟨-, -, rfl⟩
  · exact .transfer s.cs _
  · exact .transfer s.cs _

theorem effect_loop {cx : Word} {taken : Bool} {rel : Word}
    (h : State.branch (s.setReg .word cxReg cx) taken len rel = .ok t) : Effect s t := by
  rw [setReg_eq] at h
  rcases branch_ok.1 h with ⟨-, rfl⟩ | ⟨-, -, rfl⟩
  · exact .register .word cxReg cx s.flags _ s.draws (onlyStatus_refl _)
  · exact .register .word cxReg cx s.flags _ s.draws (onlyStatus_refl _)

theorem effect_advance (h : s.advance len = .ok t) : Effect s t := by
  obtain ⟨-, rfl⟩ := advance_ok.1 h
  exact .transfer s.cs _

theorem effect_interrupt {n : Byte} {ret : Word} (h : s.interrupt n ret = .ok t) : Effect s t := by
  obtain ⟨hs, -, rfl⟩ := interrupt_ok.1 h
  exact .enter n ret hs

theorem effect_divCore {d : BitVec w.bits} (h : s.divCore w d len = .ok t) : Effect s t := by
  rcases divCore_ok.1 h with ⟨-, -, -, rfl⟩ | ⟨-, h⟩
  · exact .divide w _ _ _
  · exact effect_interrupt h

theorem effect_input {port : Word} (h : s.input w port len = .ok t) : Effect s t := by
  obtain ⟨-, rfl⟩ := input_ok.1 h
  rw [setReg_eq]
  exact .input w _ _

end

/-- Every next state of an instruction is one of the effects. -/
theorem exec_effect {i : Instr} {s t : State} (h : exec i s = .next t) : Effect s t := by
  cases i
  case ins => obtain ⟨hw, -, rfl⟩ := ins_ok.1 h; exact .ins _ _ _ _ hw
  case jmpShort => obtain rfl := Host.Outcome.next.inj h; exact .transfer s.cs _
  case jmpDirect => obtain rfl := Host.Outcome.next.inj h; exact .transfer s.cs _
  case jmpReg => obtain rfl := Host.Outcome.next.inj h; exact .transfer s.cs _
  case jmpFar => obtain rfl := Host.Outcome.next.inj h; exact .transfer _ _
  all_goals replace h := outcome_next.1 h
  case divMem => obtain ⟨_, -, h⟩ := bind_ok.1 h; exact effect_divCore h
  case movMemToReg => obtain ⟨_, -, h⟩ := bind_ok.1 h; exact effect_moveToReg h
  case movMemToAcc => obtain ⟨_, -, h⟩ := bind_ok.1 h; exact effect_moveToReg h
  case jmpMem => obtain ⟨_, -, h⟩ := bind_ok.1 h; cases h; exact .transfer s.cs _
  case jmpFarMem =>
    obtain ⟨_, -, h⟩ := bind_ok.1 h
    obtain ⟨_, -, h⟩ := bind_ok.1 h
    obtain ⟨_, -, h⟩ := bind_ok.1 h
    cases h
    exact .transfer _ _
  case addReg1ToReg2 => exact effect_binToReg onlyStatus_addFlags h
  case addReg2ToReg1 => exact effect_binToReg onlyStatus_addFlags h
  case addImmToReg => exact effect_binToReg onlyStatus_addFlags h
  case addImmToAcc => exact effect_binToReg onlyStatus_addFlags h
  case subReg1ToReg2 => exact effect_binToReg onlyStatus_subFlags h
  case subReg2ToReg1 => exact effect_binToReg onlyStatus_subFlags h
  case subImmToReg => exact effect_binToReg onlyStatus_subFlags h
  case subImmToAcc => exact effect_binToReg onlyStatus_subFlags h
  case orReg1ToReg2 => exact effect_binToReg_drawn (onlyStatus_orFlags _) h
  case orReg2ToReg1 => exact effect_binToReg_drawn (onlyStatus_orFlags _) h
  case addMemToReg => exact effect_binMemToReg onlyStatus_addFlags h
  case subMemToReg => exact effect_binMemToReg onlyStatus_subFlags h
  case addRegToMem => exact effect_binToMem onlyStatus_addFlags h
  case addImmToMem => exact effect_binToMem onlyStatus_addFlags h
  case subRegToMem => exact effect_binToMem onlyStatus_subFlags h
  case subImmToMem => exact effect_binToMem onlyStatus_subFlags h
  case incReg => exact effect_unReg onlyStatus_incFlags h
  case incRegAlt => exact effect_unReg onlyStatus_incFlags h
  case decReg => exact effect_unReg onlyStatus_decFlags h
  case decRegAlt => exact effect_unReg onlyStatus_decFlags h
  case notReg => exact effect_unReg onlyStatus_notFlags h
  case incMem => exact effect_unMem onlyStatus_incFlags h
  case decMem => exact effect_unMem onlyStatus_decFlags h
  case notMem => exact effect_unMem onlyStatus_notFlags h
  case daa => exact effect_adjustAl onlyStatus_daaFn h
  case das => exact effect_adjustAl onlyStatus_dasFn h
  case movReg1ToReg2 => exact effect_moveToReg h
  case movReg2ToReg1 => exact effect_moveToReg h
  case movImmToReg => exact effect_moveToReg h
  case movImmToRegAlt => exact effect_moveToReg h
  case movRegToMem => exact effect_moveToSeg h
  case movImmToMem => exact effect_moveToSeg h
  case movAccToMem => exact effect_moveToSeg h
  case divReg => exact effect_divCore h
  case intN => exact effect_interrupt h
  case int3 => exact effect_interrupt h
  case inFixed => exact effect_input h
  case inVariable => exact effect_input h
  case nop => exact effect_advance h
  case loop => exact effect_loop h
  all_goals exact effect_branch h

/-- A step that answers a next state stays at `HaltAt` or runs an instruction that completes. -/
theorem step_next {s t : State} (h : step s = .next t) :
    (s.atHalt = true ∧ t = s) ∨
      ∃ i rest, s.atHalt = false ∧ decode s.fetchBytes = .ok i rest ∧ exec i s = .next t := by
  simp only [step] at h
  split at h
  · next e => cases h; exact .inl ⟨e, rfl⟩
  · next e =>
    simp only [stepDecoded] at h
    split at h
    · next i rest d => exact .inr ⟨i, rest, by simpa using e, d, h⟩
    · cases h
    · split at h
      · next stop _ => cases stop <;> cases h
      · cases h

end Sys2Proof.Machine
end

