-- ==== Sys2Proof/Tests/Slice0.lean ====
section
/-! SUPPORT. Tests: the well-formedness smoke test; words written out from the spec's encodings, one for every
constructor; single steps with the results the spec's examples give (the rule of each example is named); and for every
statement with hypotheses a witness that meets them. -/

namespace Sys2Proof.Tests

open Sys2Proof.Machine

/-! ## WellFormed -/

/-- mod = 00 with r/m = 110 is never (BP): the one ill-formed operand, in each operand position (R83, R84). -/
theorem test_ill_formed_refused :
    [Instr.addMemToReg .word 0 (.plain .bp), .addRegToMem .byte 0 (.plain .bp), .addImmToMem (.byte false 1) (.plain .bp),
     .subMemToReg .word 0 (.plain .bp), .subRegToMem .byte 0 (.plain .bp), .subImmToMem (.sext 1) (.plain .bp),
     .incMem .word (.plain .bp), .decMem .byte (.plain .bp), .divMem .word (.plain .bp), .jmpMem (.plain .bp),
     .jmpFarMem (.plain .bp), .movMemToReg .word 0 (.plain .bp), .movRegToMem .word 0 (.plain .bp),
     .movImmToMem (.byte 0) (.plain .bp), .notMem .byte (.plain .bp)].all (fun i => !i.wellFormed) = true := by decide

theorem test_well_formed_accepted :
    [Instr.addMemToReg .word 0 (.disp8 .bp 0), .jmpMem (.plain .bx), .movMemToReg .byte 7 (.direct 0), .nop].all
      Instr.wellFormed = true := by decide

/-! ## Decoding words written out from the spec -/

/-- The decoder reads the instruction from its bytes and leaves the byte after them. -/
def reads (bs : List Byte) (i : Instr) : Bool := decode (bs ++ [0x90]) == .ok i [0x90]

/-- R152 to R158. -/
theorem test_decode_add :
    [([0b00000001, 0b11011000], Instr.addReg1ToReg2 .word 3 0),
     ([0b00000000, 0b11100000], .addReg1ToReg2 .byte 4 0),
     ([0b00000011, 0b11000011], .addReg2ToReg1 .word 0 3),
     ([0b00000010, 0b00000111], .addMemToReg .byte 0 (.plain .bx)),
     ([0b00000001, 0b01000111, 0b00000010], .addRegToMem .word 0 (.disp8 .bx 0x02)),
     ([0b10000011, 0b11000001, 0xFF], .addImmToReg (.sext 0xFF) 1),
     ([0b10000001, 0b11000001, 0x00, 0x80], .addImmToReg (.word 0x8000) 1),
     ([0b10000010, 0b11000011, 0x7F], .addImmToReg (.byte true 0x7F) 3),
     ([0b00000101, 0x34, 0x12], .addImmToAcc (.word 0x1234)),
     ([0b10000000, 0b00000110, 0x00, 0x10, 0x05], .addImmToMem (.byte false 0x05) (.direct 0x1000))].all (fun p => reads p.1 p.2) = true := by decide

/-- R170 to R176. -/
theorem test_decode_sub :
    [([0b00101001, 0b11011000], Instr.subReg1ToReg2 .word 3 0),
     ([0b00101010, 0b11000000], .subReg2ToReg1 .byte 0 0),
     ([0b00101011, 0b00000100], .subMemToReg .word 0 (.plain .si)),
     ([0b00101000, 0b00100010], .subRegToMem .byte 4 (.plain .bpsi)),
     ([0b10000011, 0b11101001, 0x01], .subImmToReg (.sext 0x01) 1),
     ([0b00101100, 0x0A], .subImmToAcc (.byte 0x0A)),
     ([0b10000000, 0b10101111, 0x00, 0x01, 0x01], .subImmToMem (.byte false 0x01) (.disp16 .bx 0x0100))].all (fun p => reads p.1 p.2) = true := by decide

/-- R161 to R163, R167 to R169. -/
theorem test_decode_inc_dec :
    [([0b11111110, 0b11000100], Instr.incReg .byte 4),
     ([0b01000111], .incRegAlt 7),
     ([0b11111111, 0b00000110, 0x00, 0x20], .incMem .word (.direct 0x2000)),
     ([0b11111111, 0b11001001], .decReg .word 1),
     ([0b01001100], .decRegAlt 4),
     ([0b11111110, 0b01001100, 0x01], .decMem .byte (.disp8 .si 0x01))].all (fun p => reads p.1 p.2) = true := by decide

/-- R159, R160, R165, R166. -/
theorem test_decode_daa_das_div :
    [([0b00100111], Instr.daa),
     ([0b00101111], .das),
     ([0b11110111, 0b11110001], .divReg .word 1),
     ([0b11110110, 0b00110110, 0x00, 0x30], .divMem .byte (.direct 0x3000))].all (fun p => reads p.1 p.2) = true := by decide

/-- R180 to R184. -/
theorem test_decode_io_int :
    [([0b11100101, 0x60], Instr.inFixed .word 0x60),
     ([0b11101100], .inVariable .byte),
     ([0b01101101], .ins .word),
     ([0b11001101, 0x21], .intN 0x21),
     ([0b11001100], .int3)].all (fun p => reads p.1 p.2) = true := by decide

/-- R131: `0111 tttn`, the sixteen conditions of R130 in order. -/
theorem test_decode_jcc_short :
    [([0b01110000, 0xFC], Instr.joShort 0xFC),
     ([0b01110001, 0xFC], .jnoShort 0xFC),
     ([0b01110010, 0xFC], .jbShort 0xFC),
     ([0b01110011, 0xFC], .jnbShort 0xFC),
     ([0b01110100, 0xFC], .jeShort 0xFC),
     ([0b01110101, 0xFC], .jneShort 0xFC),
     ([0b01110110, 0xFC], .jbeShort 0xFC),
     ([0b01110111, 0xFC], .jnbeShort 0xFC),
     ([0b01111000, 0xFC], .jsShort 0xFC),
     ([0b01111001, 0xFC], .jnsShort 0xFC),
     ([0b01111010, 0xFC], .jpShort 0xFC),
     ([0b01111011, 0xFC], .jnpShort 0xFC),
     ([0b01111100, 0xFC], .jlShort 0xFC),
     ([0b01111101, 0xFC], .jnlShort 0xFC),
     ([0b01111110, 0xFC], .jleShort 0xFC),
     ([0b01111111, 0xFC], .jnleShort 0xFC)].all (fun p => reads p.1 p.2) = true := by decide

/-- R132: `0000 1111 : 1000 tttn`. -/
theorem test_decode_jcc_full :
    [([0b00001111, 0b10000000, 0x00, 0x01], Instr.joFull 0x0100),
     ([0b00001111, 0b10000001, 0x00, 0x01], .jnoFull 0x0100),
     ([0b00001111, 0b10000010, 0x00, 0x01], .jbFull 0x0100),
     ([0b00001111, 0b10000011, 0x00, 0x01], .jnbFull 0x0100),
     ([0b00001111, 0b10000100, 0x00, 0x01], .jeFull 0x0100),
     ([0b00001111, 0b10000101, 0x00, 0x01], .jneFull 0x0100),
     ([0b00001111, 0b10000110, 0x00, 0x01], .jbeFull 0x0100),
     ([0b00001111, 0b10000111, 0x00, 0x01], .jnbeFull 0x0100),
     ([0b00001111, 0b10001000, 0x00, 0x01], .jsFull 0x0100),
     ([0b00001111, 0b10001001, 0x00, 0x01], .jnsFull 0x0100),
     ([0b00001111, 0b10001010, 0x00, 0x01], .jpFull 0x0100),
     ([0b00001111, 0b10001011, 0x00, 0x01], .jnpFull 0x0100),
     ([0b00001111, 0b10001100, 0x00, 0x01], .jlFull 0x0100),
     ([0b00001111, 0b10001101, 0x00, 0x01], .jnlFull 0x0100),
     ([0b00001111, 0b10001110, 0x00, 0x01], .jleFull 0x0100),
     ([0b00001111, 0b10001111, 0x00, 0x01], .jnleFull 0x0100)].all (fun p => reads p.1 p.2) = true := by decide

/-- R133 to R140. -/
theorem test_decode_jumps :
    [([0b11100011, 0x10], Instr.jcxz 0x10),
     ([0b11101011, 0x05], .jmpShort 0x05),
     ([0b11101001, 0xFD, 0x0E], .jmpDirect 0x0EFD),
     ([0b11111111, 0b11100011], .jmpReg 3),
     ([0b11111111, 0b00100111], .jmpMem (.plain .bx)),
     ([0b11101010, 0x20, 0x00, 0x00, 0x10], .jmpFar 0x0020 0x1000),
     ([0b11111111, 0b00101100], .jmpFarMem (.plain .si)),
     ([0b11100010, 0xFB], .loop 0xFB)].all (fun p => reads p.1 p.2) = true := by decide

/-- R190 to R198. -/
theorem test_decode_mov :
    [([0b10001001, 0b11011000], Instr.movReg1ToReg2 .word 3 0),
     ([0b10001010, 0b11101001], .movReg2ToReg1 .byte 5 1),
     ([0b10001011, 0b10011111, 0x00, 0xFF], .movMemToReg .word 3 (.disp16 .bx 0xFF00)),
     ([0b10001000, 0b00101110, 0x34, 0x12], .movRegToMem .byte 5 (.direct 0x1234)),
     ([0b11000110, 0b11000111, 0x80], .movImmToReg (.byte 0x80) 7),
     ([0b10110100, 0x4C], .movImmToRegAlt (.byte 0x4C) 4),
     ([0b11000111, 0b10000010, 0x00, 0x10, 0xEF, 0xBE], .movImmToMem (.word 0xBEEF) (.disp16 .bpsi 0x1000)),
     ([0b10100001, 0x00, 0x20], .movMemToAcc .word 0x2000),
     ([0b10100010, 0x00, 0x20], .movAccToMem .byte 0x2000)].all (fun p => reads p.1 p.2) = true := by decide

/-- R199 to R203. -/
theorem test_decode_nop_not_or :
    [([0b10010000], Instr.nop),
     ([0b11110111, 0b11010011], .notReg .word 3),
     ([0b11110110, 0b00010110, 0x00, 0x20], .notMem .byte (.direct 0x2000)),
     ([0b00001001, 0b11011000], .orReg1ToReg2 .word 3 0),
     ([0b00001010, 0b11100101], .orReg2ToReg1 .byte 4 5)].all (fun p => reads p.1 p.2) = true := by decide

/-- R84: the eight r/m rows at mod = 00, 01 and 10 (MOV AX). -/
theorem test_decode_base_index :
    [([0x8B, 0b00000000], Instr.movMemToReg .word 0 (.plain .bxsi)),
     ([0x8B, 0b00000001], .movMemToReg .word 0 (.plain .bxdi)),
     ([0x8B, 0b00000010], .movMemToReg .word 0 (.plain .bpsi)),
     ([0x8B, 0b00000011], .movMemToReg .word 0 (.plain .bpdi)),
     ([0x8B, 0b00000100], .movMemToReg .word 0 (.plain .si)),
     ([0x8B, 0b00000101], .movMemToReg .word 0 (.plain .di)),
     ([0x8B, 0b00000111], .movMemToReg .word 0 (.plain .bx)),
     ([0x8B, 0b01000000, 0x80], .movMemToReg .word 0 (.disp8 .bxsi 0x80)),
     ([0x8B, 0b01000001, 0x80], .movMemToReg .word 0 (.disp8 .bxdi 0x80)),
     ([0x8B, 0b01000010, 0x80], .movMemToReg .word 0 (.disp8 .bpsi 0x80)),
     ([0x8B, 0b01000011, 0x80], .movMemToReg .word 0 (.disp8 .bpdi 0x80)),
     ([0x8B, 0b01000100, 0x80], .movMemToReg .word 0 (.disp8 .si 0x80)),
     ([0x8B, 0b01000101, 0x80], .movMemToReg .word 0 (.disp8 .di 0x80)),
     ([0x8B, 0b01000110, 0x80], .movMemToReg .word 0 (.disp8 .bp 0x80)),
     ([0x8B, 0b01000111, 0x80], .movMemToReg .word 0 (.disp8 .bx 0x80)),
     ([0x8B, 0b10000000, 0x34, 0x12], .movMemToReg .word 0 (.disp16 .bxsi 0x1234)),
     ([0x8B, 0b10000001, 0x34, 0x12], .movMemToReg .word 0 (.disp16 .bxdi 0x1234)),
     ([0x8B, 0b10000010, 0x34, 0x12], .movMemToReg .word 0 (.disp16 .bpsi 0x1234)),
     ([0x8B, 0b10000011, 0x34, 0x12], .movMemToReg .word 0 (.disp16 .bpdi 0x1234)),
     ([0x8B, 0b10000100, 0x34, 0x12], .movMemToReg .word 0 (.disp16 .si 0x1234)),
     ([0x8B, 0b10000101, 0x34, 0x12], .movMemToReg .word 0 (.disp16 .di 0x1234)),
     ([0x8B, 0b10000110, 0x34, 0x12], .movMemToReg .word 0 (.disp16 .bp 0x1234)),
     ([0x8B, 0b10000111, 0x34, 0x12], .movMemToReg .word 0 (.disp16 .bx 0x1234))].all (fun p => reads p.1 p.2) = true := by decide

/-- Sequences the handout does not list are refused by name (R98, R99, R100): OR with memory, HLT, a prefix, IRET,
FE with bits 5..3 = 100, FF 11 101 reg, an unlisted second byte after 0F, F7 with bits 5..3 = 000. -/
theorem test_decode_unlisted :
    [([0x09, 0x07], 2), ([0xF4, 0x00], 1), ([0x66, 0x90], 1), ([0xCF, 0x00], 1), ([0xFE, 0xE0], 2), ([0xFF, 0xE8], 2),
     ([0x0F, 0x05], 2), ([0xF7, 0xC0], 2)].all
      (fun (p : List Byte × Nat) => decode p.1 == .unlisted (p.1.drop p.2)) = true := by decide

/-- A row's bits, first byte highest, as spec/opcode_table.json writes `match` (R107; log 14): MOV C7h, ADD 00h, Jcc 0F82h. -/
theorem test_table_words :
    decodeTableWord 16 0xC700 = some (.movImmToMem (.word 0) (.plain .bxsi)) ∧
    decodeTableWord 16 0x00C0 = some (.addReg1ToReg2 .byte 0 0) ∧ decodeTableWord 16 0x0F82 = some (.jbFull 0) ∧
    decodeTableWord 8 0xF4 = none := by decide

/-! ## Single steps on the spec's examples -/

/-- The examples' machine: CS = DS = SS = ES = 1000h, IP = 0100h; the word registers and bytes listed. -/
def st (regs : List (RegNum × Word)) (mem : List Host.Cell) (f : Flags := Flags.reset) : State :=
  regs.foldl (fun s p => s.setReg .word p.1 p.2)
    { State.reset with
      cs := 0x1000, ds := 0x1000, ss := 0x1000, es := 0x1000, pc := 0x0100, flags := f
      mem := mem.foldl (fun m c => Memory.write m c.1 c.2) [] }

/-- The next state, where there is one. -/
def nextOf : Host.Outcome State Fault Refusal → Option State
  | .next t => some t
  | .fault _ => none
  | .refused _ => none

/-- The fault, where there is one. -/
def faultOf : Host.Outcome State Fault Refusal → Option Fault
  | .next _ => none
  | .fault f => some f
  | .refused _ => none

/-- The refusal, where there is one. -/
def refusalOf : Host.Outcome State Fault Refusal → Option Refusal
  | .next _ => none
  | .fault _ => none
  | .refused r => some r

/-- The state after one instruction, where it completes. -/
def run (i : Instr) (s : State) : Option State := nextOf (exec i s)

/-- OF SF ZF AF PF CF, in the order of the spec's examples. -/
def bits (f : Flags) : List Nat := [f.ovf, f.sf, f.zf, f.af, f.pf, f.cf].map Bool.toNat

/-- A word register and the flags after an instruction. -/
def regAfter (i : Instr) (s : State) (r : RegNum) : Option (Word × List Nat) :=
  (run i s).map fun t => (t.reg .word r, bits t.flags)

/-- A word of memory and the flags after an instruction. -/
def memAfter (i : Instr) (s : State) (a : Nat) : Option (Word × List Nat) :=
  (run i s).map fun t => (Memory.readValue t.mem a .word, bits t.flags)

/-- The place where the next instruction lies. -/
def goesTo (i : Instr) (s : State) : Option (Word × Word) := (run i s).map fun t => (t.cs, t.pc)

theorem test_add_reg1_to_reg2 : regAfter (.addReg1ToReg2 .word 3 0) (st [(0, 0x1234), (3, 0x0FF0)] []) 0 = some (0x2224, [0, 0, 0, 0, 1, 0]) := by decide -- R152
theorem test_add_reg1_to_reg2_byte : regAfter (.addReg1ToReg2 .byte 4 0) (st [(0, 0x80FF)] []) 0 = some (0x807F, [1, 0, 0, 0, 0, 1]) := by decide -- R152: ADD AL, AH
theorem test_add_reg2_to_reg1 : regAfter (.addReg2ToReg1 .word 0 3) (st [(0, 0x7FFF), (3, 0x0001)] []) 0 = some (0x8000, [1, 1, 0, 1, 1, 0]) := by decide -- R153
theorem test_add_mem_to_reg : regAfter (.addMemToReg .byte 0 (.plain .bx)) (st [(0, 0x00F0), (3, 0x0200)] [(0x10200, 0x20)]) 0 = some (0x0010, [0, 0, 0, 0, 0, 1]) := by decide -- R154
theorem test_add_reg_to_mem : memAfter (.addRegToMem .word 0 (.disp8 .bx 2)) (st [(0, 1), (3, 0x0200)] [(0x10202, 0xFF), (0x10203, 0xFF)]) 0x10202 = some (0x0000, [0, 0, 1, 1, 1, 1]) := by decide -- R155
theorem test_add_imm_to_reg_sext : regAfter (.addImmToReg (.sext 0xFF) 1) (st [(1, 1)] []) 1 = some (0x0000, [0, 0, 1, 1, 1, 1]) := by decide -- R156
theorem test_add_imm_to_reg_82 : regAfter (.addImmToReg (.byte true 0x7F) 3) (st [(3, 0x0001)] []) 3 = some (0x0080, [1, 1, 0, 1, 0, 0]) := by decide -- R156: opcode 82h
theorem test_add_imm_to_acc : regAfter (.addImmToAcc (.byte 1)) (st [(0, 0x12FF)] []) 0 = some (0x1200, [0, 0, 1, 1, 1, 1]) := by decide -- R157
theorem test_add_imm_to_mem : memAfter (.addImmToMem (.sext 0xFF) (.disp8 .bp 0xFE)) (st [(5, 0x0302)] [(0x10301, 0x01)]) 0x10300 = some (0x00FF, [0, 0, 0, 0, 1, 1]) := by decide -- R158: [BP-2] in SS
theorem test_sub_reg1_to_reg2 : regAfter (.subReg1ToReg2 .word 3 0) (st [(0, 0x1234), (3, 0x1235)] []) 0 = some (0xFFFF, [0, 1, 0, 1, 1, 1]) := by decide -- R170
theorem test_sub_reg2_to_reg1 : regAfter (.subReg2ToReg1 .word 0 3) (st [(0, 0x8000), (3, 1)] []) 0 = some (0x7FFF, [1, 0, 0, 1, 1, 0]) := by decide -- R171
theorem test_sub_mem_to_reg : regAfter (.subMemToReg .byte 1 (.disp8 .bx 0xFF)) (st [(1, 0x0010), (3, 0x0401)] [(0x10400, 0x20)]) 1 = some (0x00F0, [0, 1, 0, 0, 1, 1]) := by decide -- R172: [BX-1]
theorem test_sub_reg_to_mem : memAfter (.subRegToMem .word 3 (.plain .di)) (st [(3, 1), (7, 0x0400)] []) 0x10400 = some (0xFFFF, [0, 1, 0, 1, 1, 1]) := by decide -- R173
theorem test_sub_imm_to_reg : regAfter (.subImmToReg (.byte false 0x80) 4) (st [(0, 0x7F00)] []) 0 = some (0xFF00, [1, 1, 0, 0, 1, 1]) := by decide -- R174: SUB AH, 80h
theorem test_sub_imm_to_acc : regAfter (.subImmToAcc (.word 0xFFFF)) (st [] []) 0 = some (0x0001, [0, 0, 0, 1, 0, 1]) := by decide -- R175
theorem test_sub_imm_to_mem : memAfter (.subImmToMem (.sext 0x10) (.direct 0x2000)) (st [] [(0x12000, 0x0F)]) 0x12000 = some (0xFFFF, [0, 1, 0, 0, 1, 1]) := by decide -- R176
theorem test_dec_reg : regAfter (.decReg .byte 0) (st [(0, 0x1200)] [] { Flags.reset with cf := true }) 0 = some (0x12FF, [0, 1, 0, 1, 1, 1]) := by decide -- R161: CF kept
theorem test_dec_reg_alt : regAfter (.decRegAlt 1) (st [(1, 1)] [] { Flags.reset with cf := true }) 1 = some (0, [0, 0, 1, 0, 1, 1]) := by decide -- R162
theorem test_dec_mem : memAfter (.decMem .word (.plain .bx)) (st [(3, 0x0300)] []) 0x10300 = some (0xFFFF, [0, 1, 0, 1, 1, 0]) := by decide -- R163
theorem test_inc_reg : regAfter (.incReg .byte 4) (st [(0, 0x7F00)] []) 0 = some (0x8000, [1, 1, 0, 1, 0, 0]) := by decide -- R167: INC AH
theorem test_inc_reg_alt : regAfter (.incRegAlt 0) (st [(0, 0x7FFF)] [] { Flags.reset with cf := true }) 0 = some (0x8000, [1, 1, 0, 1, 1, 1]) := by decide -- R168: CF kept
theorem test_inc_mem : memAfter (.incMem .word (.direct 0x2000)) (st [] [(0x12000, 0xFF)]) 0x12000 = some (0x0100, [0, 0, 0, 1, 1, 0]) := by decide -- R169

/-- AL and CF, AF after DAA or DAS; OF is a free value. -/
def alAfter (i : Instr) (s : State) : Option (Byte × Bool × Bool) :=
  (run i s).map fun t => (t.reg .byte 0, t.flags.cf, t.flags.af)

theorem test_daa_both_digits : alAfter .daa (st [(0, 0xAE)] []) = some (0x14, true, true) := by decide -- R159: AEh after 57h + 57h
theorem test_daa_af : alAfter .daa (st [(0, 0x12)] [] { Flags.reset with af := true }) = some (0x18, false, true) := by decide -- R159: 12h with AF
theorem test_das_borrow : alAfter .das (st [(0, 0xEE)] [] { Flags.reset with af := true, cf := true }) = some (0x88, true, true) := by decide -- R160: EEh with AF, CF
theorem test_das_low_borrow : alAfter .das (st [(0, 0x03)] [] { Flags.reset with af := true }) = some (0xFD, true, true) := by decide -- R160: 03h with AF

/-- AX and DX after DIV; the flags are free values. -/
def axDxAfter (i : Instr) (s : State) : Option (Word × Word) := (run i s).map fun t => (t.reg .word 0, t.reg .word 2)

theorem test_div_reg_byte : axDxAfter (.divReg .byte 3) (st [(0, 0x0064), (3, 7)] []) = some (0x020E, 0) := by decide -- R165
theorem test_div_reg_word :
    axDxAfter (.divReg .word 1) (st [(1, 0x0010), (2, 1)] []) = some (0x1000, 0) := by decide -- R165
theorem test_div_mem :
    axDxAfter (.divMem .byte (.direct 0x3000)) (st [(0, 0xFEFF)] [(0x13000, 0xFF)]) = some (0xFEFF, 0) := by decide -- R166
/-- R223: `F6 F3` with BL = 0: FLAGS 0242h, CS and the DIV's own offset are pushed, AX stays, IF is cleared. -/
theorem test_divide_error :
    (run (.divReg .byte 3) (st [(0, 0x0064), (4, 0x0100)] [(1, 0x06), (3, 0x18)]
      { Flags.reset with intf := true, zf := true })).map
      (fun t => [t.cs, t.pc, t.reg .word 4, t.reg .word 0, t.flags.toWord, Memory.readValue t.mem 0x100FE .word,
        Memory.readValue t.mem 0x100FC .word, Memory.readValue t.mem 0x100FA .word]) =
      some [0x1800, 0x0600, 0x00FA, 0x0064, 0x0042, 0x0242, 0x1000, 0x0100] := by decide

/-- R183: `CD 21`. -/
theorem test_int_n :
    (run (.intN 0x21) (st [(4, 0x0100)] [(0x85, 0x05), (0x87, 0x20)]
      { Flags.reset with intf := true, zf := true, cf := true })).map
      (fun t => [t.cs, t.pc, t.reg .word 4, t.flags.toWord, Memory.readValue t.mem 0x100FE .word,
        Memory.readValue t.mem 0x100FC .word, Memory.readValue t.mem 0x100FA .word]) =
      some [0x2000, 0x0500, 0x00FA, 0x0043, 0x0243, 0x1000, 0x0102] := by decide
/-- R184: `CC`. -/
theorem test_int_3 :
    (run .int3 (st [(4, 0x0100)] [(0xC, 0x34), (0xD, 0x12), (0xF, 0xF0)]
      { Flags.reset with df := true, intf := true, sf := true })).map
      (fun t => [t.cs, t.pc, t.flags.toWord, Memory.readValue t.mem 0x100FE .word, Memory.readValue t.mem 0x100FA .word]) =
      some [0xF000, 0x1234, 0x0482, 0x0682, 0x0101] := by decide

/-- The oracle's answers, written out. -/
def asked (answers : List Word) (s : State) : State := { s with portAnswers := answers }

theorem test_in_fixed_byte : regAfter (.inFixed .byte 0x60) (asked [0x00AB] (st [(0, 0x1234)] [])) 0 = some (0x12AB, [0, 0, 0, 0, 0, 0]) := by decide -- R180
theorem test_in_variable_word : regAfter (.inVariable .word) (asked [0x4241] (st [] [])) 0 = some (0x4241, [0, 0, 0, 0, 0, 0]) := by decide -- R181
theorem test_ins_byte : memAfter (.ins .byte) (asked [0x005A] { st [(2, 0x0300), (7, 0x0500)] [] with es := 0x1800 }) 0x18500 = some (0x005A, [0, 0, 0, 0, 0, 0]) := by decide -- R182
/-- R182: DI goes down by 2 when DF = 1. -/
theorem test_ins_word_down :
    (run (.ins .word) (asked [0xA55A] (st [(7, 0x0500)] [] { Flags.reset with df := true }))).map
      (fun t => [Memory.readValue t.mem 0x10500 .word, t.reg .word 7]) = some [0xA55A, 0x04FE] := by decide

/-- R130, R131: which conditions jump (to 0112h) with all flags clear, and with CF = SF = PF = 1. -/
theorem test_jcc_short_table :
    let is := [Instr.joShort 0x10, .jnoShort 0x10, .jbShort 0x10, .jnbShort 0x10, .jeShort 0x10, .jneShort 0x10, .jbeShort 0x10,
      .jnbeShort 0x10, .jsShort 0x10, .jnsShort 0x10, .jpShort 0x10, .jnpShort 0x10, .jlShort 0x10, .jnlShort 0x10,
      .jleShort 0x10, .jnleShort 0x10]
    (is.map fun i => (goesTo i (st [] []) == some (0x1000, 0x0112)).toNat) = [0, 1, 0, 1, 0, 1, 0, 1, 0, 1, 0, 1, 0, 1, 0, 1] ∧
    (is.map fun i => (goesTo i (st [] [] { Flags.reset with cf := true, sf := true, pf := true }) ==
      some (0x1000, 0x0112)).toNat) = [0, 1, 1, 0, 0, 1, 1, 0, 1, 0, 1, 0, 1, 0, 1, 0] := by decide
/-- R130, R132: the same for the full displacement with ZF = OF = 1 (to 0204h). -/
theorem test_jcc_full_table :
    let is := [Instr.joFull 0x0100, .jnoFull 0x0100, .jbFull 0x0100, .jnbFull 0x0100, .jeFull 0x0100, .jneFull 0x0100,
      .jbeFull 0x0100, .jnbeFull 0x0100, .jsFull 0x0100, .jnsFull 0x0100, .jpFull 0x0100, .jnpFull 0x0100,
      .jlFull 0x0100, .jnlFull 0x0100, .jleFull 0x0100, .jnleFull 0x0100]
    (is.map fun i => (goesTo i (st [] [] { Flags.reset with zf := true, ovf := true }) ==
      some (0x1000, 0x0204)).toNat) = [1, 0, 0, 1, 1, 0, 1, 0, 0, 1, 0, 1, 1, 0, 1, 0] := by decide
theorem test_jne_taken_back : goesTo (.jneShort 0xFC) (st [] []) = some (0x1000, 0x00FE) := by decide -- R131: 75 FC
theorem test_jne_not_taken : goesTo (.jneShort 0xFC) (st [] [] { Flags.reset with zf := true }) = some (0x1000, 0x0102) := by decide -- R131
theorem test_jcxz : goesTo (.jcxz 0x10) (st [] []) = some (0x1000, 0x0112) := by decide -- R139
theorem test_jmp_short : goesTo (.jmpShort 0x05) (st [] []) = some (0x1000, 0x0107) := by decide -- R133
theorem test_jmp_direct : goesTo (.jmpDirect 0x0EFD) (st [] []) = some (0x1000, 0x1000) := by decide -- R134
theorem test_jmp_reg : goesTo (.jmpReg 3) (st [(3, 0x2000)] []) = some (0x1000, 0x2000) := by decide -- R135
theorem test_jmp_mem : goesTo (.jmpMem (.plain .bx)) (st [(3, 0x0010)] [(0x10010, 0x34), (0x10011, 0x12)]) = some (0x1000, 0x1234) := by decide -- R136
theorem test_jmp_far : goesTo (.jmpFar 0x0020 0x1800) (st [] []) = some (0x1800, 0x0020) := by decide -- R137
theorem test_jmp_far_mem : goesTo (.jmpFarMem (.plain .si)) (st [(6, 0x0100)] [(0x10101, 0x02), (0x10103, 0x30)]) = some (0x3000, 0x0200) := by decide -- R138
/-- R138: EA = FFFDh is `SegLimit`. -/
theorem test_jmp_far_mem_limit :
    faultOf (exec (.jmpFarMem (.plain .si)) (st [(6, 0xFFFD)] [])) = some (.segLimit .ds 0xFFFD) := by decide
/-- R140: taken with CX = 3; and from CX = 1 on to `next`. -/
theorem test_loop :
    (run (.loop 0xFB) { st [(1, 3)] [] with pc := 0x0105 }).map (fun t => (t.reg .word 1, t.pc)) = some (2, 0x0102) ∧
    (run (.loop 0xFB) (st [(1, 1)] [])).map (fun t => (t.reg .word 1, t.pc)) = some (0, 0x0102) := by decide

theorem test_mov_reg1_to_reg2 : regAfter (.movReg1ToReg2 .word 3 0) (st [(0, 0x1111), (3, 0x2222)] [] { Flags.reset with zf := true, cf := true }) 0 = some (0x2222, [0, 0, 1, 0, 0, 1]) := by decide -- R190: flags kept
theorem test_mov_reg2_to_reg1 : regAfter (.movReg2ToReg1 .byte 5 1) (st [(1, 0x00AB)] []) 1 = some (0xABAB, [0, 0, 0, 0, 0, 0]) := by decide -- R191: MOV CH, CL
theorem test_mov_mem_to_reg : regAfter (.movMemToReg .word 3 (.disp16 .bx 0xFF00)) (st [(3, 0x0500)] [(0x10400, 0xCD), (0x10401, 0xAB)]) 3 = some (0xABCD, [0, 0, 0, 0, 0, 0]) := by decide -- R192: EA wraps
theorem test_mov_reg_to_mem : memAfter (.movRegToMem .byte 5 (.direct 0x1234)) (st [(1, 0x7700)] []) 0x11234 = some (0x0077, [0, 0, 0, 0, 0, 0]) := by decide -- R193
theorem test_mov_imm_to_reg : regAfter (.movImmToReg (.byte 0x80) 7) (st [(3, 0x0011)] []) 3 = some (0x8011, [0, 0, 0, 0, 0, 0]) := by decide -- R194: MOV BH
theorem test_mov_imm_to_reg_alt : regAfter (.movImmToRegAlt (.byte 0x4C) 4) (st [(0, 0x0012)] []) 0 = some (0x4C12, [0, 0, 0, 0, 0, 0]) := by decide -- R195: MOV AH
theorem test_mov_imm_to_mem : memAfter (.movImmToMem (.word 0xBEEF) (.disp16 .bpsi 0x1000)) (st [(5, 0x0200), (6, 0x0010)] []) 0x11210 = some (0xBEEF, [0, 0, 0, 0, 0, 0]) := by decide -- R196: [BP+SI+1000h]
theorem test_mov_mem_to_acc : regAfter (.movMemToAcc .byte 0x2000) (st [(0, 0x1234)] [(0x12000, 0x99)]) 0 = some (0x1299, [0, 0, 0, 0, 0, 0]) := by decide -- R197
theorem test_mov_acc_to_mem : memAfter (.movAccToMem .word 0xFFFE) (st [(0, 0x1234)] []) 0x1FFFE = some (0x1234, [0, 0, 0, 0, 0, 0]) := by decide -- R198
/-- R198: the word would cross offset FFFFh. -/
theorem test_mov_acc_to_mem_limit :
    faultOf (exec (.movAccToMem .word 0xFFFF) (st [] [])) = some (.segLimit .ds 0xFFFF) := by decide
/-- R199: only IP changes. -/
theorem test_nop : run .nop (st [(0, 0x1234)] []) = some { st [(0, 0x1234)] [] with pc := 0x0101 } := by decide
theorem test_not_reg : regAfter (.notReg .byte 0) (st [(0, 0x12F0)] [] { Flags.reset with zf := true, cf := true }) 0 = some (0x120F, [0, 0, 1, 0, 0, 1]) := by decide -- R200
theorem test_not_mem : memAfter (.notMem .word (.plain .bx)) (st [(3, 0x0400)] [(0x10400, 0x55), (0x10401, 0xAA)]) 0x10400 = some (0x55AA, [0, 0, 0, 0, 0, 0]) := by decide -- R201

/-- A word register, CF, OF, ZF, SF and PF after OR; AF is a free value. -/
def orAfter (i : Instr) (s : State) (r : RegNum) : Option (Word × List Nat) :=
  (run i s).map fun t =>
    (t.reg .word r, [t.flags.cf, t.flags.ovf, t.flags.zf, t.flags.sf, t.flags.pf].map Bool.toNat)

theorem test_or_reg1_to_reg2 : orAfter (.orReg1ToReg2 .word 3 0)
    (st [(0, 0x00F0), (3, 0x0F00)] [] { Flags.reset with cf := true, ovf := true }) 0 = some (0x0FF0, [0, 0, 0, 0, 1]) := by
  decide -- R202
theorem test_or_reg2_to_reg1 :
    orAfter (.orReg2ToReg1 .word 0 3) (st [(0, 0x8000), (3, 1)] []) 0 = some (0x8001, [0, 0, 0, 1, 0]) := by decide -- R203

/-! ## Whole steps -/

/-- A state with bytes loaded where the next step fetches. -/
def loaded (bs : List Byte) (s : State) : State := s.loadBytes bs

/-- R102: fetched, decoded and performed. -/
theorem test_step_runs : nextOf (step (loaded [0xB8, 0x34, 0x12] (st [] []))) =
    some { loaded [0xB8, 0x34, 0x12] (st [(0, 0x1234)] []) with pc := 0x0103 } := by decide
/-- R62: a store into the program is `CodeWrite`. -/
theorem test_code_write : faultOf (step (loaded [0xA2, 0x00, 0x01] (st [] []))) = some (.codeWrite 0x10100) := by
  decide
/-- R50: an address outside `MemMap`. -/
theorem test_unmapped : faultOf (exec (.movMemToAcc .byte 0x2000)
    { st [] [] with memMap := [{ base := 0, size := 0x12000 }] }) = some (.unmapped 0x12000) := by decide
/-- R64: a push at SP = 1 is `SegLimit`. -/
theorem test_push_limit : faultOf (exec (.intN 0) (st [(4, 1)] [])) = some (.segLimit .ss 0xFFFF) := by decide
/-- R24, R226: `MOV [0], AL` whose next offset is 10000h; the store does not happen. -/
theorem test_next_past_segment : faultOf (exec (.movAccToMem .byte 0) { st [] [] with pc := 0xFFFD }) =
    some (.segLimit .cs 0x10000) := by decide
/-- R25: each flag alone, in the order CF, PF, AF, ZF, SF, TF, IF, DF, OF. -/
theorem test_flags_word :
    ([{ Flags.reset with cf := true }, { Flags.reset with pf := true }, { Flags.reset with af := true },
      { Flags.reset with zf := true }, { Flags.reset with sf := true }, { Flags.reset with tf := true },
      { Flags.reset with intf := true }, { Flags.reset with df := true }, { Flags.reset with ovf := true }].map
      Flags.toWord) = [0x003, 0x006, 0x012, 0x042, 0x082, 0x102, 0x202, 0x402, 0x802] := by decide
/-- From reset with nothing loaded nothing is fetched (log 13). -/
theorem test_reset_step : refusalOf (step State.reset) = some (.fetchOutsideCode 0xFFFF0) := by decide
theorem test_with_fetch_word :
    (nextOf (step (State.reset.withFetchWord 8 0x90))).map (fun t => t.pc) = some 0xFFF1 := by decide

/-! ## Witnesses: states and operands that meet the hypotheses of each statement, at the edges of their ranges -/

/-- An outcome with a next state is `.next` of one. -/
theorem next_of_isSome {o : Host.Outcome State Fault Refusal} (h : (nextOf o).isSome = true) : ∃ t, o = .next t := by
  cases o with
  | next t => exact ⟨t, rfl⟩
  | fault f => simp [nextOf] at h
  | refused r => simp [nextOf] at h

/-- The machine at an instruction offset. -/
def ip (p : Word) : State := { st [] [] with pc := p }

/-- The machine with BX at an offset of DS and an instruction offset. -/
def bx (b p : Word) : State := { st [(3, b)] [] with pc := p }

/-- The machine whose program is the byte 10200h. -/
def guarded (b : Word) : State := { bx b 0x0100 with codeRegion := [{ base := 0x10200, size := 1 }] }

/-- The machine that has no memory from 12000h on. -/
def small (b : Word) : State := { bx b 0x0100 with memMap := [{ base := 0, size := 0x12000 }] }

theorem witness_DecodeInvertsEncode :
    Instr.wellFormed (.movImmToMem (.word 0xBEEF) (.disp16 .bpsi 0x1000)) = true ∧ Instr.wellFormed .nop = true := by decide
theorem witness_EncodeInvertsDecode :
    decode [0xC7, 0x06, 0x00, 0x20, 0xEF, 0xBE, 0x90] = .ok (.movImmToMem (.word 0xBEEF) (.direct 0x2000)) [0x90] := by
  decide
theorem witness_SixBytesSettleDecoding :
    6 ≤ [0xC7, 0x06, 0x00, 0x20, 0xEF, 0xBE].length ∧
    decode [0xF4, 0x90] = .unlisted [0x90] ∧ decode [0x0F, 0x05, 0x90] = .unlisted [0x90] := by decide
theorem witness_UnlistedFirstByteIsRefused :
    (¬ Final (loaded [0xF4] (st [] [])) ∧ Fetched (loaded [0xF4] (st [] [])) [0xF4] ∧
      (0xF4 : Byte).toNat ∉ listedFirstBytes) ∧
    (Fetched (loaded [0x66] (ip 0xFFFF)) [0x66] ∧ (0x66 : Byte).toNat ∉ listedFirstBytes) ∧
    (¬ Final (loaded [0xFF, 0xE8] (ip 0xFFFE)) ∧ Fetched (loaded [0xFF, 0xE8] (ip 0xFFFE)) [0xFF, 0xE8]) := by decide
/-- The pairs at the edges of each row of `UnlistedPair`, and pairs just outside it that rows match. -/
theorem witness_UnlistedFirstByteIsRefused_pairs :
    ([(0x0F, 0x7F), (0x0F, 0x90), (0x08, 0xBF), (0x0B, 0x00), (0x80, 0xC8), (0x83, 0xE7), (0xC6, 0x08), (0xC7, 0xFF),
      (0xF6, 0xC7), (0xF7, 0xD8), (0xFE, 0xD0), (0xFE, 0xE0), (0xFF, 0xD7), (0xFF, 0xE8), (0xFF, 0xF0)].all
      fun p : Byte × Byte => decide (UnlistedPair p.1 p.2)) = true ∧
    ([(0x0F, 0x80), (0x0F, 0x8F), (0x08, 0xC0), (0x80, 0xEF), (0xC7, 0xC7), (0xF6, 0xF0), (0xFE, 0xCF), (0xFF, 0xE7),
      (0xFF, 0x2F), (0x90, 0xFF)].all fun p : Byte × Byte => decide (¬ UnlistedPair p.1 p.2)) = true := by decide
theorem witness_StepRunsDecodedInstruction :
    ¬ Final (loaded [0xB8, 0x34, 0x12] (st [] [])) ∧
    decode (loaded [0xB8, 0x34, 0x12] (st [] [])).fetchBytes = .ok (.movImmToRegAlt (.word 0x1234) 0) [] := by decide
theorem witness_StepRunsInstructionInMemory :
    (Instr.movImmToMem (.word 0xBEEF) (.direct 0x2000)).wellFormed = true ∧
    ¬ Final (loaded [0xC7, 0x06, 0x00, 0x20, 0xEF, 0xBE] (ip 0xFFFA)) ∧
    Fetched (loaded [0xC7, 0x06, 0x00, 0x20, 0xEF, 0xBE] (ip 0xFFFA))
      (encode (.movImmToMem (.word 0xBEEF) (.direct 0x2000))) := by decide
/-- Each clause: a long instruction at FFFBh; no byte of the program, and one byte of it only; a program with no memory
under its second byte. -/
theorem witness_FetchStops :
    (let s := loaded [0xC7, 0x06, 0x00, 0x20, 0xEF] (ip 0xFFFB)
     ¬ Final s ∧ Fetched s [0xC7, 0x06, 0x00, 0x20, 0xEF] ∧ decode [0xC7, 0x06, 0x00, 0x20, 0xEF] = .short ∧
       0xFFFF < s.pc.toNat + 5) ∧
    (¬ Final State.reset ∧ Fetched State.reset [] ∧ decode [] = .short ∧
      State.reset.isCode (State.reset.cs.toNat * 16 + (State.reset.pc.toNat + 0)) = false) ∧
    (let s := loaded [0xB8] (st [] [])
     ¬ Final s ∧ Fetched s [0xB8] ∧ decode [0xB8] = .short ∧ s.pc.toNat + 1 ≤ 0xFFFF ∧
       s.isCode (s.cs.toNat * 16 + (s.pc.toNat + 1)) = false) ∧
    (let s := { loaded [0xB8, 0x34, 0x12] (st [] []) with memMap := [{ base := 0, size := 0x10101 }] }
     ¬ Final s ∧ Fetched s [0xB8] ∧ s.isCode (s.cs.toNat * 16 + (s.pc.toNat + 1)) = true ∧
       s.mapped (s.cs.toNat * 16 + (s.pc.toNat + 1)) = false) := by decide
theorem witness_StepAtHaltKeepsState :
    Final { st [] [] with haltAt := some { seg := 0x1000, off := 0x0100 } } ∧
    ¬ Final { st [] [] with haltAt := some { seg := 0x0FFF, off := 0x0110 } } := by decide
theorem witness_StepKeepsLaunchInvariant :
    Inv (loaded [0xCD, 0x21] (st [(4, 6)] [])) ∧ ∃ t, step (loaded [0xCD, 0x21] (st [(4, 6)] [])) = .next t :=
  ⟨by decide, next_of_isSome (by decide)⟩
theorem witness_StepKeepsProgramBytes :
    (∃ t, step (loaded [0x88, 0x07] (small 0x1FFF)) = .next t) ∧ (loaded [0x88, 0x07] (small 0x1FFF)).isCode 0x10101 = true ∧
    (loaded [0x88, 0x07] (small 0x1FFF)).mapped 0x12000 = false :=
  ⟨next_of_isSome (by decide), by decide, by decide⟩
theorem witness_StepKeepsUnwrittenState :
    ∃ t, step (loaded [0x90] (st [] [] { Flags.reset with intf := true, tf := true })) = .next t ∧
      t.flags.tf = true ∧ t.flags.intf = true := by
  obtain ⟨t, ht⟩ := next_of_isSome
    (o := step (loaded [0x90] (st [] [] { Flags.reset with intf := true, tf := true }))) (by decide)
  have h : (nextOf (step (loaded [0x90] (st [] [] { Flags.reset with intf := true, tf := true })))).all
      (fun t => t.flags.tf && t.flags.intf) = true := by decide
  rw [ht] at h
  exact ⟨t, ht, by simpa [nextOf] using h⟩
theorem witness_OnlyFarTransfersWriteCs :
    mayWriteCs (.jmpMem (.plain .bx)) = false ∧ ∃ t, exec (.jmpMem (.plain .bx)) (bx 0xFFFE 0x0100) = .next t :=
  ⟨by decide, next_of_isSome (by decide)⟩
theorem witness_RegisterViews :
    (3 : RegNum).toNat < 4 ∧ 4 ≤ (4 : RegNum).toNat ∧ (st [(0, 0x12AB)] []).reg .byte 4 = 0x12 ∧
    (st [(3, 0x12AB)] []).reg .byte 3 = 0xAB := by decide
/-- A value or a next state, where there is one. -/
def okOf {α : Type} : Res α → Option α
  | .ok a => some a
  | .error _ => none
theorem ok_of_isSome {α : Type} {r : Res α} (h : (okOf r).isSome = true) : ∃ a, r = .ok a := by
  cases r with
  | ok a => exact ⟨a, rfl⟩
  | error f => simp [okOf] at h
theorem witness_LittleEndianWords :
    (∃ v, (st [] [(0x11FFE, 0x34), (0x11FFF, 0x12)]).memRead 0x11FFE .word = .ok v) ∧
    Memory.wf (small 0).mem = true ∧ (∃ t, (small 0).memWrite 0x11FFE .word 0x1234 = .ok t) ∧
    ∃ t, (small 0).memWrite 0x11FFF .byte 0x12 = .ok t :=
  ⟨ok_of_isSome (by decide), by decide, ok_of_isSome (by decide), ok_of_isSome (by decide)⟩
theorem witness_SegmentAccess :
    ((0xFFFF : Word).toNat + Width.word.bytes - 1 > 0xFFFF) ∧
    ((0xFFFF : Word).toNat + Width.byte.bytes - 1 ≤ 0xFFFF ∧ (0xFFFE : Word).toNat + Width.word.bytes - 1 ≤ 0xFFFF) ∧
    ((∀ k < Width.word.bytes, (guarded 0).mapped (((guarded 0).seg .ds).toNat * 16 + (0x0201 : Word).toNat + k) = true) ∧
      ∀ k < Width.word.bytes, (guarded 0).isCode (((guarded 0).seg .ds).toNat * 16 + (0x0201 : Word).toNat + k) = false) ∧
    (∃ k < Width.word.bytes, (guarded 0).isCode (((guarded 0).seg .ds).toNat * 16 + (0x01FF : Word).toNat + k) = true) ∧
    (∃ k < Width.word.bytes, (small 0).mapped (((small 0).seg .ds).toNat * 16 + (0x1FFF : Word).toNat + k) = false) := by
  decide
theorem witness_EffectiveAddresses : BaseIndex.bxsi ≠ .bp ∧ BaseIndex.bx ≠ .bp := by decide
theorem witness_ConditionsAfterSubCompare :
    ∃ t, exec (.subReg1ToReg2 .word 3 0) (st [(0, 0x8000), (3, 1)] []) = .next t := next_of_isSome (by decide)
theorem witness_CarryAndOverflowAfterAdd :
    ∃ t, exec (.addReg1ToReg2 .byte 3 0) (st [(0, 0x80), (3, 0x80)] []) = .next t := next_of_isSome (by decide)

theorem witness_AddBetweenRegisters : Continues (ip 0xFFFD) 2 ∧ ¬ Continues (ip 0xFFFE) 2 := by decide
theorem witness_SubBetweenRegisters : Continues (ip 0xFFFD) 2 ∧ Continues (ip 0) 2 := by decide
theorem witness_AddSubMemoryToRegister :
    (Readable (bx 0xFFFE 0xFFFD) .ds ((bx 0xFFFE 0xFFFD).ea (.plain .bx)) .word ∧
      Continues (bx 0xFFFE 0xFFFD) (2 + (Mem.plain .bx).dispLength)) ∧
    (Readable (bx 0xFFFF 0) .ds ((bx 0xFFFF 0).ea (.plain .bx)) .byte ∧ Continues (bx 0xFFFF 0) (2 + (Mem.plain .bx).dispLength)) ∧
    ¬ Readable (bx 0xFFFF 0) .ds ((bx 0xFFFF 0).ea (.plain .bx)) .word ∧
    ¬ Readable (small 0x2000) .ds ((small 0x2000).ea (.plain .bx)) .byte := by decide
theorem witness_AddSubRegisterToMemory :
    (Writable (bx 0xFFFE 0xFFFD) .ds ((bx 0xFFFE 0xFFFD).ea (.plain .bx)) .word ∧
      Continues (bx 0xFFFE 0xFFFD) (2 + (Mem.plain .bx).dispLength)) ∧
    Writable (guarded 0x0201) .ds ((guarded 0x0201).ea (.plain .bx)) .word ∧
    Readable (guarded 0x01FF) .ds ((guarded 0x01FF).ea (.plain .bx)) .word ∧
    ¬ Writable (guarded 0x01FF) .ds ((guarded 0x01FF).ea (.plain .bx)) .word := by decide
theorem witness_AddSubImmediateToRegister :
    Continues (ip 0xFFFC) (2 + (ImmSW.sext 0xFF).length) ∧ Continues (ip 0xFFFB) (2 + (ImmSW.word 0x8000).length) ∧
    Continues (ip 0xFFFC) (2 + (ImmSW.byte true 0xFF).length) := by decide
theorem witness_AddSubImmediateToAccumulator :
    Continues (ip 0xFFFD) (1 + (Imm.byte 0xFF).length) ∧ Continues (ip 0xFFFC) (1 + (Imm.word 0xFF).length) := by decide
theorem witness_AddSubImmediateToMemory :
    (Writable (bx 0xFFFE 0xFFFB) .ds ((bx 0xFFFE 0xFFFB).ea (.plain .bx)) (immOperand (.word 1)).1 ∧
      Continues (bx 0xFFFE 0xFFFB) (2 + (Mem.plain .bx).dispLength + (ImmSW.word 1).length)) ∧
    ¬ Writable (guarded 0x01FF) .ds ((guarded 0x01FF).ea (.plain .bx)) (immOperand (.sext 1)).1 ∧
    Writable (guarded 0x01FF) .ds ((guarded 0x01FF).ea (.plain .bx)) (immOperand (.byte false 1)).1 := by decide
theorem witness_IncDecRegister : Continues (ip 0xFFFD) 2 ∧ Continues (ip 0xFFFE) 1 := by decide
theorem witness_IncDecMemory :
    (Writable (bx 0xFFFF 0xFFFD) .ds ((bx 0xFFFF 0xFFFD).ea (.plain .bx)) .byte ∧
      Continues (bx 0xFFFF 0xFFFD) (2 + (Mem.plain .bx).dispLength)) ∧
    ¬ Writable (guarded 0x0200) .ds ((guarded 0x0200).ea (.plain .bx)) .byte := by decide
theorem witness_DaaAdjustsAl : Continues (ip 0xFFFE) 1 ∧ ¬ Continues (ip 0xFFFF) 1 := by decide
theorem witness_DasAdjustsAl : Continues (ip 0xFFFE) 1 ∧ Continues (ip 0) 1 := by decide
/-- 57 + 57 = 1 14 and 12 - 24 = -1 88 in packed BCD, all four instructions completing. -/
theorem witness_DecimalAdjustGivesBcd :
    (IsBcd ((st [(0, 0x57)] []).reg .byte 0) ∧ IsBcd 0x57 ∧
      ∃ t, exec (.addImmToAcc (.byte 0x57)) (st [(0, 0x57)] []) = .next t ∧ ∃ u, exec .daa t = .next u) ∧
    (IsBcd ((st [(0, 0x12)] []).reg .byte 0) ∧ IsBcd 0x24 ∧
      ∃ t, exec (.subImmToAcc (.byte 0x24)) (st [(0, 0x12)] []) = .next t ∧ ∃ u, exec .das t = .next u) :=
  ⟨⟨by decide, by decide, _, rfl, next_of_isSome (by decide)⟩, by decide, by decide, _, rfl, next_of_isSome (by decide)⟩
theorem witness_DivCompletes :
    (let s := { st [(0, 0xFEFF), (3, 0xFF)] [] with pc := 0xFFFD }
     s.reg .byte 3 ≠ 0 ∧ dividendNumber s .byte / (s.reg .byte 3).toNat ≤ 2 ^ Width.byte.bits - 1 ∧ Continues s 2) ∧
    (let s := st [(0, 0xFFFF), (2, 0xFFFE), (3, 0xFFFE)] [(0x1FFFE, 0xFF), (0x1FFFF, 0xFF)]
     Readable s .ds (s.ea (.plain .bx)) .word ∧ Memory.readValue s.mem (eaAddr s (.plain .bx)) .word ≠ 0 ∧
     dividendNumber s .word / (Memory.readValue s.mem (eaAddr s (.plain .bx)) .word).toNat ≤ 2 ^ Width.word.bits - 1 ∧
     Continues s (2 + (Mem.plain .bx).dispLength)) ∧
    ¬ Readable (bx 0xFFFF 0) .ds ((bx 0xFFFF 0).ea (.plain .bx)) .word := by decide
theorem witness_SoftwareInterruptsEnter :
    (Memory.wf (st [(4, 6)] []).mem = true ∧ StackRoom (st [(4, 6)] []) ∧ VectorMapped (st [(4, 6)] []) 0xFF ∧
      VectorMapped (st [(4, 6)] []) 3) ∧
    ¬ StackRoom (st [(4, 5)] []) ∧
    ¬ VectorMapped { st [] [] with memMap := [{ base := 0, size := 0x3FF }, { base := 0x10000, size := 0x10000 }] } 0xFF ∧
    StackRoom { st [] [] with memMap := [{ base := 0, size := 0x3FF }, { base := 0x10000, size := 0x10000 }] } ∧
    ¬ VectorMapped { st [] [] with memMap := [{ base := 0x10000, size := 0x10000 }] } 3 := by decide
theorem witness_DivideErrorEntersVectorZero_register :
    (let s := st [(0, 0x0064), (4, 6)] []
     s.reg .byte 3 = 0 ∧ Memory.wf s.mem = true ∧ StackRoom s ∧ VectorMapped s 0) ∧
    (let s := st [(0, 0xFF00), (3, 0xFF), (4, 5)] []
     2 ^ Width.byte.bits ≤ dividendNumber s .byte / (s.reg .byte 3).toNat ∧ ¬ (StackRoom s ∧ VectorMapped s 0)) := by decide
theorem witness_DivideErrorEntersVectorZero_memory :
    (let s := st [(2, 0xFFFF), (4, 6)] [(0x10000, 0xFF), (0x10001, 0xFF)]
     Readable s .ds (s.ea (.plain .bx)) .word ∧
     2 ^ Width.word.bits ≤ dividendNumber s .word / (Memory.readValue s.mem (eaAddr s (.plain .bx)) .word).toNat ∧
     Memory.wf s.mem = true ∧ StackRoom s ∧ VectorMapped s 0) ∧
    (let s := st [(4, 5)] []
     Readable s .ds (s.ea (.plain .bx)) .byte ∧ Memory.readValue s.mem (eaAddr s (.plain .bx)) .byte = 0 ∧
     ¬ (StackRoom s ∧ VectorMapped s 0)) := by decide
theorem witness_InReadsPort : Continues (ip 0xFFFD) 2 ∧ Continues (ip 0xFFFE) 1 := by decide
theorem witness_InsStoresPortAnswer :
    (Writable (st [(7, 0xFFFE)] []) .es ((st [(7, 0xFFFE)] []).reg .word 7) .word ∧ Continues (st [(7, 0xFFFE)] []) 1) ∧
    ¬ Writable (st [(7, 0xFFFF)] []) .es ((st [(7, 0xFFFF)] []).reg .word 7) .word := by decide
theorem witness_ConditionalJumps :
    (ip 0xFFFF).flags.cond .nb = true ∧ ((ip 0xFFFD).flags.cond .b = false ∧ Continues (ip 0xFFFD) 2) ∧
    ((ip 0xFFFE).flags.cond .b = false ∧ ¬ Continues (ip 0xFFFE) 2) ∧
    ((ip 0xFFFB).flags.cond .le = false ∧ Continues (ip 0xFFFB) 4) ∧
    ((ip 0xFFFC).flags.cond .le = false ∧ ¬ Continues (ip 0xFFFC) 4) := by decide
theorem witness_IndirectJumps :
    Readable (bx 0xFFFE 0xFFFF) .ds ((bx 0xFFFE 0xFFFF).ea (.plain .bx)) .word ∧
    ¬ Readable (bx 0xFFFF 0xFFFF) .ds ((bx 0xFFFF 0xFFFF).ea (.plain .bx)) .word := by decide
theorem witness_FarJumps :
    0xFFFC < ((bx 0xFFFD 0).ea (.plain .bx)).toNat ∧
    (((bx 0xFFFC 0).ea (.plain .bx)).toNat ≤ 0xFFFC ∧
      ∀ k < 4, (bx 0xFFFC 0).mapped (eaAddr (bx 0xFFFC 0) (.plain .bx) + k) = true) ∧
    (((small 0x1FFF).ea (.plain .bx)).toNat ≤ 0xFFFC ∧
      ¬ ∀ k < 2, (small 0x1FFF).mapped (eaAddr (small 0x1FFF) (.plain .bx) + k) = true) ∧
    (((small 0x1FFD).ea (.plain .bx)).toNat ≤ 0xFFFC ∧
      (∀ k < 2, (small 0x1FFD).mapped (eaAddr (small 0x1FFD) (.plain .bx) + k) = true) ∧
      ¬ ∀ k < 2, (small 0x1FFD).mapped (eaAddr (small 0x1FFD) (.plain .bx) + 2 + k) = true) := by decide
theorem witness_JcxzJumpsOnZero :
    (ip 0xFFFF).reg .word 1 = 0 ∧ (st [(1, 0x0100)] []).reg .word 1 ≠ 0 ∧
    Continues { st [(1, 0x0100)] [] with pc := 0xFFFD } 2 ∧ ¬ Continues { st [(1, 0x0100)] [] with pc := 0xFFFE } 2 := by decide
/-- CX = 0 goes to FFFFh and is taken; CX = 1 goes to 0 and goes on. -/
theorem witness_LoopDecrementsCx :
    ((0xFFFF : Word).toNat : Int) = (((st [] []).reg .word 1).toNat - 1 : Int) % 0x10000 ∧ (0xFFFF : Word) ≠ 0 ∧
    ((0 : Word).toNat : Int) = (((st [(1, 1)] []).reg .word 1).toNat - 1 : Int) % 0x10000 ∧
    Continues { st [(1, 1)] [] with pc := 0xFFFD } 2 ∧ ¬ Continues { st [(1, 1)] [] with pc := 0xFFFE } 2 := by decide
theorem witness_MovToRegister :
    Continues (ip 0xFFFD) 2 ∧ Continues (ip 0xFFFB) (2 + (Imm.word 0).length) ∧ Continues (ip 0xFFFD) (1 + (Imm.byte 0).length) ∧
    (0b001 : BitVec 3) ≠ 0 ∧ (0b111 : BitVec 3) ≠ 0 := by decide
theorem witness_MovFromMemory :
    (Readable (bx 0xFFFE 0xFFFD) .ds ((bx 0xFFFE 0xFFFD).ea (.plain .bx)) .word ∧
      Continues (bx 0xFFFE 0xFFFD) (2 + (Mem.plain .bx).dispLength)) ∧
    ¬ Readable (bx 0xFFFF 0) .ds ((bx 0xFFFF 0).ea (.plain .bx)) .word ∧
    (Readable (ip 0xFFFC) .ds 0xFFFF .byte ∧ Continues (ip 0xFFFC) 3) ∧ ¬ Readable (ip 0) .ds 0xFFFF .word := by decide
theorem witness_MovToMemory :
    (Writable (bx 0xFFFE 0xFFFD) .ds ((bx 0xFFFE 0xFFFD).ea (.plain .bx)) .word ∧
      Continues (bx 0xFFFE 0xFFFD) (2 + (Mem.plain .bx).dispLength)) ∧
    ¬ Writable (guarded 0x0200) .ds ((guarded 0x0200).ea (.plain .bx)) .byte ∧
    (Writable (bx 0xFFFE 0xFFFB) .ds ((bx 0xFFFE 0xFFFB).ea (.plain .bx)) (plainOperand (.word 1)).1 ∧
      Continues (bx 0xFFFE 0xFFFB) (2 + (Mem.plain .bx).dispLength + (Imm.word 1).length)) ∧
    ¬ Writable (guarded 0x01FF) .ds ((guarded 0x01FF).ea (.plain .bx)) (plainOperand (.word 1)).1 ∧
    (Writable (ip 0xFFFC) .ds 0xFFFE .word ∧ Continues (ip 0xFFFC) 3) ∧ ¬ Writable (guarded 0) .ds 0x0200 .byte := by decide
theorem witness_NopOnlyAdvances : Continues (ip 0xFFFE) 1 ∧ ¬ Continues (ip 0xFFFF) 1 := by decide
theorem witness_NotInvertsBits :
    Continues (ip 0xFFFD) 2 ∧
    (Writable (bx 0xFFFE 0xFFFD) .ds ((bx 0xFFFE 0xFFFD).ea (.plain .bx)) .word ∧
      Continues (bx 0xFFFE 0xFFFD) (2 + (Mem.plain .bx).dispLength)) ∧
    ¬ Writable (small 0x2000) .ds ((small 0x2000).ea (.plain .bx)) .byte := by decide
theorem witness_OrBetweenRegisters : Continues (ip 0xFFFD) 2 ∧ Continues (ip 0) 2 := by decide
/-- An accessible operand beside `next` = 10000h: the clauses of the memory forms, DIV and INS where `next` exceeds FFFFh. -/
theorem witness_next_past_segment :
    (Writable (bx 0xFFFE 0xFFFE) .ds ((bx 0xFFFE 0xFFFE).ea (.plain .bx)) .word ∧
      ¬ Continues (bx 0xFFFE 0xFFFE) (2 + (Mem.plain .bx).dispLength)) ∧
    (Writable (bx 0 0xFFFC) .ds ((bx 0 0xFFFC).ea (.plain .bx)) .word ∧
      ¬ Continues (bx 0 0xFFFC) (2 + (Mem.plain .bx).dispLength + (ImmSW.word 1).length)) ∧
    (Writable (ip 0xFFFD) .ds 0xFFFE .word ∧ ¬ Continues (ip 0xFFFD) 3) ∧
    (Writable (ip 0xFFFF) .es ((ip 0xFFFF).reg .word 7) .word ∧ ¬ Continues (ip 0xFFFF) 1) ∧
    (let s := { st [(0, 7), (3, 2)] [(0x10002, 2)] with pc := 0xFFFE }
     s.reg .byte 3 ≠ 0 ∧ dividendNumber s .byte / (s.reg .byte 3).toNat ≤ 2 ^ Width.byte.bits - 1 ∧ ¬ Continues s 2 ∧
     Readable s .ds (s.ea (.plain .bx)) .byte ∧ Memory.readValue s.mem (eaAddr s (.plain .bx)) .byte ≠ 0) := by decide
theorem witness_RegisterFormsStopOnlyAtSegmentEnd :
    isRegisterForm (.addImmToReg (.word 1) 0) = true ∧ Continues (ip 0xFFFB) (Instr.addImmToReg (.word 1) 0).length ∧
    ¬ Continues (ip 0xFFFC) (Instr.addImmToReg (.word 1) 0).length := by decide
theorem witness_RegisterDestinationFrame :
    (registerDest (.addMemToReg .byte 7 (.plain .bx)) = some (.byte, 7) ∧
      ∃ t, exec (.addMemToReg .byte 7 (.plain .bx)) (bx 0xFFFF 0x0100) = .next t) ∧
    (registerDest .daa = some (.byte, 0) ∧ ∃ t, exec .daa (ip 0xFFFE) = .next t) :=
  ⟨⟨rfl, next_of_isSome (by decide)⟩, rfl, next_of_isSome (by decide)⟩
theorem witness_StoreFrame :
    (storeDest (.incMem .word (.plain .bx)) = some (.word, .plain .bx) ∧
      ∃ t, exec (.incMem .word (.plain .bx)) (bx 0xFFFE 0x0100) = .next t) ∧
    (storeDest (.movAccToMem .byte 0xFFFF) = some (.byte, .direct 0xFFFF) ∧
      ∃ t, exec (.movAccToMem .byte 0xFFFF) (ip 0) = .next t) :=
  ⟨⟨rfl, next_of_isSome (by decide)⟩, rfl, next_of_isSome (by decide)⟩
theorem witness_FlagEffects :
    ((∃ t, exec (.jcxz 0x10) (ip 0xFFFF) = .next t) ∧ writesNoFlag (.jcxz 0x10) = true) ∧
    ((∃ t, exec (.incReg .word 0) (ip 0) = .next t) ∧ isIncDec (.incReg .word 0) = true) ∧
    ((∃ t, exec .int3 (st [(4, 6)] []) = .next t) ∧ isInt .int3 = true) ∧
    ((∃ t, exec (.subImmToAcc (.byte 1)) (ip 0) = .next t) ∧ isInt (.subImmToAcc (.byte 1)) = false ∧
      mayWriteCs (.subImmToAcc (.byte 1)) = false) :=
  ⟨⟨next_of_isSome (by decide), rfl⟩, ⟨next_of_isSome (by decide), rfl⟩, ⟨next_of_isSome (by decide), rfl⟩,
    next_of_isSome (by decide), rfl, rfl⟩
theorem witness_JumpFrame :
    (isJump (.loop 0xFE) = true ∧ ∃ t, exec (.loop 0xFE) (ip 0xFFFE) = .next t) ∧
    (isJump (.jmpShort 0) = true ∧ mayWriteCs (.jmpShort 0) = false ∧ (∀ d, Instr.jmpShort 0 ≠ .loop d) ∧
      ∃ t, exec (.jmpShort 0) (ip 0xFFFE) = .next t) :=
  ⟨⟨rfl, next_of_isSome (by decide)⟩, rfl, rfl, by simp, next_of_isSome (by decide)⟩
theorem witness_InputFrame :
    (∃ t, exec (.inFixed .byte 0x60) (asked [0xAB] (st [] [])) = .next t) ∧
    (∃ t, exec (.inVariable .word) (asked [0xAB] (st [] [])) = .next t) ∧
    ∃ t, exec (.ins .word) (asked [0xAB] (st [(7, 0xFFFE)] [])) = .next t :=
  ⟨next_of_isSome (by decide), next_of_isSome (by decide), next_of_isSome (by decide)⟩
theorem witness_InterruptAndDivFrame :
    (isInt (.intN 0xFF) = true ∧ ∃ t, exec (.intN 0xFF) (st [(4, 6)] []) = .next t) ∧
    (∃ t, exec (.divReg .byte 3) (st [(0, 7), (3, 2)] []) = .next t) ∧
    ∃ t, exec (.divMem .byte (.plain .bx)) (st [(4, 6)] []) = .next t :=
  ⟨⟨rfl, next_of_isSome (by decide)⟩, next_of_isSome (by decide), next_of_isSome (by decide)⟩

end Sys2Proof.Tests
end

section
/-! The family of the state: what every step keeps, the reset values, the register views, where register forms stop,
and the frames of the forms that write one register or one memory operand. -/

namespace Sys2Proof.Machine

/-! ## What each effect of an instruction keeps -/

section
variable {s t : State}

/-- An effect writes status flags only, or it is interrupt entry, which clears IF and TF (R26, R221). -/
theorem Effect.flags_cases (h : Effect s t) :
    OnlyStatusFlags s.flags t.flags ∨ t.flags = { s.flags with intf := false, tf := false } := by
  cases h with
  | register _ _ _ _ _ _ hf => exact .inl hf
  | store _ _ _ _ _ _ _ hf => exact .inl hf
  | transfer => exact .inl (onlyStatus_refl _)
  | input => exact .inl (onlyStatus_refl _)
  | ins => exact .inl (onlyStatus_refl _)
  | divide => exact .inl (onlyStatus_divFlags s)
  | enter => exact .inr rfl

/-- No effect writes SS, DS, ES, FS, GS or a launch parameter (R4, R27). -/
theorem Effect.segmentsAndLaunch (h : Effect s t) : SameSegmentsAndLaunch s t := by
  cases h <;> exact ⟨rfl, rfl, rfl, rfl, rfl, rfl, rfl, rfl⟩

/-- Every effect on memory is made of writes of bytes and words, which keep the canonical form (log 3). -/
theorem Effect.wf_mem (h : Effect s t) (hm : Memory.wf s.mem = true) : Memory.wf t.mem = true := by
  cases h with
  | register => exact hm
  | store => exact Memory.wf_writeValue hm _ _ _
  | transfer => exact hm
  | input => exact hm
  | ins => exact Memory.wf_writeValue hm _ _ _
  | divide => exact hm
  | enter => exact wf_pushedMemory hm

/-- DIV puts quotient and remainder into views, so bits 31..16 of every general register stay (R20, R164). -/
theorem putQuotient_upper (s : State) (w : Width) (q rem : Nat) (r : RegNum) :
    ((s.putQuotient w q rem).reg32 r).extractLsb' 16 16 = (s.reg32 r).extractLsb' 16 16 := by
  cases w
  · exact (setReg_upper _ .byte ahReg _ r).trans (setReg_upper s .byte axReg _ r)
  · exact (setReg_upper _ .word dxReg _ r).trans (setReg_upper s .word axReg _ r)

/-- General registers are written through their views only, which leaves bits 31..16 (R20 to R22). -/
theorem Effect.upper (h : Effect s t) (q : RegNum) :
    (t.reg32 q).extractLsb' 16 16 = (s.reg32 q).extractLsb' 16 16 := by
  cases h with
  | register w r v => exact setReg_upper s w r v q
  | store => rfl
  | transfer => rfl
  | input w v => exact setReg_upper s w axReg v q
  | ins _ _ di => exact setReg_upper s .word diReg di q
  | divide w n rem => exact putQuotient_upper s w n rem q
  | enter => exact setReg_upper s .word spReg _ q

/-- A step has the effect of an instruction; the one that keeps the state at `HaltAt` is a transfer to CS:IP. -/
theorem step_effect (h : step s = .next t) : Effect s t := by
  rcases step_next h with ⟨-, rfl⟩ | ⟨i, rest, -, -, he⟩
  · exact .transfer t.cs t.pc
  · exact exec_effect he

end

/-! ## Invariants of the whole machine -/

/-- Settles O12: the flags an effect may write are none of those the launch premises fix, but for TF, which interrupt
entry clears. -/
theorem stepKeepsLaunchInvariant : Obligations.StepKeepsLaunchInvariant := by
  intro s t ⟨hm, htf, h1, h3, h5, h15⟩ hstep
  have he := step_effect hstep
  refine ⟨he.wf_mem hm, ?_⟩
  rcases he.flags_cases with ⟨e1, e3, e5, etf, -, -, -, e15⟩ | e
  · exact ⟨etf.trans htf, e1.trans h1, e3.trans h3, e5.trans h5, e15.trans h15⟩
  · rw [e]
    exact ⟨rfl, h1, h3, h5, h15⟩

/-- Settles O14: each kind of state by what the effects keep of it. -/
theorem stepKeepsUnwrittenState : Obligations.StepKeepsUnwrittenState := by
  intro s t hstep
  have he := step_effect hstep
  obtain ⟨hss, hds, hes, hfs, hgs, -⟩ := he.segmentsAndLaunch
  refine ⟨hss, hds, hes, hfs, hgs, ?_⟩
  rcases he.flags_cases with ⟨-, -, -, etf, eif, edf, ehigh, -⟩ | e
  · exact ⟨edf, ehigh, etf ▸ id, eif ▸ id, he.upper⟩
  · rw [e]
    exact ⟨rfl, rfl, nofun, nofun, he.upper⟩

/-- Settles O11, on the fixed values of the reset state. -/
theorem launchInvariantAtReset : Obligations.LaunchInvariantAtReset :=
  ⟨rfl, rfl, rfl, rfl, rfl, rfl⟩

/-- Every general register is 0 after reset (log 1). -/
theorem reset_reg32 (q : RegNum) : State.reset.reg32 q = 0 := by
  simp only [reg32_eq, State.reset, Vector.getElem_replicate]

/-- After reset `MemMap` is the addresses a real-address linear address can have (R51; log 4). -/
theorem reset_mapped (a : Nat) : State.reset.mapped a = true ↔ a ≤ 0x10FFEF := by
  simp only [State.mapped, State.reset, inRegions, addressSpace, List.any_cons, List.any_nil, Bool.or_false,
    decide_eq_true_eq]
  omega

/-- Settles O16: registers and `MemMap` by the lemmas above, every other value as `State.reset` writes it. -/
theorem resetState : Obligations.ResetState :=
  ⟨rfl, rfl, by decide, rfl, rfl, rfl, rfl, rfl, reset_reg32, fun _ => rfl, rfl, reset_mapped, rfl, rfl, rfl, rfl, rfl⟩

/-! ## Register views -/

/-- Writing a view changes that register only, and of it the bits of the view only (R20 to R22). -/
theorem onlyRegister_setReg (s : State) (w : Width) (r : RegNum) (v : BitVec w.bits) :
    OnlyRegister w r s (s.setReg w r v) := by
  refine ⟨fun q hq => reg_setReg_ne s w (Ne.symm hq) v, setReg_upper s w r v, ?_⟩
  rintro rfl q hq
  exact reg_word_setReg_byte s r q (by bv_omega) v

/-- What `OnlyRegister` says of a state it says of every state with the same general registers. -/
theorem OnlyRegister.congr {w : Width} {r : RegNum} {s t u : State} (h : OnlyRegister w r s t) (hx : u.x = t.x) :
    OnlyRegister w r s u := by
  simpa only [OnlyRegister, reg_congr hx, reg32_congr hx] using h

/-- Settles O17: reads by the tables of R21 and R22, writes by the laws of the register file. -/
theorem registerViews : Obligations.RegisterViews := by
  refine ⟨fun r s => ⟨rfl, fun h => ?_, fun h => ?_⟩, fun w r v s => ⟨?_, onlyRegister_setReg s w r v, ?_⟩⟩
  · exact if_pos (by bv_omega)
  · exact if_neg (by bv_omega)
  · exact reg_setReg_same s w r v
  · rw [setReg_eq]

/-! ## Where register forms stop -/

/-- The result goes on to `next` where that is at most FFFFh, and stops with `SegLimit` on CS where it is not (R24). -/
def StopsOnlyAtSegmentEnd (s : State) (len : Nat) (o : Host.Outcome State Fault Refusal) : Prop :=
  (Continues s len → ∃ t, o = .next t ∧ t.pc = pcAfter s len) ∧ (¬ Continues s len → EndsPastSegment o)

/-- `advance` checks nothing but `next`, which depends on IP alone. -/
theorem advance_stopsOnlyAtSegmentEnd {s u : State} {len : Nat} (hp : u.pc = s.pc) :
    StopsOnlyAtSegmentEnd s len (Res.outcome (u.advance len)) := by
  refine ⟨fun hc => ⟨_, outcome_next.2 (advance_ok.2 ⟨?_, rfl⟩), ?_⟩, fun hc => ?_⟩
  · rwa [Continues, hp]
  · rw [pcAfter, ← hp]
  · exact endsPastSegment_error (advance_limit hp hc)

/-- Settles O54: every register form is `advance` after a write of a register, flags, the port oracle or the count of
draws, none of which is IP. -/
theorem registerFormsStopOnlyAtSegmentEnd : Obligations.RegisterFormsStopOnlyAtSegmentEnd := by
  intro i s hi
  cases i
  case nop => exact advance_stopsOnlyAtSegmentEnd rfl
  case addReg1ToReg2 | addReg2ToReg1 | addImmToReg | addImmToAcc | subReg1ToReg2 | subReg2ToReg1 | subImmToReg
      | subImmToAcc | movReg1ToReg2 | movReg2ToReg1 | movImmToReg | movImmToRegAlt | orReg1ToReg2 | orReg2ToReg1
      | notReg | incReg | incRegAlt | decReg | decRegAlt | daa | das | inFixed | inVariable =>
    exact advance_stopsOnlyAtSegmentEnd (setReg_pc ..)
  all_goals cases hi

/-! ## Instructions that cannot write CS, by what they write -/

/-- The flags `g` an instruction may leave in place of `f`: the six status flags at most, none where it writes no flag,
and CF as before for INC and DEC (R26). -/
structure FlagsAllowed (i : Instr) (f g : Flags) : Prop where
  status : OnlyStatusFlags f g
  same : writesNoFlag i = true → g = f
  carry : isIncDec i = true → g.cf = f.cf

theorem FlagsAllowed.refl (i : Instr) (f : Flags) : FlagsAllowed i f f := ⟨onlyStatus_refl f, fun _ => rfl, fun _ => rfl⟩

/-- An instruction outside the two classes may write any status flag. -/
theorem FlagsAllowed.of_status {i : Instr} {f g : Flags} (h : OnlyStatusFlags f g) (hn : writesNoFlag i = false)
    (hc : isIncDec i = false) : FlagsAllowed i f g :=
  ⟨h, by rw [hn]; exact nofun, by rw [hc]; exact nofun⟩

/-- A flag function that keeps CF suits INC and DEC. -/
theorem FlagsAllowed.of_carry {i : Instr} {f g : Flags} (h : OnlyStatusFlags f g) (hn : writesNoFlag i = false)
    (hc : g.cf = f.cf) : FlagsAllowed i f g :=
  ⟨h, by rw [hn]; exact nofun, fun _ => hc⟩

/-- The next states of an instruction that cannot write CS: one register view (`registerDest`), one memory operand
(`storeDest`), or, where it is of neither class (jumps, NOP, IN, INS), no flag and no segment register. What the last
class does to registers, memory and ports is in the constructors of `Effect`. -/
inductive PlainEffect (i : Instr) (s : State) : State → Prop
  | register {w : Width} {r : RegNum} (hd : registerDest i = some (w, r)) (v : BitVec w.bits) {f : Flags}
      (hf : FlagsAllowed i s.flags f) (pc : Word) (draws : Nat) :
      PlainEffect i s { s with x := (s.setReg w r v).x, flags := f, pc := pc, draws := draws }
  | store {w : Width} {m : Mem} (hd : storeDest i = some (w, m)) (v : BitVec w.bits) {f : Flags}
      (hf : FlagsAllowed i s.flags f) (pc : Word) :
      PlainEffect i s { s with mem := Memory.writeValue s.mem (eaAddr s m) w v, flags := f, pc := pc }
  | other (hr : registerDest i = none) (hs : storeDest i = none) (x : Vector Dword 8) (mem : Memory) (pc : Word)
      (portAnswers : List Word) (portReads : Nat) :
      PlainEffect i s { s with x := x, mem := mem, pc := pc, portAnswers := portAnswers, portReads := portReads }

section
variable {i : Instr} {s t : State} {w : Width} {len : Nat}

theorem plainEffect_binToReg {op : BinOp w} (hop : ∀ a b f, FlagsAllowed i f (op a b f).flags) {dst : RegNum}
    {v : BitVec w.bits} (hd : registerDest i = some (w, dst)) (h : s.binToReg op dst v len = .ok t) :
    PlainEffect i s t := by
  obtain ⟨-, rfl⟩ := binToReg_ok.1 h
  rw [setReg_eq]
  exact .register hd _ (hop _ _ _) _ s.draws

theorem plainEffect_binToReg_drawn {op : BinOp w} (hop : ∀ a b f, FlagsAllowed i f (op a b f).flags) {dst : RegNum}
    {v : BitVec w.bits} (hd : registerDest i = some (w, dst)) (h : (s.drawn 1).binToReg op dst v len = .ok t) :
    PlainEffect i s t := by
  obtain ⟨-, rfl⟩ := binToReg_drawn_ok.1 h
  rw [setReg_eq]
  exact .register hd _ (hop _ _ _) _ _

theorem plainEffect_binMemToReg {op : BinOp w} (hop : ∀ a b f, FlagsAllowed i f (op a b f).flags) {dst : RegNum}
    {m : Mem} (hd : registerDest i = some (w, dst)) (h : s.binMemToReg op dst m len = .ok t) : PlainEffect i s t := by
  obtain ⟨_, -, h⟩ := bind_ok.1 h
  exact plainEffect_binToReg hop hd h

theorem plainEffect_unReg {op : UnOp w} (hop : ∀ a f, FlagsAllowed i f (op a f).flags) {dst : RegNum}
    (hd : registerDest i = some (w, dst)) (h : s.unReg op dst len = .ok t) : PlainEffect i s t := by
  obtain ⟨-, rfl⟩ := unReg_ok.1 h
  rw [setReg_eq]
  exact .register hd _ (hop _ _) _ s.draws

theorem plainEffect_adjustAl {fn : Byte → Flags → Bool → Alu 8} (hfn : ∀ a f o, FlagsAllowed i f (fn a f o).flags)
    (hd : registerDest i = some (.byte, axReg)) (h : s.adjustAl fn len = .ok t) : PlainEffect i s t := by
  obtain ⟨-, rfl⟩ := adjustAl_ok.1 h
  rw [setReg_eq]
  exact .register hd _ (hfn _ _ _) _ _

theorem plainEffect_moveToReg {dst : RegNum} {v : BitVec w.bits} (hd : registerDest i = some (w, dst))
    (h : s.moveToReg dst v len = .ok t) : PlainEffect i s t := by
  obtain ⟨-, rfl⟩ := moveToReg_ok.1 h
  rw [setReg_eq]
  exact .register hd _ (.refl i s.flags) _ s.draws

theorem plainEffect_binToMem {op : BinOp w} (hop : ∀ a b f, FlagsAllowed i f (op a b f).flags) {m : Mem}
    {v : BitVec w.bits} (hd : storeDest i = some (w, m)) (h : s.binToMem op m v len = .ok t) : PlainEffect i s t := by
  obtain ⟨-, -, rfl⟩ := binToMem_ok.1 h
  exact .store hd _ (hop _ _ _) _

theorem plainEffect_unMem {op : UnOp w} (hop : ∀ a f, FlagsAllowed i f (op a f).flags) {m : Mem}
    (hd : storeDest i = some (w, m)) (h : s.unMem op m len = .ok t) : PlainEffect i s t := by
  obtain ⟨-, -, rfl⟩ := unMem_ok.1 h
  exact .store hd _ (hop _ _) _

/-- A store of a value at EA in EASeg; MOV AL, AX to memory has the Direct Address as its operand (R198). -/
theorem plainEffect_moveToSeg {m : Mem} {v : BitVec w.bits} (hd : storeDest i = some (w, m))
    (h : s.moveToSeg (eaSeg m) (s.ea m) v len = .ok t) : PlainEffect i s t := by
  obtain ⟨-, -, rfl⟩ := moveToSeg_ok.1 h
  exact .store hd _ (.refl i s.flags) _

theorem plainEffect_branch {u : State} {taken : Bool} {rel : Word} {x : Vector Dword 8} (hu : u = { s with x := x })
    (hr : registerDest i = none) (hs : storeDest i = none) (h : u.branch taken len rel = .ok t) :
    PlainEffect i s t := by
  subst hu
  rcases branch_ok.1 h with ⟨-, rfl⟩ | ⟨-, -, rfl⟩
  · exact .other hr hs x s.mem _ s.portAnswers s.portReads
  · exact .other hr hs x s.mem _ s.portAnswers s.portReads

theorem plainEffect_input {port : Word} (hr : registerDest i = none) (hs : storeDest i = none)
    (h : s.input w port len = .ok t) : PlainEffect i s t := by
  obtain ⟨-, rfl⟩ := input_ok.1 h
  rw [setReg_eq]
  exact .other hr hs _ s.mem _ _ _

end

/-- The width of `1000 00sw` in the obligations is the model's (R89). -/
theorem immOperand_width (imm : ImmSW) : (immOperand imm).1 = immSWWidth imm := by
  cases imm <;> rfl

/-- The width of an immediate without an s bit in the obligations is the model's (R95). -/
theorem plainOperand_width (imm : Imm) : (plainOperand imm).1 = imm.width := by
  cases imm <;> rfl

/-- An instruction that cannot write CS completes with the effect of its class. -/
theorem exec_plainEffect {i : Instr} {s t : State} (hcs : mayWriteCs i = false) (h : exec i s = .next t) :
    PlainEffect i s t := by
  cases i
  case divReg | divMem | intN | int3 | jmpFar | jmpFarMem => cases hcs
  case ins => obtain ⟨-, -, rfl⟩ := ins_ok.1 h; exact .other rfl rfl _ _ _ _ _
  case jmpShort | jmpDirect | jmpReg =>
    obtain rfl := Host.Outcome.next.inj h
    exact .other rfl rfl s.x s.mem _ s.portAnswers s.portReads
  all_goals replace h := outcome_next.1 h
  case addReg1ToReg2 | addReg2ToReg1 =>
    exact plainEffect_binToReg (fun _ _ _ => .of_status (onlyStatus_addFlags ..) rfl rfl) rfl h
  case subReg1ToReg2 | subReg2ToReg1 =>
    exact plainEffect_binToReg (fun _ _ _ => .of_status (onlyStatus_subFlags ..) rfl rfl) rfl h
  case addImmToReg imm _ =>
    exact plainEffect_binToReg (fun _ _ _ => .of_status (onlyStatus_addFlags ..) rfl rfl)
      (by rw [← immOperand_width]; rfl) h
  case subImmToReg imm _ =>
    exact plainEffect_binToReg (fun _ _ _ => .of_status (onlyStatus_subFlags ..) rfl rfl)
      (by rw [← immOperand_width]; rfl) h
  case addImmToAcc imm =>
    exact plainEffect_binToReg (fun _ _ _ => .of_status (onlyStatus_addFlags ..) rfl rfl)
      (by rw [← plainOperand_width]; rfl) h
  case subImmToAcc imm =>
    exact plainEffect_binToReg (fun _ _ _ => .of_status (onlyStatus_subFlags ..) rfl rfl)
      (by rw [← plainOperand_width]; rfl) h
  case addMemToReg =>
    exact plainEffect_binMemToReg (fun _ _ _ => .of_status (onlyStatus_addFlags ..) rfl rfl) rfl h
  case subMemToReg =>
    exact plainEffect_binMemToReg (fun _ _ _ => .of_status (onlyStatus_subFlags ..) rfl rfl) rfl h
  case addRegToMem => exact plainEffect_binToMem (fun _ _ _ => .of_status (onlyStatus_addFlags ..) rfl rfl) rfl h
  case subRegToMem => exact plainEffect_binToMem (fun _ _ _ => .of_status (onlyStatus_subFlags ..) rfl rfl) rfl h
  case addImmToMem imm _ =>
    exact plainEffect_binToMem (fun _ _ _ => .of_status (onlyStatus_addFlags ..) rfl rfl)
      (by rw [← immOperand_width]; rfl) h
  case subImmToMem imm _ =>
    exact plainEffect_binToMem (fun _ _ _ => .of_status (onlyStatus_subFlags ..) rfl rfl)
      (by rw [← immOperand_width]; rfl) h
  case orReg1ToReg2 | orReg2ToReg1 =>
    exact plainEffect_binToReg_drawn (fun _ _ _ => .of_status (onlyStatus_orFlags ..) rfl rfl) rfl h
  case incReg | incRegAlt => exact plainEffect_unReg (fun _ _ => .of_carry (onlyStatus_incFlags ..) rfl rfl) rfl h
  case decReg | decRegAlt => exact plainEffect_unReg (fun _ _ => .of_carry (onlyStatus_decFlags ..) rfl rfl) rfl h
  case notReg => exact plainEffect_unReg (fun _ _ => .refl ..) rfl h
  case incMem => exact plainEffect_unMem (fun _ _ => .of_carry (onlyStatus_incFlags ..) rfl rfl) rfl h
  case decMem => exact plainEffect_unMem (fun _ _ => .of_carry (onlyStatus_decFlags ..) rfl rfl) rfl h
  case notMem => exact plainEffect_unMem (fun _ _ => .refl ..) rfl h
  case daa => exact plainEffect_adjustAl (fun _ _ _ => .of_status (onlyStatus_daaFn ..) rfl rfl) rfl h
  case das => exact plainEffect_adjustAl (fun _ _ _ => .of_status (onlyStatus_dasFn ..) rfl rfl) rfl h
  case movReg1ToReg2 | movReg2ToReg1 => exact plainEffect_moveToReg rfl h
  case movImmToReg | movImmToRegAlt => exact plainEffect_moveToReg (by rw [← plainOperand_width]; rfl) h
  case movMemToReg | movMemToAcc => obtain ⟨_, -, h⟩ := bind_ok.1 h; exact plainEffect_moveToReg rfl h
  case movRegToMem => exact plainEffect_moveToSeg rfl h
  case movImmToMem => exact plainEffect_moveToSeg (by rw [← plainOperand_width]; rfl) h
  case movAccToMem w off => exact plainEffect_moveToSeg (m := .direct off) rfl h
  case inFixed | inVariable => exact plainEffect_input rfl rfl h
  case nop => obtain ⟨-, rfl⟩ := advance_ok.1 h; exact .other rfl rfl s.x s.mem _ s.portAnswers s.portReads
  case jmpMem => obtain ⟨_, -, h⟩ := bind_ok.1 h; cases h; exact .other rfl rfl s.x s.mem _ s.portAnswers s.portReads
  case loop => exact plainEffect_branch (setReg_eq ..) rfl rfl h
  all_goals exact plainEffect_branch (x := s.x) rfl rfl rfl h

section
variable {i : Instr} {s t : State}

theorem PlainEffect.cs (h : PlainEffect i s t) : t.cs = s.cs := by
  cases h <;> rfl

theorem PlainEffect.flagsAllowed (h : PlainEffect i s t) : FlagsAllowed i s.flags t.flags := by
  cases h with
  | register _ _ hf => exact hf
  | store _ _ hf => exact hf
  | other => exact .refl i s.flags

/-- A form with a register destination cannot write CS and stores nothing. -/
theorem no_store_of_registerDest {d : Width × RegNum} (h : registerDest i = some d) :
    mayWriteCs i = false ∧ storeDest i = none := by
  cases i
  case divReg | divMem | intN | int3 | jmpFar | jmpFarMem => cases h
  case addRegToMem | addImmToMem | subRegToMem | subImmToMem | incMem | decMem | notMem | movRegToMem | movImmToMem
      | movAccToMem => cases h
  all_goals exact ⟨rfl, rfl⟩

/-- A storing form cannot write CS. -/
theorem mayWriteCs_of_storeDest {d : Width × Mem} (h : storeDest i = some d) : mayWriteCs i = false := by
  cases i
  case divReg | divMem | intN | int3 | jmpFar | jmpFarMem => cases h
  all_goals rfl

end

/-- Settles O15: in each of the three classes CS stays. -/
theorem onlyFarTransfersWriteCs : Obligations.OnlyFarTransfersWriteCs :=
  fun _ _ _ hcs h => (exec_plainEffect hcs h).cs

/-! ## Frames -/

/-- Settles O55: a form with a register destination has the effect of that class, whatever its operands. -/
theorem registerDestinationFrame : Obligations.RegisterDestinationFrame := by
  intro i w r s t hd h
  obtain ⟨hcs, hs⟩ := no_store_of_registerDest hd
  cases exec_plainEffect hcs h with
  | register hd' v hf =>
    cases hd.symm.trans hd'
    exact ⟨(onlyRegister_setReg s w r v).congr rfl, fun _ => rfl,
      ⟨rfl, ⟨rfl, rfl, rfl, rfl, rfl, rfl, rfl, rfl⟩, rfl, rfl⟩, hf.status⟩
  | store hd' => cases hs.symm.trans hd'
  | other hr => cases hd.symm.trans hr

/-- Settles O56: a storing form has the effect of that class, whatever it stores. -/
theorem storeFrame : Obligations.StoreFrame := by
  intro i w m s t hd h
  cases exec_plainEffect (mayWriteCs_of_storeDest hd) h with
  | register hd' => cases hd.symm.trans (no_store_of_registerDest hd').2
  | store hd' v hf =>
    cases hd.symm.trans hd'
    exact ⟨fun _ ha => Memory.read_writeValue_ne s.mem w ha v, fun _ => rfl,
      ⟨rfl, ⟨rfl, rfl, rfl, rfl, rfl, rfl, rfl, rfl⟩, rfl, rfl⟩, hf.status⟩
  | other _ hs => cases hd.symm.trans hs

/-! ## Flags -/

/-- JMP indirect intersegment writes CS and IP only (R138). -/
theorem jmpFarMem_flags {m : Mem} {s t : State} (h : exec (.jmpFarMem m) s = .next t) : t.flags = s.flags := by
  obtain ⟨_, -, h⟩ := bind_ok.1 (outcome_next.1 h)
  obtain ⟨_, -, h⟩ := bind_ok.1 h
  obtain ⟨_, -, h⟩ := bind_ok.1 h
  cases h
  rfl

/-- Interrupt entry clears IF and TF and writes no other flag (R221). -/
theorem interrupt_flags {n : Byte} {ret : Word} {s t : State} (h : s.interrupt n ret = .ok t) :
    t.flags = { s.flags with intf := false, tf := false } := by
  obtain ⟨-, -, rfl⟩ := interrupt_ok.1 h
  rfl

/-- INT n and INT 3 are interrupt entries (R183, R184). -/
theorem isInt_flags {i : Instr} {s t : State} (hi : isInt i = true) (h : exec i s = .next t) :
    t.flags = { s.flags with intf := false, tf := false } := by
  cases i
  case intN | int3 => exact interrupt_flags (outcome_next.1 h)
  all_goals cases hi

/-- Of the instructions that may write CS only the two jumps are among those that write no flag. -/
theorem writesNoFlag_flags {i : Instr} {s t : State} (hi : writesNoFlag i = true) (h : exec i s = .next t) :
    t.flags = s.flags := by
  cases hcs : mayWriteCs i
  · exact (exec_plainEffect hcs h).flagsAllowed.same hi
  · cases i
    case jmpFar => cases h; rfl
    case jmpFarMem => exact jmpFarMem_flags h
    case divReg | divMem | intN | int3 => cases hi
    all_goals cases hcs

/-- INC and DEC cannot write CS. -/
theorem mayWriteCs_of_isIncDec {i : Instr} (h : isIncDec i = true) : mayWriteCs i = false := by
  cases i
  case divReg | divMem | intN | int3 | jmpFar | jmpFarMem => cases h
  all_goals rfl

/-- Settles O57: a clause for each class of the flag table of R26. -/
theorem flagEffects : Obligations.FlagEffects := fun _ _ _ h =>
  ⟨fun hn => writesNoFlag_flags hn h,
   fun hi => (exec_plainEffect (mayWriteCs_of_isIncDec hi) h).flagsAllowed.carry hi,
   fun hi => isInt_flags hi h,
   fun _ hcs => (exec_plainEffect hcs h).flagsAllowed.status⟩

end Sys2Proof.Machine
end

section
/-! The decoder on the bytes the encoder writes, and how many bytes it can ask for (spec R80 to R105): each reader on
the bytes that spell its item, then the instructions by format. -/

namespace Sys2Proof

/-! ## Readers on the bytes of their items -/

theorem parse_word_wordBytes {α : Type} (k : Word → Parse α) (v : Word) (rest : List Byte) :
    Parse.word k (wordBytes v ++ rest) = k v rest :=
  congrArg (k · rest) (word_of_bytes v)

theorem parse_imm_bytes {α : Type} (k : Imm → Parse α) (imm : Imm) (rest : List Byte) :
    Parse.imm imm.width k (imm.bytes ++ rest) = k imm rest := by
  cases imm with
  | byte v => rfl
  | word v => exact parse_word_wordBytes (fun v => k (.word v)) v rest

theorem modRM_fields (mod : BitVec 2) (field rm : BitVec 3) :
    (modRM mod field rm).extractLsb' 6 2 = mod ∧ (modRM mod field rm).extractLsb' 3 3 = field ∧
      lowField (modRM mod field rm) = rm := by
  revert mod field rm
  decide

theorem ofField_field (b : BaseIndex) : BaseIndex.ofField b.field = b := by
  cases b <;> rfl

section
variable {f : RmForm} {field : BitVec 3}

/-- mod = 11: the r/m field is the register (R82). -/
theorem decodeRM_reg {k : RegNum → Parse Instr} (hk : (rmLines f field).onReg = some k) (r : RegNum)
    (rest : List Byte) : decodeRM f (modRMReg field r ++ rest) = k r rest := by
  obtain ⟨hmod, hfield, hrm⟩ := modRM_fields 3 field r
  simp only [modRMReg, List.cons_append, List.nil_append, decodeRM, Parse.byte, if_pos hmod, hfield, hk, hrm]

/-- mod ≠ 11: mod and r/m say which displacement follows (R83). -/
theorem decodeRM_mem_cons {k : Mem → Parse Instr} (hk : (rmLines f field).onMem = some k) {mod : BitVec 2}
    (h3 : mod ≠ 3) (rm : BitVec 3) (bs : List Byte) :
    decodeRM f (modRM mod field rm :: bs) = Parse.mem mod rm k bs := by
  obtain ⟨hmod, hfield, hrm⟩ := modRM_fields mod field rm
  simp only [decodeRM, Parse.byte, hmod, if_neg h3, hfield, hk, hrm]

/-- A memory operand that has an encoding is read back from it (R83, R84). -/
theorem decodeRM_mem {k : Mem → Parse Instr} (hk : (rmLines f field).onMem = some k) {m : Mem}
    (hm : m.wellFormed = true) (rest : List Byte) : decodeRM f (modRMMem field m ++ rest) = k m rest := by
  cases m with
  | direct d =>
    refine (decodeRM_mem_cons hk (by decide) 6 _).trans ?_
    exact parse_word_wordBytes (fun d => k (.direct d)) d rest
  | plain b =>
    have hb : b.field ≠ 6 := by
      cases b
      case bp => cases hm
      all_goals decide
    refine (decodeRM_mem_cons hk (by decide) b.field _).trans ?_
    rw [Parse.mem, if_pos rfl, if_neg hb, ofField_field]
    rfl
  | disp8 b d =>
    refine (decodeRM_mem_cons hk (by decide) b.field _).trans ?_
    simp only [Parse.mem, ofField_field]
    rfl
  | disp16 b d =>
    refine (decodeRM_mem_cons hk (by decide) b.field _).trans ?_
    simp only [Parse.mem, ofField_field]
    exact parse_word_wordBytes (fun d => k (.disp16 b d)) d rest

end

section
variable {b : Byte} {f : RmForm} {field : BitVec 3} {r : RegNum} {m : Mem} {rest : List Byte} {p : Parsed Instr}

/-- The first byte selects an entry of the map (R97). -/
theorem decode_cons {o : Opcode} (ho : opcodeOf b = some o) (hp : decodeAfter o rest = p) : decode (b :: rest) = p := by
  simp only [decode, Parse.byte, ho, hp]

/-- An opcode, a ModRM byte with mod = 11, and what follows it. -/
theorem decode_reg {k : RegNum → Parse Instr} (ho : opcodeOf b = some (.modRM f))
    (hk : (rmLines f field).onReg = some k) (hp : k r rest = p) : decode (b :: modRMReg field r ++ rest) = p :=
  decode_cons ho ((decodeRM_reg hk r rest).trans hp)

/-- An opcode, the ModRM and displacement bytes of a memory operand, and what follows them. -/
theorem decode_mem {k : Mem → Parse Instr} (ho : opcodeOf b = some (.modRM f))
    (hk : (rmLines f field).onMem = some k) (hm : m.wellFormed = true) (hp : k m rest = p) :
    decode (b :: modRMMem field m ++ rest) = p :=
  decode_cons ho ((decodeRM_mem hk hm rest).trans hp)

end

/-! ## The first bytes of the map (R97) -/

section
variable (w : Width)

theorem opcodeOf_addRmReg : opcodeOf (opW 0b0000000 w) = some (.modRM (.two .add false w)) := by cases w <;> decide
theorem opcodeOf_addRegRm : opcodeOf (opW 0b0000001 w) = some (.modRM (.two .add true w)) := by cases w <;> decide
theorem opcodeOf_addAcc : opcodeOf (opW 0b0000010 w) = some (.addImmToAcc w) := by cases w <;> decide
theorem opcodeOf_orRmReg : opcodeOf (opW 0b0000100 w) = some (.modRM (.two .or false w)) := by cases w <;> decide
theorem opcodeOf_orRegRm : opcodeOf (opW 0b0000101 w) = some (.modRM (.two .or true w)) := by cases w <;> decide
theorem opcodeOf_subRmReg : opcodeOf (opW 0b0010100 w) = some (.modRM (.two .sub false w)) := by cases w <;> decide
theorem opcodeOf_subRegRm : opcodeOf (opW 0b0010101 w) = some (.modRM (.two .sub true w)) := by cases w <;> decide
theorem opcodeOf_subAcc : opcodeOf (opW 0b0010110 w) = some (.subImmToAcc w) := by cases w <;> decide
theorem opcodeOf_ins : opcodeOf (opW 0b0110110 w) = some (.ins w) := by cases w <;> decide
theorem opcodeOf_movRmReg : opcodeOf (opW 0b1000100 w) = some (.modRM (.two .mov false w)) := by cases w <;> decide
theorem opcodeOf_movRegRm : opcodeOf (opW 0b1000101 w) = some (.modRM (.two .mov true w)) := by cases w <;> decide
theorem opcodeOf_movMemToAcc : opcodeOf (opW 0b1010000 w) = some (.movMemToAcc w) := by cases w <;> decide
theorem opcodeOf_movAccToMem : opcodeOf (opW 0b1010001 w) = some (.movAccToMem w) := by cases w <;> decide
theorem opcodeOf_groupC6 : opcodeOf (opW 0b1100011 w) = some (.modRM (.groupC6 w)) := by cases w <;> decide
theorem opcodeOf_inFixed : opcodeOf (opW 0b1110010 w) = some (.inFixed w) := by cases w <;> decide
theorem opcodeOf_inVariable : opcodeOf (opW 0b1110110 w) = some (.inVariable w) := by cases w <;> decide
theorem opcodeOf_groupF6 : opcodeOf (opW 0b1111011 w) = some (.modRM (.groupF6 w)) := by cases w <;> decide

theorem opcodeOf_movImmToRegAlt : ∀ r : RegNum, opcodeOf (0b1011#4 ++ w.bit ++ r) = some (.movImmToRegAlt w r) := by
  cases w <;> decide

end

theorem opcodeOf_incRegAlt : ∀ r : RegNum, opcodeOf (0b01000#5 ++ r) = some (.incRegAlt r) := by decide

theorem opcodeOf_decRegAlt : ∀ r : RegNum, opcodeOf (0b01001#5 ++ r) = some (.decRegAlt r) := by decide

theorem opcodeOf_groupFE : opcodeOf (opW 0b1111111 .byte) = some (.modRM .groupFE) := by decide

theorem opcodeOf_groupFF : opcodeOf (opW 0b1111111 .word) = some (.modRM .groupFF) := by decide

theorem opcodeOf_jmpDirect : opcodeOf 0b11101001 = some .jmpDirect := by decide

theorem opcodeOf_jmpFar : opcodeOf 0b11101010 = some .jmpFar := by decide

theorem opcodeOf_80 : opcodeOf 0x80 = some (.modRM (.group80 false .byte)) := by decide

theorem opcodeOf_81 : opcodeOf 0x81 = some (.modRM (.group80 false .word)) := by decide

theorem opcodeOf_82 : opcodeOf 0x82 = some (.modRM (.group80 true .byte)) := by decide

theorem opcodeOf_83 : opcodeOf 0x83 = some (.modRM (.group80 true .word)) := by decide

/-- The opcode `1000 00sw` of an immediate holds the s and w bits by which its bytes are read back (R89). -/
theorem opcode_immSW_reads_bytes (imm : ImmSW) : ∃ s w, opcodeOf imm.opcode = some (.modRM (.group80 s w)) ∧
    ∀ (k : ImmSW → Parse Instr) (rest : List Byte), Parse.immSW s w k (imm.bytes ++ rest) = k imm rest := by
  cases imm with
  | byte s v => cases s; exacts [⟨_, _, opcodeOf_80, fun _ _ => rfl⟩, ⟨_, _, opcodeOf_82, fun _ _ => rfl⟩]
  | word v => exact ⟨_, _, opcodeOf_81, fun k => parse_word_wordBytes (fun v => k (.word v)) v⟩
  | sext v => exact ⟨_, _, opcodeOf_83, fun _ _ => rfl⟩

/-! ## Instructions -/

theorem decode_encodeJccShort (c : Cond) (d : Byte) (rest : List Byte) :
    decode (encodeJccShort c d ++ rest) = .ok (Instr.jccShort c d) rest := by
  cases c <;> rfl

theorem decode_encodeJccFull (c : Cond) (d : Word) (rest : List Byte) :
    decode (encodeJccFull c d ++ rest) = .ok (Instr.jccFull c d) rest := by
  cases c <;> exact parse_word_wordBytes (fun d => Parse.done (Instr.jccFull _ d)) d rest

/-- The decoder reads every instruction that has an encoding back from its bytes (R80 to R99, R102). -/
theorem decode_encode {i : Instr} (hi : i.wellFormed = true) (rest : List Byte) :
    decode (encode i ++ rest) = .ok i rest := by
  cases i
  case addReg1ToReg2 w _ _ => exact decode_reg (opcodeOf_addRmReg w) rfl rfl
  case addReg2ToReg1 w _ _ => exact decode_reg (opcodeOf_addRegRm w) rfl rfl
  case addMemToReg w _ _ => exact decode_mem (opcodeOf_addRegRm w) rfl hi rfl
  case addRegToMem w _ _ => exact decode_mem (opcodeOf_addRmReg w) rfl hi rfl
  case subReg1ToReg2 w _ _ => exact decode_reg (opcodeOf_subRmReg w) rfl rfl
  case subReg2ToReg1 w _ _ => exact decode_reg (opcodeOf_subRegRm w) rfl rfl
  case subMemToReg w _ _ => exact decode_mem (opcodeOf_subRegRm w) rfl hi rfl
  case subRegToMem w _ _ => exact decode_mem (opcodeOf_subRmReg w) rfl hi rfl
  case movReg1ToReg2 w _ _ => exact decode_reg (opcodeOf_movRmReg w) rfl rfl
  case movReg2ToReg1 w _ _ => exact decode_reg (opcodeOf_movRegRm w) rfl rfl
  case movMemToReg w _ _ => exact decode_mem (opcodeOf_movRegRm w) rfl hi rfl
  case movRegToMem w _ _ => exact decode_mem (opcodeOf_movRmReg w) rfl hi rfl
  case orReg1ToReg2 w _ _ => exact decode_reg (opcodeOf_orRmReg w) rfl rfl
  case orReg2ToReg1 w _ _ => exact decode_reg (opcodeOf_orRegRm w) rfl rfl
  case notReg w _ | divReg w _ => exact decode_reg (opcodeOf_groupF6 w) rfl rfl
  case notMem w _ | divMem w _ => exact decode_mem (opcodeOf_groupF6 w) rfl hi rfl
  case incReg w _ | decReg w _ =>
    cases w
    · exact decode_reg opcodeOf_groupFE rfl rfl
    · exact decode_reg opcodeOf_groupFF rfl rfl
  case incMem w _ | decMem w _ =>
    cases w
    · exact decode_mem opcodeOf_groupFE rfl hi rfl
    · exact decode_mem opcodeOf_groupFF rfl hi rfl
  case jmpReg => exact decode_reg opcodeOf_groupFF rfl rfl
  case jmpMem | jmpFarMem => exact decode_mem opcodeOf_groupFF rfl hi rfl
  case addImmToReg imm r | subImmToReg imm r =>
    obtain ⟨s, w, ho, himm⟩ := opcode_immSW_reads_bytes imm
    exact decode_reg ho rfl (himm _ rest)
  case addImmToMem imm m | subImmToMem imm m =>
    obtain ⟨s, w, ho, himm⟩ := opcode_immSW_reads_bytes imm
    rw [encode, List.append_assoc]
    exact decode_mem ho rfl hi (himm _ rest)
  case movImmToReg imm r => exact decode_reg (opcodeOf_groupC6 imm.width) rfl (parse_imm_bytes _ imm rest)
  case movImmToMem imm m =>
    rw [encode, List.append_assoc]
    exact decode_mem (opcodeOf_groupC6 imm.width) rfl hi (parse_imm_bytes _ imm rest)
  case movImmToRegAlt imm r =>
    exact decode_cons (opcodeOf_movImmToRegAlt imm.width r)
      (parse_imm_bytes (fun v => Parse.done (Instr.movImmToRegAlt v r)) imm rest)
  case addImmToAcc imm =>
    exact decode_cons (opcodeOf_addAcc imm.width) (parse_imm_bytes (fun v => Parse.done (Instr.addImmToAcc v)) imm rest)
  case subImmToAcc imm =>
    exact decode_cons (opcodeOf_subAcc imm.width) (parse_imm_bytes (fun v => Parse.done (Instr.subImmToAcc v)) imm rest)
  case movMemToAcc w off =>
    exact decode_cons (opcodeOf_movMemToAcc w)
      (parse_word_wordBytes (fun v => Parse.done (Instr.movMemToAcc w v)) off rest)
  case movAccToMem w off =>
    exact decode_cons (opcodeOf_movAccToMem w)
      (parse_word_wordBytes (fun v => Parse.done (Instr.movAccToMem w v)) off rest)
  case jmpDirect d =>
    exact decode_cons opcodeOf_jmpDirect (parse_word_wordBytes (fun v => Parse.done (Instr.jmpDirect v)) d rest)
  case jmpFar off sel =>
    rw [encode, List.append_assoc]
    refine decode_cons opcodeOf_jmpFar ?_
    refine (parse_word_wordBytes (fun u => Parse.word fun v => Parse.done (Instr.jmpFar u v)) off _).trans ?_
    exact parse_word_wordBytes (fun v => Parse.done (Instr.jmpFar off v)) sel rest
  case incRegAlt r => exact decode_cons (opcodeOf_incRegAlt r) rfl
  case decRegAlt r => exact decode_cons (opcodeOf_decRegAlt r) rfl
  case ins w => exact decode_cons (opcodeOf_ins w) rfl
  case inVariable w => exact decode_cons (opcodeOf_inVariable w) rfl
  case inFixed w _ => exact decode_cons (opcodeOf_inFixed w) rfl
  case daa | das | nop | int3 | intN | jcxz | loop | jmpShort => rfl
  case joFull | jnoFull | jbFull | jnbFull | jeFull | jneFull | jbeFull | jnbeFull | jsFull | jnsFull | jpFull | jnpFull
      | jlFull | jnlFull | jleFull | jnleFull => exact decode_encodeJccFull _ _ rest
  all_goals exact decode_encodeJccShort _ _ rest

/-! ## How many bytes the decoder asks for (R80) -/

/-- A reader that asks for more than it is given was given fewer than n bytes. -/
def Parse.Within {α : Type} (n : Nat) (p : Parse α) : Prop := ∀ bs, p bs = .short → bs.length < n

section
variable {α : Type} {n : Nat}

theorem within_done {a : α} : Parse.Within n (Parse.done a) := nofun

theorem within_unlisted : Parse.Within n (fun rest => (.unlisted rest : Parsed α)) := nofun

theorem within_byte {k : Byte → Parse α} (hk : ∀ b, Parse.Within n (k b)) : Parse.Within (n + 1) (Parse.byte k) := by
  intro bs h
  cases bs with
  | nil => exact Nat.succ_pos n
  | cons b bs => exact Nat.succ_lt_succ (hk b bs h)

theorem within_word {k : Word → Parse α} (hk : ∀ v, Parse.Within n (k v)) : Parse.Within (n + 2) (Parse.word k) :=
  within_byte fun _ => within_byte fun _ => hk _

theorem Parse.Within.mono {p : Parse α} {m : Nat} (hp : Parse.Within n p) (h : n ≤ m) : Parse.Within m p :=
  fun bs hs => Nat.lt_of_lt_of_le (hp bs hs) h

theorem within_imm {w : Width} {k : Imm → Parse α} (hk : ∀ v, Parse.Within n (k v)) :
    Parse.Within (n + 2) (Parse.imm w k) := by
  cases w with
  | byte => exact (within_byte fun _ => hk _).mono (by omega)
  | word => exact within_word fun _ => hk _

theorem within_immSW {s : Bool} {w : Width} {k : ImmSW → Parse α} (hk : ∀ v, Parse.Within n (k v)) :
    Parse.Within (n + 2) (Parse.immSW s w k) := by
  cases w with
  | byte => exact (within_byte fun _ => hk _).mono (by omega)
  | word =>
    cases s with
    | false => exact within_word fun _ => hk _
    | true => exact (within_byte fun _ => hk _).mono (by omega)

/-- At most two displacement bytes follow a ModRM byte (R83). -/
theorem within_mem {mod : BitVec 2} {rm : BitVec 3} {k : Mem → Parse α} (hk : ∀ m, Parse.Within n (k m)) :
    Parse.Within (n + 2) (Parse.mem mod rm k) := by
  unfold Parse.mem
  split
  · split
    · exact within_word fun _ => hk _
    · exact (hk _).mono (by omega)
  · split
    · exact (within_byte fun _ => hk _).mono (by omega)
    · exact within_word fun _ => hk _

end

/-- What a listed line reads after its operand is at most the two bytes of an immediate (R97, R98). -/
def LineWithin {β : Type} (l : Option (β → Parse Instr)) : Prop := ∀ k, l = some k → ∀ x, Parse.Within 2 (k x)

theorem lineWithin_none {β : Type} : LineWithin (none : Option (β → Parse Instr)) := nofun

theorem lineWithin_some {β : Type} {k : β → Parse Instr} (hk : ∀ x, Parse.Within 2 (k x)) : LineWithin (some k) := by
  rintro _ ⟨⟩
  exact hk

theorem lineWithin_done {β : Type} {q : β → Instr} : LineWithin (some fun x => Parse.done (q x)) :=
  lineWithin_some fun _ => within_done

theorem lineWithin_imm {β : Type} {w : Width} {q : β → Imm → Instr} :
    LineWithin (some fun x => Parse.imm w fun v => Parse.done (q x v)) :=
  lineWithin_some fun _ => within_imm fun _ => within_done

theorem lineWithin_immSW {β : Type} {s : Bool} {w : Width} {q : β → ImmSW → Instr} :
    LineWithin (some fun x => Parse.immSW s w fun v => Parse.done (q x v)) :=
  lineWithin_some fun _ => within_immSW fun _ => within_done

theorem lineWithin_rmLines (f : RmForm) (field : BitVec 3) :
    LineWithin (rmLines f field).onReg ∧ LineWithin (rmLines f field).onMem := by
  have nothing : LineWithin RmLines.nothing.onReg ∧ LineWithin RmLines.nothing.onMem :=
    ⟨lineWithin_none, lineWithin_none⟩
  cases f with
  | two op toReg w =>
    cases op
    case or => cases toReg <;> exact ⟨lineWithin_done, lineWithin_none⟩
    all_goals cases toReg <;> exact ⟨lineWithin_done, lineWithin_done⟩
  | group80 s w =>
    simp only [rmLines]
    split_ifs
    exacts [⟨lineWithin_immSW, lineWithin_immSW⟩, ⟨lineWithin_immSW, lineWithin_immSW⟩, nothing]
  | groupC6 w =>
    simp only [rmLines]
    split_ifs
    exacts [⟨lineWithin_imm, lineWithin_imm⟩, nothing]
  | groupF6 w =>
    simp only [rmLines]
    split_ifs
    exacts [⟨lineWithin_done, lineWithin_done⟩, ⟨lineWithin_done, lineWithin_done⟩, nothing]
  | groupFE =>
    simp only [rmLines]
    split_ifs
    exacts [⟨lineWithin_done, lineWithin_done⟩, ⟨lineWithin_done, lineWithin_done⟩, nothing]
  | groupFF =>
    simp only [rmLines]
    split_ifs
    exacts [⟨lineWithin_done, lineWithin_done⟩, ⟨lineWithin_done, lineWithin_done⟩, ⟨lineWithin_done, lineWithin_done⟩,
      ⟨lineWithin_none, lineWithin_done⟩, nothing]

theorem within_decodeRM (f : RmForm) : Parse.Within 5 (decodeRM f) := by
  refine within_byte fun b => ?_
  obtain ⟨hreg, hmem⟩ := lineWithin_rmLines f (b.extractLsb' 3 3)
  split
  · split
    · next k hk => exact (hreg k hk _).mono (by omega)
    · exact within_unlisted
  · split
    · next k hk => exact within_mem (hmem k hk)
    · exact within_unlisted

theorem within_decodeAfter (o : Opcode) : Parse.Within 5 (decodeAfter o) := by
  cases o with
  | modRM f => exact within_decodeRM f
  | twoByte =>
    refine within_byte fun b => ?_
    split
    · exact within_word (n := 2) fun _ => within_done
    · exact within_unlisted
  | addImmToAcc | subImmToAcc => exact within_imm (n := 3) fun _ => within_done
  | movImmToRegAlt w r =>
    exact within_imm (n := 3) (k := fun v => Parse.done (Instr.movImmToRegAlt v r)) fun _ => within_done
  | jccShort | intN | loop | jcxz | inFixed | jmpShort => exact within_byte (n := 4) fun _ => within_done
  | movMemToAcc | movAccToMem | jmpDirect => exact within_word (n := 3) fun _ => within_done
  | jmpFar => exact within_word (n := 3) fun _ => within_word (n := 1) fun _ => within_done
  | daa | das | incRegAlt | decRegAlt | ins | nop | int3 | inVariable => exact within_done

/-- The decoder never asks for a seventh byte (R80). -/
theorem decode_short_length {bs : List Byte} (h : decode bs = .short) : bs.length < 6 := by
  have hd : Parse.Within 6 decode := by
    refine within_byte fun b => ?_
    split
    · exact within_decodeAfter _
    · exact within_unlisted
  exact hd bs h

/-! ## How many bytes the encoder writes (R80) -/

theorem dispLength_le_two (m : Mem) : m.dispLength ≤ 2 := by
  cases m <;> simp [Mem.dispLength]

theorem imm_length_le_two (imm : Imm) : imm.length ≤ 2 := by
  cases imm <;> simp [Imm.length]

theorem immSW_length_le_two (imm : ImmSW) : imm.length ≤ 2 := by
  cases imm <;> simp [ImmSW.length]

/-- The longest instructions have opcode, ModRM byte, a word of displacement and a word of immediate. -/
theorem encode_length_le_six (i : Instr) : (encode i).length ≤ 6 := by
  cases i
  case addMemToReg m | addRegToMem m | subMemToReg m | subRegToMem m | movMemToReg m | movRegToMem m | incMem m
      | decMem m | notMem m | divMem m | jmpMem m | jmpFarMem m =>
    have := dispLength_le_two m
    exact (Laws.EncodedLength.op_mem ..).trans_le (by omega)
  case addImmToMem imm m | subImmToMem imm m =>
    have := dispLength_le_two m
    have := immSW_length_le_two imm
    exact (Laws.EncodedLength.op_mem_immSW ..).trans_le (by omega)
  case movImmToMem imm m =>
    have := dispLength_le_two m
    have := imm_length_le_two imm
    exact (Laws.EncodedLength.op_mem_imm ..).trans_le (by omega)
  case addImmToReg imm _ | subImmToReg imm _ =>
    have := immSW_length_le_two imm
    exact (Laws.EncodedLength.op_reg_immSW ..).trans_le (by omega)
  case movImmToReg imm _ =>
    have := imm_length_le_two imm
    exact (Laws.EncodedLength.op_reg_imm ..).trans_le (by omega)
  case movImmToRegAlt imm _ | addImmToAcc imm | subImmToAcc imm =>
    have := imm_length_le_two imm
    exact (Laws.EncodedLength.op_imm ..).trans_le (by omega)
  all_goals exact Nat.le_of_ble_eq_true rfl

end Sys2Proof
end

section
/-! The family of memory and ports: what a step fetches and where a fetch stops, the program's bytes, segment-relative
access, default segments, and IN and INS with their frames. -/

namespace Sys2Proof.Machine

/-! ## The program and the addresses outside `MemMap` -/

section
variable {s t : State} {a : Nat}

/-- A store that is performed touches no byte of the program and no address outside `MemMap` (R50, R62). -/
theorem Writable.apart {seg : SegReg} {off : Word} {w : Width} (hw : Writable s seg off w)
    (ha : s.isCode a = true ∨ s.mapped a = false) : ∀ k < w.bytes, a ≠ physAddr (s.seg seg) off.toNat + k := by
  obtain ⟨⟨-, hmapped⟩, hnotCode⟩ := hw
  rintro k hk rfl
  rcases ha with hcode | hunmapped
  · exact absurd hcode (Bool.eq_false_iff.1 (hnotCode k hk))
  · exact absurd (hmapped k hk) (Bool.eq_false_iff.1 hunmapped)

/-- The three stores of an interrupt entry are such stores (R64, R221). -/
theorem StackRoom.apart (hs : StackRoom s) (ha : s.isCode a = true ∨ s.mapped a = false) :
    ∀ j ∈ [2, 4, 6], ∀ k < 2, a ≠ physAddr s.ss (s.reg .word spReg - BitVec.ofNat 16 j).toNat + k := by
  obtain ⟨h2, h4, h6⟩ := hs
  intro j hj
  simp only [List.mem_cons, List.not_mem_nil, or_false] at hj
  rcases hj with rfl | rfl | rfl
  exacts [h2.apart ha, h4.apart ha, h6.apart ha]

/-- Every effect on memory is made of stores that are performed. -/
theorem Effect.read_protected (h : Effect s t) (ha : s.isCode a = true ∨ s.mapped a = false) :
    Memory.read t.mem a = Memory.read s.mem a := by
  cases h with
  | store _ _ w v _ _ hw => exact Memory.read_writeValue_ne s.mem w (hw.apart ha) v
  | ins w v _ _ hw => exact Memory.read_writeValue_ne s.mem w (hw.apart ha) v
  | enter _ _ hs => exact pushedMemory_frame (hs.apart ha)
  | register | transfer | input | divide => rfl

end

/-- Settles O13: the launch parameters and the protected bytes by what every effect keeps. -/
theorem stepKeepsProgramBytes : Obligations.StepKeepsProgramBytes := by
  intro s t hstep
  have he := step_effect hstep
  obtain ⟨-, -, -, -, -, hmap, hcode, hhalt⟩ := he.segmentsAndLaunch
  exact ⟨hmap, hcode, hhalt, fun a ha => he.read_protected ha⟩

/-! ## Fetching an instruction -/

section
variable {s : State} {bs : List Byte}

theorem atHalt_iff : s.atHalt = true ↔ Final s := by
  simp [State.atHalt, Final]

/-- Away from `HaltAt` a step is what the decoder makes of the fetched bytes (R102, R254). -/
theorem step_of_not_final (h : ¬ Final s) : step s = stepDecoded exec s.fetchBytes s := by
  rw [step, if_neg (mt atHalt_iff.1 h)]

/-- A step runs the instruction that the fetched bytes decode to. -/
theorem step_of_decode {i : Instr} {rest : List Byte} (h : ¬ Final s) (hd : decode s.fetchBytes = .ok i rest) :
    step s = exec i s := by
  rw [step_of_not_final h, stepDecoded, hd]

theorem fetchStop_past {k : Nat} (h : 0xFFFF < s.pc.toNat + k) :
    s.fetchStop k = some (.fault (.segLimit .cs (s.pc.toNat + k))) := if_pos h

theorem fetchStop_outsideCode {k : Nat} (h : s.pc.toNat + k ≤ 0xFFFF) (hcode : s.isCode (s.fetchAddr k) = false) :
    s.fetchStop k = some (.refused (.fetchOutsideCode (s.fetchAddr k))) := by
  rw [State.fetchStop, if_neg (Nat.not_lt.2 h), hcode]
  rfl

theorem fetchStop_unmapped {k : Nat} (h : s.pc.toNat + k ≤ 0xFFFF) (hcode : s.isCode (s.fetchAddr k) = true)
    (hmap : s.mapped (s.fetchAddr k) = false) : s.fetchStop k = some (.fault (.unmapped (s.fetchAddr k))) := by
  rw [State.fetchStop, if_neg (Nat.not_lt.2 h), hcode, hmap]
  rfl

/-- A step is the stop of the first byte that the decoder needs and the fetch does not give (R102). -/
theorem step_of_fetchStop {stop : FetchStop} (h : ¬ Final s) (hf : Fetched s bs) (hd : decode bs = .short)
    (hs : s.fetchStop bs.length = some stop) : step s = stop.outcome := by
  obtain ⟨rest, hbytes, hend⟩ := fetchBytes_of_fetched hf (decode_short_length hd).le
  have hrest : rest = [] := hend fun hk => by simp [fetchStop_none.2 hk] at hs
  rw [step_of_not_final h, hbytes, hrest, List.append_nil, stepDecoded, hd, hs]

end

/-- Settles O8: the fetched bytes begin with the encoding, and the decoder reads the instruction back from it. -/
theorem stepRunsInstructionInMemory : Obligations.StepRunsInstructionInMemory := by
  intro s i hi hfinal hf
  obtain ⟨rest, hbytes, -⟩ := fetchBytes_of_fetched hf (encode_length_le_six i)
  exact step_of_decode hfinal (hbytes ▸ decode_encode hi rest)

/-- Settles O9: the missing byte is the one after `bs`, and its stop is that of the first check that fails. -/
theorem fetchStops : Obligations.FetchStops := by
  intro s bs hfinal hf hd
  refine ⟨fun hpast => ?_, fun hin hcode => ?_, fun hin hcode hmap => ?_⟩
  · exact ⟨_, step_of_fetchStop hfinal hf hd (fetchStop_past hpast)⟩
  · exact step_of_fetchStop hfinal hf hd (fetchStop_outsideCode hin hcode)
  · exact step_of_fetchStop hfinal hf hd (fetchStop_unmapped hin hcode hmap)

/-! ## Access to memory -/

/-- Settles O18: reads and stores as the laws of memory say them. -/
theorem littleEndianWords : Obligations.LittleEndianWords := by
  intro s a
  refine ⟨fun v hr => ?_, fun t v hm hw => ?_, fun t v hm hw => ?_⟩
  · obtain ⟨hmap, rfl⟩ := memRead_ok.1 hr
    refine ⟨memRead_ok.2 ⟨fun k hk => ?_, high_of_word _ _⟩, memRead_ok.2 ⟨fun k hk => ?_, low_of_word _ _⟩⟩
    · obtain rfl : k = 0 := Nat.lt_one_iff.1 hk
      exact hmap 1 (by decide)
    · exact hmap k (Nat.lt_succ_of_lt hk)
  · obtain ⟨hmap, -, rfl⟩ := memWrite_ok.1 hw
    obtain ⟨hlow, hhigh⟩ := Memory.read_writeValue_word hm a v
    refine ⟨hlow, hhigh, memRead_ok.2 ⟨hmap, (Memory.readValue_writeValue hm a .word v).symm⟩, fun c h0 h1 => ?_⟩
    refine Memory.read_writeValue_ne s.mem .word (fun k hk => ?_) v
    simp only [Width.bytes] at hk
    omega
  · obtain ⟨hmap, -, rfl⟩ := memWrite_ok.1 hw
    have hread := Memory.readValue_writeValue hm a .byte v
    exact ⟨hread, memRead_ok.2 ⟨hmap, hread.symm⟩, fun c hc => Memory.read_write_ne s.mem hc v⟩

theorem readFault_of_limit {s : State} {seg : SegReg} {off : Word} {w : Width} (h : 0x10000 < off.toNat + w.bytes) :
    readFault s seg off w = .segLimit seg off.toNat := if_pos h

theorem readFault_of_unmapped {s : State} {seg : SegReg} {off : Word} {w : Width} (h : off.toNat + w.bytes ≤ 0x10000) :
    readFault s seg off w = .unmapped (physAddr (s.seg seg) off.toNat) := if_neg (Nat.not_lt.2 h)

theorem writeFault_of_not_readable {s : State} {seg : SegReg} {off : Word} {w : Width} (h : ¬ Readable s seg off w) :
    writeFault s seg off w = readFault s seg off w := if_neg h

/-- Settles O19: an access is performed exactly where the operand is readable or writable, and else is the fault of
the first check that fails. -/
theorem segmentAccess : Obligations.SegmentAccess := by
  intro s seg off w v
  refine ⟨fun hlimit => ?_, fun hin => ⟨fun hmap => ?_, fun ⟨k, hk, hunmapped⟩ => ?_⟩⟩
  · have hpast : 0x10000 < off.toNat + w.bytes := by omega
    have hr : ¬ Readable s seg off w := fun h => absurd h.1 (Nat.not_le.2 hpast)
    rw [segRead_error hr, segWrite_error fun h => hr h.1, writeFault_of_not_readable hr, readFault_of_limit hpast]
    cases w with
    | byte => simp only [Width.bytes] at hpast; have := off.isLt; omega
    | word => exact ⟨rfl, by simp only [Width.bytes] at hpast; bv_omega, rfl, rfl⟩
  · have hr : Readable s seg off w := ⟨by omega, hmap⟩
    refine ⟨segRead_ok.2 ⟨hr, rfl⟩, fun hcode => segWrite_ok.2 ⟨⟨hr, hcode⟩, rfl⟩, fun ⟨k, hk, hcode⟩ => ?_⟩
    have hw : ¬ Writable s seg off w := fun h => absurd hcode (Bool.eq_false_iff.1 (h.2 k hk))
    rw [segWrite_error hw, writeFault, if_pos hr]
    rfl
  · have hr : ¬ Readable s seg off w := fun h => absurd (h.2 k hk) (Bool.eq_false_iff.1 hunmapped)
    rw [segRead_error hr, segWrite_error fun h => hr h.1, writeFault_of_not_readable hr,
      readFault_of_unmapped (by omega)]
    exact ⟨rfl, rfl⟩

/-- Settles O21: the table of base and index sums, whatever the displacement. -/
theorem defaultSegments : Obligations.DefaultSegments := by
  have hbase : ∀ b, baseSeg b = if usesBp b then .ss else .ds := by intro b; cases b <;> rfl
  exact ⟨fun _ => rfl, hbase, fun b _ => hbase b, fun b _ => hbase b⟩

/-! ## IN and INS -/

/-- Settles O40: both forms are `State.input`, of the port byte or of DX. -/
theorem inReadsPort : Obligations.InReadsPort := by
  intro w s
  refine ⟨fun port => ⟨rfl, fun hc => ?_⟩, rfl, fun hc => outcome_next.2 (input_ok.2 ⟨hc, rfl⟩)⟩
  exact outcome_next.2 (input_ok.2 ⟨hc, by rw [BitVec.ofNat_toNat]; rfl⟩)

/-- DI after one element, as a number (R182). -/
theorem stepDi_toNat (s : State) (w : Width) :
    ((s.stepDi w).toNat : Int) =
      ((s.reg .word diReg).toNat + (if s.flags.df then -(w.bytes : Int) else (w.bytes : Int))) % 0x10000 := by
  have hdi := (s.reg .word diReg).isLt
  unfold State.stepDi
  cases w <;> split <;> simp only [Width.bytes] <;> bv_omega

/-- Settles O41: INS as the lemmas of its fault, its next state and the end of the segment say it. -/
theorem insStoresPortAnswer : Obligations.InsStoresPortAnswer := by
  intro w s
  refine ⟨rfl, ins_error, fun hw hc => ⟨s.stepDi w, stepDi_toNat s w, ins_ok.2 ⟨hw, hc, ?_⟩⟩, ins_limit⟩
  rw [setReg_eq]
  rfl

/-- An IN that completes writes AL or AX, IP and the port oracle (R180, R181). -/
theorem input_frame {w : Width} {port : Word} {len : Nat} {s t : State} (h : s.input w port len = .ok t) :
    OnlyRegister w axReg s t ∧ SameMemory s t ∧ t.flags = s.flags ∧ t.cs = s.cs ∧ SameSegmentsAndLaunch s t ∧
      t.portAnswers = s.portAnswers.tail ∧ t.portReads = s.portReads + 1 := by
  obtain ⟨-, rfl⟩ := input_ok.1 h
  rw [setReg_eq]
  exact ⟨(onlyRegister_setReg s w axReg _).congr rfl, fun _ => rfl, rfl, rfl, ⟨rfl, rfl, rfl, rfl, rfl, rfl, rfl, rfl⟩,
    rfl, rfl⟩

/-- Settles O59: IN by the frame of `State.input`, INS by its one next state. -/
theorem inputFrame : Obligations.InputFrame := by
  intro w s t
  refine ⟨?_, fun h => ?_⟩
  · rintro (⟨_, h⟩ | h) <;> exact input_frame (outcome_next.1 h)
  · obtain ⟨-, -, rfl⟩ := ins_ok.1 h
    exact ⟨(onlyRegister_setReg s .word diReg _).congr rfl, fun a ha => Memory.read_writeValue_ne s.mem w ha _,
      rfl, rfl, ⟨rfl, rfl, rfl, rfl, rfl, rfl, rfl, rfl⟩, rfl, rfl⟩

end Sys2Proof.Machine
end

section
/-! The family of the encoding: what the decoder can answer to a byte sequence, the refusals of a step, memory operands
and immediates in numbers, and the conditions of Jcc. -/

namespace Sys2Proof

/-! ## The first byte of an entry (R97) -/

/-- The first byte that selects a form with a ModRM byte. -/
def RmForm.firstByte : RmForm → Byte
  | .two .add toReg w => opW (0b000000#6 ++ BitVec.ofBool toReg) w
  | .two .or toReg w => opW (0b000010#6 ++ BitVec.ofBool toReg) w
  | .two .sub toReg w => opW (0b001010#6 ++ BitVec.ofBool toReg) w
  | .two .mov toReg w => opW (0b100010#6 ++ BitVec.ofBool toReg) w
  | .group80 s w => opW (0b100000#6 ++ BitVec.ofBool s) w
  | .groupC6 w => opW 0b1100011 w
  | .groupF6 w => opW 0b1111011 w
  | .groupFE => opW 0b1111111 .byte
  | .groupFF => opW 0b1111111 .word

/-- The first byte that an entry of the map stands for. -/
def Opcode.firstByte : Opcode → Byte
  | .modRM f => f.firstByte
  | .addImmToAcc w => opW 0b0000010 w
  | .subImmToAcc w => opW 0b0010110 w
  | .twoByte => 0b00001111
  | .daa => 0b00100111
  | .das => 0b00101111
  | .incRegAlt r => 0b01000#5 ++ r
  | .decRegAlt r => 0b01001#5 ++ r
  | .ins w => opW 0b0110110 w
  | .jccShort c => 0b0111#4 ++ c.field
  | .nop => 0b10010000
  | .movMemToAcc w => opW 0b1010000 w
  | .movAccToMem w => opW 0b1010001 w
  | .movImmToRegAlt w r => 0b1011#4 ++ w.bit ++ r
  | .int3 => 0b11001100
  | .intN => 0b11001101
  | .loop => 0b11100010
  | .jcxz => 0b11100011
  | .inFixed w => opW 0b1110010 w
  | .jmpDirect => 0b11101001
  | .jmpFar => 0b11101010
  | .jmpShort => 0b11101011
  | .inVariable w => opW 0b1110110 w

/-- The map takes no bit of a first byte that its entry does not give back. -/
theorem firstByte_of_opcodeOf : ∀ b : Byte, ∀ o ∈ opcodeOf b, o.firstByte = b := by
  decide

/-! ## The bits that a reader takes are those its item is spelled by -/

theorem field_ofField : ∀ rm : BitVec 3, (BaseIndex.ofField rm).field = rm := by
  decide

theorem cond_field_ofField : ∀ tttn : BitVec 4, (Cond.ofField tttn).field = tttn := by
  decide

theorem cond_ofField_field (c : Cond) : Cond.ofField c.field = c := by
  cases c <;> rfl

theorem modRM_of_fields : ∀ b : Byte, modRM (b.extractLsb' 6 2) (b.extractLsb' 3 3) (lowField b) = b := by
  decide

/-- The second byte of a Jcc with a full displacement (R132). -/
theorem jccFull_secondByte : ∀ b : Byte, b &&& 0xF0 = 0x80 → 0b1000#4 ++ b.extractLsb' 0 4 = b := by
  decide

theorem wordBytes_append (hi lo : Byte) : wordBytes (hi ++ lo) = [lo, hi] := by
  rw [wordBytes, low_of_word, high_of_word]

/-! ## What a reader can answer -/

/-- What may be answered to the bytes `bs`: an instruction that has an encoding, which `bs` begins with, or a refusal
after at most two bytes (R80, R99, R102). -/
def Parsed.Justified (bs : List Byte) : Parsed Instr → Prop
  | .ok i rest => i.wellFormed = true ∧ bs = encode i ++ rest
  | .unlisted rest => bs.length ≤ rest.length + 2
  | .short => True

/-- After the bytes `pre` the reader answers only what the whole byte sequence justifies. -/
def Parse.Sound (pre : List Byte) (p : Parse Instr) : Prop := ∀ bs, (p bs).Justified (pre ++ bs)

section
variable {pre : List Byte}

theorem sound_done {i : Instr} (hi : i.wellFormed = true) (h : pre = encode i) : Parse.Sound pre (Parse.done i) :=
  fun _ => ⟨hi, congrArg (· ++ _) h⟩

theorem sound_unlisted (h : pre.length ≤ 2) : Parse.Sound pre fun rest => .unlisted rest := by
  intro bs
  simp only [Parsed.Justified, List.length_append]
  omega

theorem sound_byte {k : Byte → Parse Instr} (hk : ∀ b, Parse.Sound (pre ++ [b]) (k b)) :
    Parse.Sound pre (Parse.byte k) := by
  intro bs
  cases bs with
  | nil => trivial
  | cons b bs => exact List.append_cons pre b bs ▸ hk b bs

theorem sound_word {k : Word → Parse Instr} (hk : ∀ v, Parse.Sound (pre ++ wordBytes v) (k v)) :
    Parse.Sound pre (Parse.word k) := by
  refine sound_byte fun lo => sound_byte fun hi => ?_
  have h := hk (hi ++ lo)
  rwa [wordBytes_append, List.append_cons] at h

theorem sound_imm {w : Width} {k : Imm → Parse Instr}
    (hk : ∀ imm : Imm, imm.width = w → Parse.Sound (pre ++ imm.bytes) (k imm)) :
    Parse.Sound pre (Parse.imm w k) := by
  cases w with
  | byte => exact sound_byte fun v => hk (.byte v) rfl
  | word => exact sound_word fun v => hk (.word v) rfl

theorem sound_immSW {s : Bool} {w : Width} {k : ImmSW → Parse Instr}
    (hk : ∀ imm : ImmSW, imm.opcode = (RmForm.group80 s w).firstByte → Parse.Sound (pre ++ imm.bytes) (k imm)) :
    Parse.Sound pre (Parse.immSW s w k) := by
  cases w with
  | byte => exact sound_byte fun v => hk (.byte s v) (by cases s <;> rfl)
  | word =>
    cases s with
    | false => exact sound_word fun v => hk (.word v) rfl
    | true => exact sound_byte fun v => hk (.sext v) rfl

/-- Of the operands only (BP) without a displacement has no encoding, and r/m = 110 is not read as that (R84). -/
theorem sound_mem {mod : BitVec 2} (h3 : mod ≠ 3) {field rm : BitVec 3} {k : Mem → Parse Instr}
    (hk : ∀ m : Mem, m.wellFormed = true → Parse.Sound (pre ++ modRMMem field m) (k m)) :
    Parse.Sound (pre ++ [modRM mod field rm]) (Parse.mem mod rm k) := by
  have hrm := field_ofField rm
  unfold Parse.mem
  split_ifs with h0 h6 h1
  · subst h0 h6
    refine sound_word fun d => ?_
    simpa [modRMMem] using hk (.direct d) rfl
  · subst h0
    have hwf : (Mem.plain (BaseIndex.ofField rm)).wellFormed = true :=
      bne_iff_ne.2 fun hbp => h6 (by rw [← hrm, hbp]; rfl)
    simpa [modRMMem, hrm] using hk _ hwf
  · subst h1
    refine sound_byte fun d => ?_
    simpa [modRMMem, hrm] using hk (.disp8 (BaseIndex.ofField rm) d) rfl
  · obtain rfl : mod = 2 := by revert mod; decide
    refine sound_word fun d => ?_
    simpa [modRMMem, hrm] using hk (.disp16 (BaseIndex.ofField rm) d) rfl

end

/-! ## The lines after a ModRM byte (R98) -/

/-- After the first byte and a ModRM byte with this field, each listed line answers only what the bytes justify. -/
def RmLines.Sound (first : Byte) (field : BitVec 3) (l : RmLines) : Prop :=
  (∀ k, l.onReg = some k → ∀ r, Parse.Sound (first :: modRMReg field r) (k r)) ∧
  (∀ k, l.onMem = some k → ∀ m : Mem, m.wellFormed = true → Parse.Sound (first :: modRMMem field m) (k m))

section
variable {first : Byte} {field : BitVec 3} {r : RegNum → Instr} {m : Mem → Instr}

theorem linesSound_nothing : RmLines.nothing.Sound first field := ⟨nofun, nofun⟩

theorem linesSound_reg (hr : ∀ x, (r x).wellFormed = true ∧ first :: modRMReg field x = encode (r x)) :
    RmLines.Sound first field ⟨some fun x => Parse.done (r x), none⟩ := by
  refine ⟨?_, nofun⟩
  rintro _ ⟨⟩ x
  exact sound_done (hr x).1 (hr x).2

theorem linesSound_mem (hm : ∀ x : Mem, (m x).wellFormed = x.wellFormed ∧ first :: modRMMem field x = encode (m x)) :
    RmLines.Sound first field ⟨none, some fun x => Parse.done (m x)⟩ := by
  refine ⟨nofun, ?_⟩
  rintro _ ⟨⟩ x hx
  exact sound_done ((hm x).1.trans hx) (hm x).2

theorem linesSound_both {onReg : RegNum → Parse Instr} {onMem : Mem → Parse Instr}
    (hr : ∀ x, Parse.Sound (first :: modRMReg field x) (onReg x))
    (hm : ∀ x : Mem, x.wellFormed = true → Parse.Sound (first :: modRMMem field x) (onMem x)) :
    RmLines.Sound first field ⟨some onReg, some onMem⟩ := by
  constructor
  · rintro _ ⟨⟩
    exact hr
  · rintro _ ⟨⟩
    exact hm

theorem linesSound_plain (hr : ∀ x, (r x).wellFormed = true ∧ first :: modRMReg field x = encode (r x))
    (hm : ∀ x : Mem, (m x).wellFormed = x.wellFormed ∧ first :: modRMMem field x = encode (m x)) :
    (RmLines.plain r m).Sound first field :=
  linesSound_both (fun x => sound_done (hr x).1 (hr x).2) fun x hx => sound_done ((hm x).1.trans hx) (hm x).2

theorem linesSound_immSW {s : Bool} {w : Width} {r : ImmSW → RegNum → Instr} {m : ImmSW → Mem → Instr}
    (hr : ∀ imm x, (r imm x).wellFormed = true ∧ imm.opcode :: modRMReg field x ++ imm.bytes = encode (r imm x))
    (hm : ∀ imm (x : Mem), (m imm x).wellFormed = x.wellFormed ∧
      imm.opcode :: modRMMem field x ++ imm.bytes = encode (m imm x)) :
    RmLines.Sound (RmForm.group80 s w).firstByte field
      ⟨some fun x => Parse.immSW s w fun v => Parse.done (r v x),
       some fun x => Parse.immSW s w fun v => Parse.done (m v x)⟩ :=
  linesSound_both
    (fun x => sound_immSW fun imm himm => sound_done (hr imm x).1 (himm ▸ (hr imm x).2))
    fun x hx => sound_immSW fun imm himm => sound_done ((hm imm x).1.trans hx) (himm ▸ (hm imm x).2)

end

/-- The instruction of a listed line is spelled by the first byte, the ModRM byte and what follows (R98). -/
theorem linesSound_rmLines (f : RmForm) (field : BitVec 3) : (rmLines f field).Sound f.firstByte field := by
  cases f with
  | two op toReg w =>
    cases op
    case or => cases toReg <;> exact linesSound_reg fun _ => ⟨rfl, rfl⟩
    all_goals cases toReg <;> exact linesSound_plain (fun _ => ⟨rfl, rfl⟩) fun _ => ⟨rfl, rfl⟩
  | group80 s w =>
    simp only [rmLines]
    split_ifs with h0 h5
    · exact h0 ▸ linesSound_immSW (fun _ _ => ⟨rfl, rfl⟩) fun _ _ => ⟨rfl, rfl⟩
    · exact h5 ▸ linesSound_immSW (fun _ _ => ⟨rfl, rfl⟩) fun _ _ => ⟨rfl, rfl⟩
    · exact linesSound_nothing
  | groupC6 w =>
    simp only [rmLines]
    split_ifs with h0
    · subst h0
      refine linesSound_both (fun _ => sound_imm ?_) fun _ hx => sound_imm ?_
      · rintro imm rfl
        exact sound_done rfl rfl
      · rintro imm rfl
        exact sound_done hx rfl
    · exact linesSound_nothing
  | groupF6 w =>
    simp only [rmLines]
    split_ifs with h2 h6
    · exact h2 ▸ linesSound_plain (fun _ => ⟨rfl, rfl⟩) fun _ => ⟨rfl, rfl⟩
    · exact h6 ▸ linesSound_plain (fun _ => ⟨rfl, rfl⟩) fun _ => ⟨rfl, rfl⟩
    · exact linesSound_nothing
  | groupFE =>
    simp only [rmLines]
    split_ifs with h0 h1
    · exact h0 ▸ linesSound_plain (fun _ => ⟨rfl, rfl⟩) fun _ => ⟨rfl, rfl⟩
    · exact h1 ▸ linesSound_plain (fun _ => ⟨rfl, rfl⟩) fun _ => ⟨rfl, rfl⟩
    · exact linesSound_nothing
  | groupFF =>
    simp only [rmLines]
    split_ifs with h0 h1 h4 h5
    · exact h0 ▸ linesSound_plain (fun _ => ⟨rfl, rfl⟩) fun _ => ⟨rfl, rfl⟩
    · exact h1 ▸ linesSound_plain (fun _ => ⟨rfl, rfl⟩) fun _ => ⟨rfl, rfl⟩
    · exact h4 ▸ linesSound_plain (fun _ => ⟨rfl, rfl⟩) fun _ => ⟨rfl, rfl⟩
    · exact h5 ▸ linesSound_mem fun _ => ⟨rfl, rfl⟩
    · exact linesSound_nothing

/-! ## The decoder -/

/-- A ModRM byte is its three fields, so the line it selects is that of its own bits (R82). -/
theorem sound_decodeRM (f : RmForm) : Parse.Sound [f.firstByte] (decodeRM f) := by
  refine sound_byte fun b => ?_
  obtain ⟨hreg, hmem⟩ := linesSound_rmLines f (b.extractLsb' 3 3)
  split
  · next h3 =>
    split
    · next k hk =>
      have h : Parse.Sound [f.firstByte, modRM 3 (b.extractLsb' 3 3) (lowField b)] (k (lowField b)) := hreg k hk _
      rwa [← h3, modRM_of_fields] at h
    · exact sound_unlisted (Nat.le_refl _)
  · next h3 =>
    split
    · next k hk =>
      have h := sound_mem (pre := [f.firstByte]) (rm := lowField b) h3 (hmem k hk)
      rwa [modRM_of_fields] at h
    · exact sound_unlisted (Nat.le_refl _)

/-- The instruction of an entry is spelled by the entry's first byte and what is read after it (R81, R102). -/
theorem sound_decodeAfter (o : Opcode) : Parse.Sound [o.firstByte] (decodeAfter o) := by
  cases o with
  | modRM f => exact sound_decodeRM f
  | twoByte =>
    refine sound_byte fun b => ?_
    split
    · next hb =>
      refine sound_word fun d => ?_
      have hjcc : ∀ c, (Instr.jccFull c d).wellFormed = true ∧ encode (Instr.jccFull c d) = encodeJccFull c d := by
        intro c; cases c <;> exact ⟨rfl, rfl⟩
      refine sound_done (hjcc _).1 ?_
      rw [(hjcc _).2, encodeJccFull, cond_field_ofField, jccFull_secondByte b hb]
      rfl
    · exact sound_unlisted (Nat.le_refl _)
  | jccShort c => exact sound_byte fun d => by cases c <;> exact sound_done rfl rfl
  | addImmToAcc | subImmToAcc | movImmToRegAlt =>
    rw [decodeAfter]
    refine sound_imm ?_
    rintro imm rfl
    exact sound_done rfl rfl
  | intN | loop | jcxz | inFixed | jmpShort => exact sound_byte fun _ => sound_done rfl rfl
  | movMemToAcc | movAccToMem | jmpDirect => exact sound_word fun _ => sound_done rfl rfl
  | jmpFar => exact sound_word fun _ => sound_word fun _ => sound_done rfl rfl
  | daa | das | incRegAlt | decRegAlt | ins | nop | int3 | inVariable => exact sound_done rfl rfl

/-- Every answer of the decoder is justified by the bytes it is given (R80, R97 to R102). -/
theorem decode_justified (bs : List Byte) : (decode bs).Justified bs := by
  have h : Parse.Sound [] decode := by
    refine sound_byte fun b => ?_
    split
    · next o ho => exact firstByte_of_opcodeOf b o ho ▸ sound_decodeAfter o
    · exact sound_unlisted (Nat.le_succ 1)
  exact h bs

/-- Settles O1, by the round trip of every format. -/
theorem decodeInvertsEncode : Obligations.DecodeInvertsEncode := fun _ rest hi => decode_encode hi rest

/-- Settles O2: a decoded instruction is one that the bytes justify. -/
theorem encodeInvertsDecode : Obligations.EncodeInvertsDecode := by
  intro bs rest i hd
  have h := decode_justified bs
  rwa [hd] at h

/-- Settles O3: the decoder asks for no seventh byte, and a refusal that the bytes justify examines at most two. -/
theorem sixBytesSettleDecoding : Obligations.SixBytesSettleDecoding := by
  refine ⟨fun bs hl hd => ?_, fun bs rest hd => ?_⟩
  · exact absurd (decode_short_length hd) (Nat.not_lt.2 hl)
  · have h := decode_justified bs
    rwa [hd] at h

/-! ## The first-byte map (R97, R107) -/

/-- Any two lines of the map have patterns that differ in a bit which both masks keep. -/
theorem opcodeMap_disjoint : opcodeMap.Pairwise fun l l' => l.pattern &&& l'.mask ≠ l'.pattern &&& l.mask := by
  decide

theorem patterns_agree_of_matches {l l' : OpcodeLine} {b : Byte} (h : l.matches b = true) (h' : l'.matches b = true) :
    l.pattern &&& l'.mask = l'.pattern &&& l.mask := by
  rw [OpcodeLine.matches, beq_iff_eq] at h h'
  rw [← h, ← h', BitVec.and_assoc, BitVec.and_assoc, BitVec.and_comm l.mask]

/-- Settles O4: two lines that one byte matches have patterns that agree, and no two lines of the map do. -/
theorem firstByteMapUnambiguous : Obligations.FirstByteMapUnambiguous := by
  intro b
  have hdisjoint := opcodeMap_disjoint.filter fun l => l.matches b
  have hmatches : ∀ l ∈ opcodeMap.filter fun l => l.matches b, l.matches b = true :=
    fun _ hl => (List.mem_filter.1 hl).2
  generalize (opcodeMap.filter fun l => l.matches b) = found at hdisjoint hmatches ⊢
  match found with
  | [] => exact Nat.zero_le 1
  | [_] => exact Nat.le_refl 1
  | l :: l' :: _ =>
    exact absurd (patterns_agree_of_matches (hmatches l (by simp)) (hmatches l' (by simp)))
      (List.rel_of_pairwise_cons hdisjoint List.mem_cons_self)

/-! ## Refusals (R99) -/

section
variable {b c : Byte} {f : RmForm} {rest : List Byte}

theorem opcodeOf_unlisted : ∀ b : Byte, b.toNat ∉ listedFirstBytes → opcodeOf b = none := by
  decide

theorem opcodeOf_or : ∀ b : Byte, b.toNat ∈ [0x08, 0x09, 0x0A, 0x0B] →
    opcodeOf b = some (.modRM (.two .or (b.getLsbD 1) (wBit b))) := by
  decide

theorem opcodeOf_80_to_83 : ∀ b : Byte, b.toNat ∈ [0x80, 0x81, 0x82, 0x83] →
    opcodeOf b = some (.modRM (.group80 (b.getLsbD 1) (wBit b))) := by
  decide

theorem opcodeOf_C6_C7 : ∀ b : Byte, b.toNat ∈ [0xC6, 0xC7] → opcodeOf b = some (.modRM (.groupC6 (wBit b))) := by
  decide

theorem opcodeOf_F6_F7 : ∀ b : Byte, b.toNat ∈ [0xF6, 0xF7] → opcodeOf b = some (.modRM (.groupF6 (wBit b))) := by
  decide

theorem decode_unlisted (h : b.toNat ∉ listedFirstBytes) (rest : List Byte) : decode (b :: rest) = .unlisted rest := by
  simp only [decode, Parse.byte, opcodeOf_unlisted b h]

theorem modField_iff : c.extractLsb' 6 2 = 3 ↔ 0xC0 ≤ c.toNat := by
  have hmod : (c.extractLsb' 6 2).toNat = c.toNat / 64 % 4 := toNat_slice c 6 2
  have h3 : (3 : BitVec 2).toNat = 3 := rfl
  have := c.isLt
  rw [← BitVec.toNat_inj]
  omega

theorem regField_ne {field : BitVec 3} (h : c.toNat / 8 % 8 ≠ field.toNat) : c.extractLsb' 3 3 ≠ field :=
  fun e => h (e ▸ (toNat_slice c 3 3).symm)

/-- A ModRM byte that selects no line for its mod is refused (R98). -/
theorem decodeRM_unlisted (hreg : c.extractLsb' 6 2 = 3 → (rmLines f (c.extractLsb' 3 3)).onReg = none)
    (hmem : c.extractLsb' 6 2 ≠ 3 → (rmLines f (c.extractLsb' 3 3)).onMem = none) :
    decodeRM f (c :: rest) = .unlisted rest := by
  by_cases h3 : c.extractLsb' 6 2 = 3
  · simp only [decodeRM, Parse.byte, if_pos h3, hreg h3]
  · simp only [decodeRM, Parse.byte, if_neg h3, hmem h3]

theorem decodeRM_nothing (h : rmLines f (c.extractLsb' 3 3) = .nothing) : decodeRM f (c :: rest) = .unlisted rest :=
  decodeRM_unlisted (fun _ => by rw [h]; rfl) fun _ => by rw [h]; rfl

/-- Each pair of bytes that no row matches is refused by the entry of its first byte (R98, R99). -/
theorem decode_unlistedPair (h : UnlistedPair b c) (rest : List Byte) : decode (b :: c :: rest) = .unlisted rest := by
  simp only [UnlistedPair, List.mem_cons (a := c.toNat / 8 % 8), List.not_mem_nil, or_false, not_or] at h
  rcases h with ⟨rfl, hc⟩ | ⟨hb, hc⟩ | ⟨hb, h0, h5⟩ | ⟨hb, h0⟩ | ⟨hb, h2, h6⟩ | ⟨rfl, h0, h1⟩ |
    ⟨rfl, ⟨h0, h1, h4, h5⟩ | ⟨h5, hc⟩⟩
  · refine decode_cons (o := .twoByte) rfl ?_
    have hjcc : ∀ c : Byte, (c.toNat < 0x80 ∨ 0x8F < c.toNat) → c &&& 0xF0 ≠ 0x80 := by decide
    simp only [decodeAfter, Parse.byte, if_neg (hjcc c hc)]
  · have hmod : c.extractLsb' 6 2 ≠ 3 := mt modField_iff.1 (Nat.not_le.2 hc)
    refine decode_cons (opcodeOf_or b hb) (decodeRM_unlisted (fun h3 => absurd h3 hmod) fun _ => ?_)
    cases b.getLsbD 1 <;> rfl
  · refine decode_cons (opcodeOf_80_to_83 b hb) (decodeRM_nothing ?_)
    rw [rmLines, if_neg (regField_ne h0), if_neg (regField_ne h5)]
  · refine decode_cons (opcodeOf_C6_C7 b hb) (decodeRM_nothing ?_)
    rw [rmLines, if_neg (regField_ne h0)]
  · refine decode_cons (opcodeOf_F6_F7 b hb) (decodeRM_nothing ?_)
    rw [rmLines, if_neg (regField_ne h2), if_neg (regField_ne h6)]
  · refine decode_cons (o := .modRM .groupFE) rfl (decodeRM_nothing ?_)
    rw [rmLines, if_neg (regField_ne h0), if_neg (regField_ne h1)]
  · refine decode_cons (o := .modRM .groupFF) rfl (decodeRM_nothing ?_)
    rw [rmLines, if_neg (regField_ne h0), if_neg (regField_ne h1), if_neg (regField_ne h4), if_neg (regField_ne h5)]
  · have hfield : c.extractLsb' 3 3 = 5 := BitVec.eq_of_toNat_eq ((toNat_slice c 3 3).trans h5)
    exact decode_cons (o := .modRM .groupFF) rfl
      (decodeRM_unlisted (fun _ => by rw [hfield]; rfl) fun h3 => absurd (modField_iff.2 hc) h3)

end

end Sys2Proof

namespace Sys2Proof.Machine

/-- A step at bytes that the decoder refuses, whatever follows them, is the refusal of those bytes (R99, R102). -/
theorem step_of_unlisted {s : State} {bs : List Byte} (h : ¬ Final s) (hf : Fetched s bs) (hl : bs.length ≤ 6)
    (hd : ∀ rest, decode (bs ++ rest) = .unlisted rest) : step s = .refused (.unlisted bs) := by
  obtain ⟨rest, hbytes, -⟩ := fetchBytes_of_fetched hf hl
  rw [step_of_not_final h, hbytes, stepDecoded, hd]
  simp

/-- Settles O5: the decoder refuses such bytes whatever follows them. -/
theorem unlistedFirstByteIsRefused : Obligations.UnlistedFirstByteIsRefused :=
  ⟨fun _ _ h hf hb => step_of_unlisted h hf (by simp) (decode_unlisted hb),
   fun _ _ _ h hf hp => step_of_unlisted h hf (by simp) (decode_unlistedPair hp)⟩

/-- Settles O7, by the rule of a step whose bytes decode. -/
theorem stepRunsDecodedInstruction : Obligations.StepRunsDecodedInstruction := fun _ _ _ h hd => step_of_decode h hd

/-! ## Operands in numbers (R84) -/

theorem baseSum_toNat (s : State) (b : BaseIndex) : ((s.baseSum b).toNat : Int) = baseNumber s b % 0x10000 := by
  have hadd : ∀ u v : Word, ((u + v).toNat : Int) = ((u.toNat : Int) + v.toNat) % 0x10000 := by
    intro u v
    rw [BitVec.toNat_add]
    rfl
  have hone : ∀ u : Word, (u.toNat : Int) = (u.toNat : Int) % 0x10000 := by
    intro u
    have := u.isLt
    omega
  cases b
  case bxsi | bxdi | bpsi | bpdi => exact hadd _ _
  case si | di | bp | bx => exact hone _

/-- D8 is added as the signed number it stands for (R84, R94). -/
theorem signExtend_toNat (d : Byte) : ((d.signExtend 16).toNat : Int) = d.toInt % 0x10000 :=
  Int.toNat_of_nonneg (Int.emod_nonneg _ (by decide))

theorem ea_add_toNat {s : State} {b : BaseIndex} {d : Word} {n : Int} (hd : (d.toNat : Int) = n % 0x10000) :
    ((s.baseSum b + d).toNat : Int) = (baseNumber s b + n) % 0x10000 := by
  have hb := baseSum_toNat s b
  rw [BitVec.toNat_add]
  omega

/-- Settles O20: the addresses from the sums of base and index, the bytes by the cases of operand and immediate. -/
theorem effectiveAddresses : Obligations.EffectiveAddresses := by
  have hfield : ∀ b : BaseIndex, b.field = rmNumber b := by intro b; cases b <;> rfl
  refine ⟨fun s => ⟨fun _ => rfl, baseSum_toNat s, fun b d => ea_add_toNat (signExtend_toNat d), fun b d => ?_⟩,
    fun field => ⟨fun _ => rfl, fun b _ => ?_, fun b d => ?_, fun b d => ?_, fun m => ?_⟩,
    fun _ => ⟨rfl, fun _ => rfl, rfl⟩, fun _ => ⟨rfl, rfl⟩, fun imm => ?_, fun imm => ?_, rfl, rfl⟩
  · have := d.isLt
    exact ea_add_toNat (by omega)
  · rw [← hfield]; rfl
  · rw [← hfield]; rfl
  · rw [← hfield]; rfl
  · cases m <;> rfl
  · cases imm <;> rfl
  · cases imm <;> rfl

/-! ## Conditions (R130) -/

/-- The conditions of the table two by two: tttn = ttt0 and tttn = ttt1. -/
def condPairs : List (Cond × Cond) :=
  [(.o, .no), (.b, .nb), (.e, .ne), (.be, .nbe), (.s, .ns), (.p, .np), (.l, .nl), (.le, .nle)]

theorem ofField_mem_condPairs :
    ∀ ttt : BitVec 3, (Cond.ofField (ttt ++ 0#1), Cond.ofField (ttt ++ 1#1)) ∈ condPairs := by
  decide

theorem cond_negates (f : Flags) : ∀ p ∈ condPairs, f.cond p.2 = !f.cond p.1 := by
  simp [condPairs, Flags.cond, bne]

/-- Settles O22: the flag tests by their table, the negations by the pairs of conditions. -/
theorem conditionTable : Obligations.ConditionTable := by
  have hneg (f : Flags) (ttt : BitVec 3) := cond_negates f _ (ofField_mem_condPairs ttt)
  refine ⟨fun f => ⟨?_, ?_, ?_, ?_, ?_, ?_, ?_, ?_, ?_, ?_, ?_, ?_, ?_, ?_, ?_, ?_, hneg f⟩, by decide,
    cond_ofField_field⟩
  all_goals simp [Cond.ofField, Flags.cond]

end Sys2Proof.Machine
end

section
/-! The family of the jumps: the conditions after SUB, relative and indirect transfers with the place each goes to, and
the frame of the jumps. -/

namespace Sys2Proof.Machine

/-! ## The conditions after SUB (R130, R150) -/

section
variable {n : Nat} (a b : BitVec n) (f : Flags)

/-- CF is the borrow, so B says that the destination is below the source. -/
theorem cond_b_subFlags : (subFlags a b f).flags.cond .b = true ↔ a.toNat < b.toNat :=
  decide_eq_true_iff

/-- ZF is set by the difference, so E says that the operands are equal. -/
theorem cond_e_subFlags : (subFlags a b f).flags.cond .e = true ↔ a = b :=
  beq_iff_eq.trans sub_eq_zero

theorem cond_be_subFlags : (subFlags a b f).flags.cond .be = true ↔ a.toNat ≤ b.toNat := by
  have h : (subFlags a b f).flags.cond .be =
      ((subFlags a b f).flags.cond .b || (subFlags a b f).flags.cond .e) := rfl
  rw [h, Bool.or_eq_true, cond_b_subFlags, cond_e_subFlags, ← BitVec.toNat_inj, Nat.le_iff_lt_or_eq]

/-- Operands of one sign have an exact difference, whose sign is SF. Where the signs differ, SF and OF differ exactly
where the destination is the negative one. -/
theorem cond_l_subFlags : (subFlags a b f).flags.cond .l = true ↔ a.toInt < b.toInt := by
  have hl : (subFlags a b f).flags.cond .l = ((a - b).msb != (a.msb != b.msb && (a - b).msb != a.msb)) := rfl
  rw [hl]
  by_cases hsign : a.msb = b.msb
  · have hexact : (a - b).toInt = a.toInt - b.toInt :=
      BitVec.toInt_sub_of_not_ssubOverflow (by rw [BitVec.ssubOverflow_eq, hsign]; cases b.msb <;> simp)
    rw [hsign, bne_self_eq_false, Bool.false_and, Bool.bne_false, BitVec.msb_eq_toInt, decide_eq_true_iff, hexact]
    omega
  · have hneg : ((a - b).msb != (a.msb != b.msb && (a - b).msb != a.msb)) = a.msb := by
      rw [bne_iff_ne.2 hsign]
      cases a.msb <;> cases (a - b).msb <;> rfl
    rw [hneg]
    simp only [BitVec.msb_eq_toInt, decide_eq_decide] at hsign ⊢
    rw [decide_eq_true_iff]
    omega

theorem cond_le_subFlags : (subFlags a b f).flags.cond .le = true ↔ a.toInt ≤ b.toInt := by
  have h : (subFlags a b f).flags.cond .le =
      ((subFlags a b f).flags.cond .e || (subFlags a b f).flags.cond .l) := rfl
  rw [h, Bool.or_eq_true, cond_e_subFlags, cond_l_subFlags, ← BitVec.toInt_inj, Int.le_iff_lt_or_eq, or_comm]

end

/-- Settles O23: SUB leaves the flags of its difference, in which each condition is a comparison. -/
theorem conditionsAfterSubCompare : Obligations.ConditionsAfterSubCompare := by
  intro w reg1 reg2 s t h
  obtain ⟨-, rfl⟩ := binToReg_ok.1 (outcome_next.1 h)
  exact ⟨cond_b_subFlags _ _ _, cond_be_subFlags _ _ _, cond_e_subFlags _ _ _, cond_l_subFlags _ _ _,
    cond_le_subFlags _ _ _⟩

/-! ## Relative transfers (R141) -/

/-- The outcome of a relative transfer by `rel` that leaves the state `u` but for IP: to the target where it is taken,
with no limit check; else on to `next`, or `SegLimit` on CS where that exceeds FFFFh (R24, R141). -/
structure Branches (s u : State) (taken : Bool) (len : Nat) (rel : Int) (o : Host.Outcome State Fault Refusal) :
    Prop where
  jumps : taken = true → ∃ pc, TargetIs s len rel pc ∧ o = .next { u with pc := pc }
  next : taken = false → Continues s len → o = .next { u with pc := pcAfter s len }
  limit : taken = false → ¬ Continues s len → EndsPastSegment o

section
variable {s u : State} {taken : Bool} {len : Nat}

theorem targetIs_of_toNat {rel : Word} {k : Int} (hrel : (rel.toNat : Int) = k % 0x10000) :
    TargetIs s len k (BitVec.ofNat 16 (s.pc.toNat + len) + rel) := by
  rw [TargetIs, BitVec.toNat_add, BitVec.toNat_ofNat]
  omega

/-- `State.branch` is such a transfer, of a state with the same IP. -/
theorem branch_branches {rel : Word} {k : Int} (hp : u.pc = s.pc) (hrel : (rel.toNat : Int) = k % 0x10000) :
    Branches s u taken len k (Res.outcome (u.branch taken len rel)) where
  jumps h := ⟨_, targetIs_of_toNat hrel, outcome_next.2 (branch_ok.2 (.inl ⟨h, by rw [hp]⟩))⟩
  next h hc := outcome_next.2 (branch_ok.2 (.inr ⟨h, by rwa [Continues, hp], by rw [pcAfter, hp]⟩))
  limit h hc := h ▸ endsPastSegment_error (branch_limit hp hc)

/-- A displacement byte is added as the signed number it stands for. -/
theorem branch_byte (hp : u.pc = s.pc) (d : Byte) :
    Branches s u taken len d.toInt (Res.outcome (u.branch taken len (d.signExtend 16))) :=
  branch_branches hp (signExtend_toNat d)

theorem branch_word (hp : u.pc = s.pc) (d : Word) :
    Branches s u taken len d.toNat (Res.outcome (u.branch taken len d)) :=
  branch_branches hp (by have := d.isLt; omega)

end

/-! ## Jcc (R131, R132) -/

section
variable (c : Cond) (s : State)

theorem encode_jccShort (d : Byte) : encode (Instr.jccShort c d) = encodeJccShort c d := by
  cases c <;> rfl

theorem encode_jccFull (d : Word) : encode (Instr.jccFull c d) = encodeJccFull c d := by
  cases c <;> rfl

theorem exec_jccShort (d : Byte) : exec (Instr.jccShort c d) s = Res.outcome (s.jccShort c d) := by
  cases c <;> rfl

theorem exec_jccFull (d : Word) : exec (Instr.jccFull c d) s = Res.outcome (s.jccFull c d) := by
  cases c <;> rfl

end

/-- Settles O42: the sixteen conditions share one transfer for each size of displacement. -/
theorem conditionalJumps : Obligations.ConditionalJumps := by
  intro c s
  refine ⟨fun d => ?_, fun d => ?_⟩
  · have hb : Branches s s (s.flags.cond c) 2 d.toInt (Res.outcome (s.jccShort c d)) := branch_byte rfl d
    rw [exec_jccShort]
    exact ⟨encode_jccShort c d, hb.jumps, hb.next, hb.limit⟩
  · have hb : Branches s s (s.flags.cond c) 4 d.toNat (Res.outcome (s.jccFull c d)) := branch_word rfl d
    rw [exec_jccFull]
    exact ⟨encode_jccFull c d, hb.jumps, hb.next, hb.limit⟩

/-! ## JMP inside the segment (R133 to R136) -/

/-- Settles O43: both are relative transfers that are always taken. -/
theorem relativeJumps : Obligations.RelativeJumps :=
  fun _ => ⟨fun d => ⟨rfl, (branch_byte rfl d).jumps rfl⟩, fun d => ⟨rfl, (branch_word rfl d).jumps rfl⟩⟩

theorem modRM_jmpReg : ∀ reg : RegNum, modRM 3 0b100 reg = 0b11100#5 ++ reg := by decide

/-- JMP memory indirect goes to the word it reads, or stops with the fault of that read (R136). -/
theorem jmpMem_next {s : State} {m : Mem} (h : Readable s (eaSeg m) (s.ea m) .word) :
    exec (.jmpMem m) s = .next { s with pc := Memory.readValue s.mem (eaAddr s m) .word } :=
  outcome_next.2 (bind_ok.2 ⟨_, readMem_ok.2 ⟨h, rfl⟩, rfl⟩)

theorem jmpMem_fault {s : State} {m : Mem} (h : ¬ Readable s (eaSeg m) (s.ea m) .word) :
    exec (.jmpMem m) s = .fault (readFault s (eaSeg m) (s.ea m) .word) := by
  rw [exec, execJmpMem, readMem_error h, error_bind, outcome_error]

/-- Settles O44: the register form has no check, the memory form that of its read. -/
theorem indirectJumps : Obligations.IndirectJumps :=
  fun _ => ⟨fun reg => ⟨congrArg (fun b => [0b11111111, b]) (modRM_jmpReg reg), rfl⟩,
    fun _ => ⟨rfl, jmpMem_fault, jmpMem_next⟩⟩

/-! ## JMP to another segment (R137, R138) -/

section
variable {s : State} {m : Mem}

theorem memRead_error {a : Nat} {w : Width} (h : ¬ ∀ k < w.bytes, s.mapped (a + k) = true) :
    s.memRead a w = .error (.unmapped a) := by
  rw [State.memRead, checkMapped_error h, error_bind]

/-- An access that ends inside the segment is the access at its physical address (R51, R53). -/
theorem segRead_inside {seg : SegReg} {off : Word} {w : Width} (h : off.toNat + w.bytes ≤ 0x10000) :
    s.segRead seg off w = s.memRead (physAddr (s.seg seg) off.toNat) w := by
  rw [State.segRead, checkLimit_ok (u := ()).2 h, ok_bind]

/-- The one limit check of the four bytes (R138). -/
theorem jmpFarMem_limit (h : 0xFFFC < (s.ea m).toNat) :
    exec (.jmpFarMem m) s = .fault (.segLimit (eaSeg m) (s.ea m).toNat) := by
  have hlimit : checkLimit (eaSeg m) (s.ea m) 4 = .error (.segLimit (eaSeg m) (s.ea m).toNat) := if_pos (by omega)
  rw [exec, execJmpFarMem, hlimit, error_bind, outcome_error]

/-- Below the limit the selector is the word two bytes above the offset, and neither read can fail but by `MemMap`. -/
theorem exec_jmpFarMem (h : (s.ea m).toNat ≤ 0xFFFC) :
    exec (.jmpFarMem m) s = Res.outcome (do
      let off ← s.memRead (eaAddr s m) .word
      let sel ← s.memRead (eaAddr s m + 2) .word
      return { s with cs := sel, pc := off }) := by
  have hnext : (s.ea m + 2).toNat = (s.ea m).toNat + 2 := by bv_omega
  have hlimit : checkLimit (eaSeg m) (s.ea m) 4 = .ok () := checkLimit_ok.2 (by omega)
  have hoff : s.segRead (eaSeg m) (s.ea m) .word = s.memRead (eaAddr s m) .word :=
    segRead_inside (by simp only [Width.bytes]; omega)
  have hsel : s.segRead (eaSeg m) (s.ea m + 2) .word = s.memRead (eaAddr s m + 2) .word := by
    rw [segRead_inside (by simp only [Width.bytes]; omega), hnext]
    rfl
  rw [exec, execJmpFarMem, hlimit, ok_bind, hoff, hsel]

theorem jmpFarMem_unmapped_offset (h : (s.ea m).toNat ≤ 0xFFFC)
    (hoff : ¬ ∀ k < 2, s.mapped (eaAddr s m + k) = true) :
    exec (.jmpFarMem m) s = .fault (.unmapped (eaAddr s m)) := by
  rw [exec_jmpFarMem h, memRead_error (w := .word) hoff, error_bind, outcome_error]

theorem jmpFarMem_unmapped_selector (h : (s.ea m).toNat ≤ 0xFFFC) (hoff : ∀ k < 2, s.mapped (eaAddr s m + k) = true)
    (hsel : ¬ ∀ k < 2, s.mapped (eaAddr s m + 2 + k) = true) :
    exec (.jmpFarMem m) s = .fault (.unmapped (eaAddr s m + 2)) := by
  rw [exec_jmpFarMem h, memRead_ok (w := .word).2 ⟨hoff, rfl⟩, ok_bind, memRead_error (w := .word) hsel,
    error_bind, outcome_error]

theorem jmpFarMem_next (h : (s.ea m).toNat ≤ 0xFFFC) (hmap : ∀ k < 4, s.mapped (eaAddr s m + k) = true) :
    exec (.jmpFarMem m) s =
      .next { s with cs := Memory.readValue s.mem (eaAddr s m + 2) .word
                     pc := Memory.readValue s.mem (eaAddr s m) .word } := by
  have hoff : ∀ k < 2, s.mapped (eaAddr s m + k) = true := fun k hk => hmap k (by omega)
  have hsel : ∀ k < 2, s.mapped (eaAddr s m + 2 + k) = true := fun k hk => by
    rw [Nat.add_assoc]
    exact hmap (2 + k) (by omega)
  rw [exec_jmpFarMem h, memRead_ok (w := .word).2 ⟨hoff, rfl⟩, ok_bind, memRead_ok (w := .word).2 ⟨hsel, rfl⟩, ok_bind]
  rfl

end

/-- The second byte FF 11 101 reg is one of the refused pairs (R98, R99). -/
theorem unlistedPair_jmpFarReg : ∀ reg : RegNum, UnlistedPair 0b11111111 (0b11101#5 ++ reg) := by decide

/-- Settles O45: the indirect form by its limit check and its two reads. -/
theorem farJumps : Obligations.FarJumps :=
  fun _ => ⟨fun _ _ => ⟨rfl, rfl⟩,
    fun _ => ⟨rfl, jmpFarMem_limit, jmpFarMem_unmapped_offset, jmpFarMem_unmapped_selector, jmpFarMem_next⟩,
    fun reg => decode_unlistedPair (unlistedPair_jmpFarReg reg)⟩

/-! ## JCXZ and LOOP (R139, R140) -/

/-- Settles O46: a relative transfer taken where CX = 0. -/
theorem jcxzJumpsOnZero : Obligations.JcxzJumpsOnZero := by
  intro d s
  have hb : Branches s s (s.reg .word cxReg == 0) 2 d.toInt (exec (.jcxz d) s) := branch_byte rfl d
  exact ⟨rfl, fun h => hb.jumps (beq_iff_eq.2 h), fun h => hb.next (beq_eq_false_iff_ne.2 h),
    fun h => hb.limit (beq_eq_false_iff_ne.2 h)⟩

/-- CX after LOOP, as a number. -/
theorem decremented_toNat (v : Word) : ((v - 1).toNat : Int) = ((v.toNat : Int) - 1) % 0x10000 := by
  bv_omega

/-- Settles O47: CX is decremented, and the transfer from there is taken where it is not zero. -/
theorem loopDecrementsCx : Obligations.LoopDecrementsCx := by
  intro d s
  have hb : Branches s (s.setReg .word cxReg (s.reg .word cxReg - 1)) (s.reg .word cxReg - 1 != 0) 2 d.toInt
      (exec (.loop d) s) := branch_byte (setReg_pc ..) d
  exact ⟨rfl, s.reg .word cxReg - 1, decremented_toNat _, fun h => hb.jumps (bne_iff_ne.2 h),
    fun h => hb.next (bne_eq_false_iff_eq.2 h), fun h => hb.limit (bne_eq_false_iff_eq.2 h)⟩

/-! ## The frame of the jumps -/

/-- The next states of a jump: IP and, for the jumps to another segment, CS; for LOOP, CX and IP. -/
inductive JumpEffect (i : Instr) (s : State) : State → Prop
  | transfer (cs pc : Word) (hcs : mayWriteCs i = false → cs = s.cs) : JumpEffect i s { s with cs := cs, pc := pc }
  | loop {d : Byte} (hi : i = .loop d) (cx pc : Word) :
      JumpEffect i s { s with x := (s.setReg .word cxReg cx).x, pc := pc }

section
variable {i : Instr} {s t : State}

/-- A relative transfer leaves its state but for IP. -/
theorem branch_next {u : State} {taken : Bool} {len : Nat} {rel : Word} (h : u.branch taken len rel = .ok t) :
    ∃ pc, t = { u with pc := pc } := by
  rcases branch_ok.1 h with ⟨-, rfl⟩ | ⟨-, -, rfl⟩ <;> exact ⟨_, rfl⟩

/-- A jump that completes has one of these effects: `cases hi` leaves the jumps, and the last line is for Jcc and
JCXZ. -/
theorem exec_jumpEffect (hi : isJump i = true) (h : exec i s = .next t) : JumpEffect i s t := by
  cases i
  all_goals cases hi
  case jmpShort | jmpDirect | jmpReg => cases h; exact .transfer s.cs _ fun _ => rfl
  case jmpFar => cases h; exact .transfer _ _ nofun
  all_goals replace h := outcome_next.1 h
  case jmpMem => obtain ⟨_, -, h⟩ := bind_ok.1 h; cases h; exact .transfer s.cs _ fun _ => rfl
  case jmpFarMem =>
    obtain ⟨_, -, h⟩ := bind_ok.1 h
    obtain ⟨_, -, h⟩ := bind_ok.1 h
    obtain ⟨_, -, h⟩ := bind_ok.1 h
    cases h
    exact .transfer _ _ nofun
  case loop => obtain ⟨pc, rfl⟩ := branch_next h; rw [setReg_eq]; exact .loop rfl _ pc
  all_goals obtain ⟨pc, rfl⟩ := branch_next h; exact .transfer s.cs pc fun _ => rfl

end

theorem onlyRegister_refl (w : Width) (r : RegNum) (s : State) : OnlyRegister w r s s :=
  ⟨fun _ _ => rfl, fun _ => rfl, fun _ _ _ => rfl⟩

/-- Settles O58: by the two effects a jump can have. -/
theorem jumpFrame : Obligations.JumpFrame := by
  intro i s t hi h
  cases exec_jumpEffect hi h with
  | transfer cs pc hcs =>
    exact ⟨fun _ => rfl, rfl, ⟨rfl, rfl, rfl, rfl, rfl, rfl, rfl, rfl⟩, ⟨rfl, rfl⟩, rfl, hcs, fun _ _ => rfl,
      (onlyRegister_refl .word cxReg s).congr rfl⟩
  | loop hloop cx pc =>
    exact ⟨fun _ => rfl, rfl, ⟨rfl, rfl, rfl, rfl, rfl, rfl, rfl, rfl⟩, ⟨rfl, rfl⟩, rfl, fun _ => rfl,
      fun hne => absurd hloop (hne _), (onlyRegister_setReg s .word cxReg cx).congr rfl⟩

end Sys2Proof.Machine
end

section
/-! The family of arithmetic: ADD, SUB, INC and DEC as the relations of Safety.lean between operands, result and flags;
the decimal adjustments in numbers; DIV where it completes; and the frame of DIV and the software interrupts. -/

namespace Sys2Proof

/-- Settles O6: each byte string is the encoding of its instruction. -/
theorem sampleEncodingsDecode : Obligations.SampleEncodingsDecode :=
  ⟨decode_encode (i := .addReg1ToReg2 .word 3 0) rfl [],
   decode_encode (i := .addImmToMem (.sext 0xFF) (.disp8 .bp 0xFE)) rfl [],
   decode_encode (i := .subMemToReg .word 0 (.plain .si)) rfl [],
   decode_encode (i := .incRegAlt 7) rfl [],
   decode_encode (i := .divMem .byte (.direct 0x3000)) rfl [],
   decode_encode (i := .jbFull 0x0100) rfl [],
   decode_encode (i := .jmpFar 0x0020 0x1000) rfl [],
   decode_encode (i := .inFixed .byte 0x60) rfl [],
   decode_encode (i := .intN 0x21) rfl [],
   decode_encode (i := .movImmToMem (.word 0xBEEF) (.disp16 .bpsi 0x1000)) rfl [],
   decode_encode (i := .notReg .word 3) rfl [],
   decode_encode (i := .orReg2ToReg1 .byte 4 5) rfl []⟩

end Sys2Proof

namespace Sys2Proof.Machine

/-! ## The shapes, for any relation that the operation satisfies (R56) -/

/-- What is to hold of two operands, the flags before, the result and the flags after. -/
abbrev BinRel (w : Width) := BitVec w.bits → BitVec w.bits → Flags → BitVec w.bits → Flags → Prop

/-- The same for one operand. -/
abbrev UnRel (w : Width) := BitVec w.bits → Flags → BitVec w.bits → Flags → Prop

/-- The outcome of a form that reads its memory operand and stores a result there: the fault of the access where the
operand cannot be read and written; else the result and flags that `R` allows, or `SegLimit` on CS (R24, R226). -/
structure StoresResult (s : State) (w : Width) (m : Mem) (len : Nat) (R : BitVec w.bits → Flags → Prop)
    (o : Host.Outcome State Fault Refusal) : Prop where
  fault : ¬ Writable s (eaSeg m) (s.ea m) w → o = .fault (writeFault s (eaSeg m) (s.ea m) w)
  next : Writable s (eaSeg m) (s.ea m) w → Continues s len → ∃ r g, R r g ∧
    o = .next { s with mem := Memory.writeValue s.mem (eaAddr s m) w r, flags := g, pc := pcAfter s len }
  limit : Writable s (eaSeg m) (s.ea m) w → ¬ Continues s len → EndsPastSegment o

section
variable {s : State} {w : Width} {len : Nat} {m : Mem} {dst : RegNum} {v : BitVec w.bits}

theorem binToReg_next {op : BinOp w} {R : BinRel w} (hop : ∀ a b f, R a b f (op a b f).value (op a b f).flags)
    (hc : Continues s len) : ∃ r g, R (s.reg w dst) v s.flags r g ∧
      Res.outcome (s.binToReg op dst v len) = .next { s.setReg w dst r with flags := g, pc := pcAfter s len } :=
  ⟨_, _, hop _ _ _, outcome_next.2 (binToReg_ok.2 ⟨hc, rfl⟩)⟩

/-- Where a register form completes, its destination reads as the result and the flags are those of the operation. -/
theorem binToReg_result {t : State} {op : BinOp w} (h : s.binToReg op dst v len = .ok t) :
    t.reg w dst = (op (s.reg w dst) v s.flags).value ∧ t.flags = (op (s.reg w dst) v s.flags).flags := by
  obtain ⟨-, rfl⟩ := binToReg_ok.1 h
  exact ⟨(reg_congr rfl w dst).trans (reg_setReg_same s w dst _), rfl⟩

theorem unReg_next {op : UnOp w} {R : UnRel w} (hop : ∀ a f, R a f (op a f).value (op a f).flags)
    (hc : Continues s len) : ∃ r g, R (s.reg w dst) s.flags r g ∧
      Res.outcome (s.unReg op dst len) = .next { s.setReg w dst r with flags := g, pc := pcAfter s len } :=
  ⟨_, _, hop _ _, outcome_next.2 (unReg_ok.2 ⟨hc, rfl⟩)⟩

theorem binMemToReg_next {op : BinOp w} {R : BinRel w} (hop : ∀ a b f, R a b f (op a b f).value (op a b f).flags)
    (hr : Readable s (eaSeg m) (s.ea m) w) (hc : Continues s len) :
    ∃ r g, R (s.reg w dst) (Memory.readValue s.mem (eaAddr s m) w) s.flags r g ∧
      Res.outcome (s.binMemToReg op dst m len) = .next { s.setReg w dst r with flags := g, pc := pcAfter s len } :=
  ⟨_, _, hop _ _ _, outcome_next.2 (binMemToReg_ok.2 ⟨hr, hc, rfl⟩)⟩

theorem binToMem_stores {op : BinOp w} {R : BinRel w} (hop : ∀ a b f, R a b f (op a b f).value (op a b f).flags) :
    StoresResult s w m len (R (Memory.readValue s.mem (eaAddr s m) w) v s.flags)
      (Res.outcome (s.binToMem op m v len)) where
  fault h := congrArg Res.outcome (binToMem_error h)
  next h hc := ⟨_, _, hop _ _ _, outcome_next.2 (binToMem_ok.2 ⟨h, hc, rfl⟩)⟩
  limit h hc := endsPastSegment_error (binToMem_limit h hc)

theorem unMem_stores {op : UnOp w} {R : UnRel w} (hop : ∀ a f, R a f (op a f).value (op a f).flags) :
    StoresResult s w m len (R (Memory.readValue s.mem (eaAddr s m) w) s.flags) (Res.outcome (s.unMem op m len)) where
  fault h := congrArg Res.outcome (unMem_error h)
  next h hc := ⟨_, _, hop _ _, outcome_next.2 (unMem_ok.2 ⟨h, hc, rfl⟩)⟩
  limit h hc := endsPastSegment_error (unMem_limit h hc)

end

/-! ## ADD and SUB (R150 to R158, R170 to R176) -/

section
variable {n : Nat} (a b : BitVec n) (f : Flags)

/-- CF is the carry, so it says that the unsigned sum does not fit. -/
theorem cf_addFlags : (addFlags a b f).flags.cf = true ↔ (addFlags a b f).value.toNat ≠ a.toNat + b.toNat := by
  obtain ⟨hsum, hcf, -⟩ := isSum_addFlags a b f
  rw [hcf, hsum, ne_eq, Nat.mod_eq_iff_lt (by positivity), Nat.not_lt]

/-- OF is the overflow of the signed sum. -/
theorem ovf_addFlags : (addFlags a b f).flags.ovf = true ↔ (addFlags a b f).value.toInt ≠ a.toInt + b.toInt := by
  have hovf : (addFlags a b f).flags.ovf = a.saddOverflow b := (BitVec.saddOverflow_eq a b).symm
  rw [hovf]
  constructor
  · intro hover hexact
    have hlow := (a + b).le_toInt
    have hhigh := (a + b).toInt_lt
    simp only [BitVec.saddOverflow, Bool.or_eq_true, decide_eq_true_iff, ← hexact] at hover
    exact hover.elim (fun h => absurd hhigh (Int.not_lt.2 h)) fun h => absurd hlow (Int.not_le.2 h)
  · intro hne
    by_contra hfits
    exact hne (BitVec.toInt_add_of_not_saddOverflow hfits)

end

/-- Settles O24: ADD leaves the flags of its sum. -/
theorem carryAndOverflowAfterAdd : Obligations.CarryAndOverflowAfterAdd := by
  intro w reg1 reg2 s t h
  obtain ⟨hreg, hflags⟩ := binToReg_result (outcome_next.1 h)
  rw [hreg, hflags]
  exact ⟨cf_addFlags _ _ _, ovf_addFlags _ _ _⟩

/-- Settles O25: `addFlags` gives the sum, in either direction. -/
theorem addBetweenRegisters : Obligations.AddBetweenRegisters :=
  fun _ _ _ _ => ⟨rfl, rfl, fun hc => ⟨binToReg_next isSum_addFlags hc, binToReg_next isSum_addFlags hc⟩⟩

/-- Settles O26: `subFlags` gives the difference, in either direction. -/
theorem subBetweenRegisters : Obligations.SubBetweenRegisters :=
  fun _ _ _ _ => ⟨rfl, rfl, fun hc =>
    ⟨binToReg_next isDifference_subFlags hc, binToReg_next isDifference_subFlags hc⟩⟩

/-- Settles O27: the three clauses of the shape that reads memory, for sum and difference. -/
theorem addSubMemoryToRegister : Obligations.AddSubMemoryToRegister :=
  fun _ _ _ _ => ⟨rfl, rfl,
    fun h => ⟨congrArg Res.outcome (binMemToReg_error h), congrArg Res.outcome (binMemToReg_error h)⟩,
    fun h hc => ⟨binMemToReg_next isSum_addFlags h hc, binMemToReg_next isDifference_subFlags h hc⟩,
    fun h hc => ⟨endsPastSegment_error (binMemToReg_limit h hc), endsPastSegment_error (binMemToReg_limit h hc)⟩⟩

/-- Settles O28: both forms store their result, the sum or the difference with the register. -/
theorem addSubRegisterToMemory : Obligations.AddSubRegisterToMemory := by
  intro w reg m s
  have hadd : StoresResult s w m (2 + m.dispLength) _ (exec (.addRegToMem w reg m) s) := binToMem_stores isSum_addFlags
  have hsub : StoresResult s w m (2 + m.dispLength) _ (exec (.subRegToMem w reg m) s) :=
    binToMem_stores isDifference_subFlags
  exact ⟨rfl, rfl, fun h => ⟨hadd.fault h, hsub.fault h⟩, fun h hc => ⟨hadd.next h hc, hsub.next h hc⟩,
    fun h hc => ⟨hadd.limit h hc, hsub.limit h hc⟩⟩

/-! ### Immediates (R89, R95): the operand of the obligations is the model's, width for width -/

theorem opcode_eq_swBits (imm : ImmSW) : imm.opcode = 0b100000#6 ++ swBits imm := by
  cases imm with
  | byte s v => cases s <;> simp [ImmSW.opcode, swBits]
  | word v => simp [ImmSW.opcode, swBits]
  | sext v => simp [ImmSW.opcode, swBits]

/-- The operation's width and operand are those of `1000 00sw` as the obligations write them (R89). -/
theorem immOperand_eq (imm : ImmSW) : immOperand imm = ⟨immSWWidth imm, immSWValue imm⟩ := by
  cases imm <;> rfl

theorem plainOperand_eq (imm : Imm) : plainOperand imm = ⟨imm.width, immValue imm⟩ := by
  cases imm <;> rfl

theorem modRM_add : ∀ reg : RegNum, modRM 3 0b000 reg = 0b11000#5 ++ reg := by decide

theorem modRM_sub : ∀ reg : RegNum, modRM 3 0b101 reg = 0b11101#5 ++ reg := by decide

/-- Settles O29: sum and difference with the operand of `1000 00sw`. -/
theorem addSubImmediateToRegister : Obligations.AddSubImmediateToRegister := by
  intro imm reg s
  rw [immOperand_eq, ← modRM_add, ← modRM_sub, ← opcode_eq_swBits]
  exact ⟨rfl, rfl, fun hc => ⟨binToReg_next isSum_addFlags hc, binToReg_next isDifference_subFlags hc⟩⟩

/-- Settles O30: sum and difference with the immediate, in AL or AX. -/
theorem addSubImmediateToAccumulator : Obligations.AddSubImmediateToAccumulator := by
  intro imm s
  rw [plainOperand_eq]
  exact ⟨rfl, rfl, fun hc => ⟨binToReg_next isSum_addFlags hc, binToReg_next isDifference_subFlags hc⟩⟩

/-- Settles O31: both forms store their result, the sum or the difference with the operand of `1000 00sw`. -/
theorem addSubImmediateToMemory : Obligations.AddSubImmediateToMemory := by
  intro imm m s
  rw [immOperand_eq, ← opcode_eq_swBits]
  have hadd : StoresResult s (immSWWidth imm) m (2 + m.dispLength + imm.length) _ (exec (.addImmToMem imm m) s) :=
    binToMem_stores isSum_addFlags
  have hsub : StoresResult s (immSWWidth imm) m (2 + m.dispLength + imm.length) _ (exec (.subImmToMem imm m) s) :=
    binToMem_stores isDifference_subFlags
  exact ⟨rfl, rfl, fun h => ⟨hadd.fault h, hsub.fault h⟩, fun h hc => ⟨hadd.next h hc, hsub.next h hc⟩,
    fun h hc => ⟨hadd.limit h hc, hsub.limit h hc⟩⟩

/-! ## INC and DEC (R161 to R163, R167 to R169) -/

theorem modRM_dec : ∀ reg : RegNum, modRM 3 0b001 reg = 0b11001#5 ++ reg := by decide

/-- Settles O32: increment and decrement, in both encodings. -/
theorem incDecRegister : Obligations.IncDecRegister := by
  refine ⟨fun w reg s => ?_, fun reg s => ⟨rfl, rfl, fun hc =>
    ⟨unReg_next isIncrement_incFlags hc, unReg_next isDecrement_decFlags hc⟩⟩⟩
  rw [← modRM_add, ← modRM_dec]
  exact ⟨rfl, rfl, fun hc => ⟨unReg_next isIncrement_incFlags hc, unReg_next isDecrement_decFlags hc⟩⟩

/-- Settles O33: both forms store their result, the increment or the decrement. -/
theorem incDecMemory : Obligations.IncDecMemory := by
  intro w m s
  have hinc : StoresResult s w m (2 + m.dispLength) _ (exec (.incMem w m) s) := unMem_stores isIncrement_incFlags
  have hdec : StoresResult s w m (2 + m.dispLength) _ (exec (.decMem w m) s) := unMem_stores isDecrement_decFlags
  exact ⟨rfl, rfl, fun h => ⟨hinc.fault h, hdec.fault h⟩, fun h hc => ⟨hinc.next h hc, hdec.next h hc⟩,
    fun h hc => ⟨hinc.limit h hc, hdec.limit h hc⟩⟩

/-! ## DAA and DAS (R159, R160) -/

section
variable (al : Byte) (f : Flags) (ovf : Bool)

/-- Two adjustments of AL upwards are one addition modulo 2^8. -/
theorem toNat_adjust_up (low high : Bool) :
    (if high then (if low then al + 6 else al) + 0x60 else if low then al + 6 else al).toNat =
      (al.toNat + (if low then 6 else 0) + (if high then 0x60 else 0)) % 256 := by
  cases low <;> cases high <;> simp only [Bool.false_eq_true, if_true, if_false] <;> bv_omega

theorem toNat_adjust_down (low high : Bool) :
    ((if high then (if low then al - 6 else al) - 0x60 else if low then al - 6 else al).toNat : Int) =
      (al.toNat - (if low then 6 else 0) - (if high then 0x60 else 0)) % 256 := by
  cases low <;> cases high <;> simp only [Bool.false_eq_true, if_true, if_false] <;> bv_omega

theorem af_daaFn : (daaFn al f ovf).flags.af = true ↔ 9 < al.toNat % 16 ∨ f.af = true := by
  simp [daaFn, setSZP]

theorem cf_daaFn : (daaFn al f ovf).flags.cf = true ↔ 0x99 < al.toNat ∨ f.cf = true := by
  simp [daaFn, setSZP]

/-- AF says that the low digit was adjusted, CF that the high digit was. -/
theorem value_daaFn : (daaFn al f ovf).value.toNat =
    (al.toNat + (if (daaFn al f ovf).flags.af then 6 else 0) + (if (daaFn al f ovf).flags.cf then 0x60 else 0)) % 256 :=
  toNat_adjust_up al _ _

theorem af_dasFn : (dasFn al f ovf).flags.af = true ↔ 9 < al.toNat % 16 ∨ f.af = true := by
  simp [dasFn, setSZP]

/-- CF is set where the high digit was adjusted and where the adjustment of the low digit borrowed. -/
theorem cf_dasFn : (dasFn al f ovf).flags.cf = true ↔
    (0x99 < al.toNat ∨ f.cf = true) ∨ ((dasFn al f ovf).flags.af = true ∧ al.toNat < 6) := by
  simp only [dasFn, setSZP, Bool.or_eq_true, Bool.and_eq_true, decide_eq_true_iff]
  tauto

theorem value_dasFn : ((dasFn al f ovf).value.toNat : Int) =
    (al.toNat - (if (dasFn al f ovf).flags.af then 6 else 0) -
      (if 0x99 < al.toNat ∨ f.cf = true then 0x60 else 0)) % 256 := by
  have hhigh : 0x99 < al.toNat ∨ f.cf = true ↔ (decide (al.toNat > 0x99) || f.cf) = true := by simp
  rw [if_congr hhigh rfl rfl]
  exact toNat_adjust_down al _ _

theorem szpOf_daaFn : SzpOf (daaFn al f ovf).value (daaFn al f ovf).flags := szpOf_setSZP _ _

theorem szpOf_dasFn : SzpOf (dasFn al f ovf).value (dasFn al f ovf).flags := szpOf_setSZP _ _

end

/-- Settles O34: AL and the flags as `daaFn` gives them. -/
theorem daaAdjustsAl : Obligations.DaaAdjustsAl :=
  ⟨rfl, fun _ hc => ⟨_, _, outcome_next.2 (adjustAl_ok.2 ⟨hc, rfl⟩), af_daaFn _ _ _, cf_daaFn _ _ _,
    value_daaFn _ _ _, szpOf_daaFn _ _ _, onlyStatus_daaFn _ _ _⟩⟩

/-- Settles O35: AL and the flags as `dasFn` gives them. -/
theorem dasAdjustsAl : Obligations.DasAdjustsAl :=
  ⟨rfl, fun _ hc => ⟨_, _, outcome_next.2 (adjustAl_ok.2 ⟨hc, rfl⟩), af_dasFn _ _ _, cf_dasFn _ _ _,
    value_dasFn _ _ _, szpOf_dasFn _ _ _, onlyStatus_dasFn _ _ _⟩⟩

/-! ### After an addition or a subtraction of packed-BCD bytes

A carry or borrow between decimal digits is worth 10, and between the digits of a packed byte 16. The adjustment makes up
the difference: 6 in the low digit, 60h in the high digit. -/

theorem carry_and_digit {n : Nat} (h : n ≤ 19) : ∃ k d, k ≤ 1 ∧ d ≤ 9 ∧ n = 10 * k + d :=
  ⟨n / 10, n % 10, by omega, by omega, by omega⟩

theorem borrow_and_digit {m n : Nat} (hm : m ≤ 9) (hn : n ≤ 10) : ∃ k d, k ≤ 1 ∧ d ≤ 9 ∧ m + 10 * k = n + d :=
  ⟨if m < n then 1 else 0, if m < n then m + 10 - n else m - n, by split <;> omega, by split <;> omega, by
    split <;> omega⟩

theorem bcd_of_digits {v : Byte} {tens ones : Nat} (ht : tens ≤ 9) (ho : ones ≤ 9) (hv : v.toNat = 16 * tens + ones) :
    IsBcd v ∧ bcdValue v = 10 * tens + ones := by
  simp only [IsBcd, bcdValue]
  omega

section
variable {a b : Byte} (ha : IsBcd a) (hb : IsBcd b) (f : Flags) (ovf : Bool)
include ha hb

/-- AF is the carry `k` of the low digits, CF the carry `c` of the high digits. -/
theorem daa_addFlags_bcd {r : Alu 8} (hr : r = daaFn (addFlags a b f).value (addFlags a b f).flags ovf) :
    IsBcd r.value ∧ bcdValue r.value = (bcdValue a + bcdValue b) % 100 ∧
      (r.flags.cf = true ↔ 100 ≤ bcdValue a + bcdValue b) := by
  obtain ⟨hsum, hcf, haf, -⟩ := isSum_addFlags a b f
  obtain ⟨ha0, ha1⟩ := ha
  obtain ⟨hb0, hb1⟩ := hb
  obtain ⟨k, ones, hk, hones, hlow⟩ := carry_and_digit (n := a.toNat % 16 + b.toNat % 16) (by omega)
  obtain ⟨c, tens, hc, htens, hhigh⟩ := carry_and_digit (n := a.toNat / 16 + b.toNat / 16 + k) (by omega)
  have hafk : r.flags.af = true ↔ k = 1 := by rw [hr, af_daaFn, haf, hsum]; omega
  have hcfc : r.flags.cf = true ↔ c = 1 := by rw [hr, cf_daaFn, hcf, hsum]; omega
  have hvalue : r.value.toNat = 16 * tens + ones := by
    rw [hr, value_daaFn, ← hr, if_congr hafk rfl rfl, if_congr hcfc rfl rfl, hsum]
    split_ifs <;> omega
  obtain ⟨hbcd, hnumber⟩ := bcd_of_digits htens hones hvalue
  refine ⟨hbcd, ?_, ?_⟩
  · rw [hnumber]; simp only [bcdValue]; omega
  · rw [hcfc]; simp only [bcdValue]; omega

/-- AF is the borrow `k` of the low digits, CF the borrow `c` of the high digits. -/
theorem das_subFlags_bcd {r : Alu 8} (hr : r = dasFn (subFlags a b f).value (subFlags a b f).flags ovf) :
    IsBcd r.value ∧ bcdValue r.value = (bcdValue a + 100 - bcdValue b) % 100 ∧
      (r.flags.cf = true ↔ bcdValue a < bcdValue b) := by
  obtain ⟨hdiff, hcf, haf, -⟩ := isDifference_subFlags a b f
  obtain ⟨ha0, ha1⟩ := ha
  obtain ⟨hb0, hb1⟩ := hb
  obtain ⟨k, ones, hk, hones, hlow⟩ := borrow_and_digit (m := a.toNat % 16) (n := b.toNat % 16) ha0 (by omega)
  obtain ⟨c, tens, hc, htens, hhigh⟩ := borrow_and_digit (m := a.toNat / 16) (n := b.toNat / 16 + k) ha1 (by omega)
  have hafk : r.flags.af = true ↔ k = 1 := by rw [hr, af_dasFn, haf]; omega
  have hadjust : 0x99 < (subFlags a b f).value.toNat ∨ (subFlags a b f).flags.cf = true ↔ c = 1 := by rw [hcf]; omega
  have hcfc : r.flags.cf = true ↔ c = 1 := by
    rw [hr, cf_dasFn, ← hr, hafk, hadjust]; omega
  have hvalue : (r.value.toNat : Int) = 16 * tens + ones := by
    rw [hr, value_dasFn, ← hr, if_congr hafk rfl rfl, if_congr hadjust rfl rfl, hdiff]
    split_ifs <;> omega
  obtain ⟨hbcd, hnumber⟩ := bcd_of_digits htens hones (v := r.value) (by omega)
  refine ⟨hbcd, ?_, ?_⟩
  · rw [hnumber]; simp only [bcdValue]; omega
  · rw [hcfc]; simp only [bcdValue]; omega

end

/-- An adjustment that follows an operation on AL takes AL and the flags that the operation leaves. -/
theorem adjustAl_after {op : BinOp .byte} {fn : Byte → Flags → Bool → Alu 8} {b : Byte} {s t u : State} {k l : Nat}
    (ht : s.binToReg (w := .byte) op 0 b k = .ok t) (hu : t.adjustAl fn l = .ok u) :
    ∃ ovf, u.reg .byte 0 = (fn (op (s.reg .byte 0) b s.flags).value (op (s.reg .byte 0) b s.flags).flags ovf).value ∧
      u.flags = (fn (op (s.reg .byte 0) b s.flags).value (op (s.reg .byte 0) b s.flags).flags ovf).flags := by
  obtain ⟨hal, hflags⟩ := binToReg_result ht
  obtain ⟨-, rfl⟩ := adjustAl_ok.1 hu
  rw [← hal, ← hflags]
  exact ⟨t.draw 0, (reg_congr rfl .byte axReg).trans (reg_setReg_same t .byte axReg _), rfl⟩

/-- Settles O36: the adjustment takes AL and the flags that the addition or subtraction leaves. -/
theorem decimalAdjustGivesBcd : Obligations.DecimalAdjustGivesBcd := by
  intro b s t u ha hb
  refine ⟨fun ht hu => ?_, fun ht hu => ?_⟩
  · obtain ⟨ovf, hal, hflags⟩ := adjustAl_after (op := addFlags) (outcome_next.1 ht) (outcome_next.1 hu)
    rw [hal, hflags]
    exact daa_addFlags_bcd ha hb s.flags ovf rfl
  · obtain ⟨ovf, hal, hflags⟩ := adjustAl_after (op := subFlags) (outcome_next.1 ht) (outcome_next.1 hu)
    rw [hal, hflags]
    exact das_subFlags_bcd ha hb s.flags ovf rfl

/-! ## DIV where it completes (R164 to R166) -/

section
variable {s : State} {w : Width} {d : BitVec w.bits} {len : Nat}

theorem dividend_eq (s : State) (w : Width) : s.dividend w = dividendNumber s w := by
  cases w with
  | byte => rfl
  | word => exact toNat_high16 _ _

/-- The numbers that DIV puts into AL and AH, or AX and DX, are those of the division where they fit and satisfy its
equation. -/
theorem dividedBy_putQuotient {q rem : Nat} (hq : q ≤ 2 ^ w.bits - 1) (hrem : rem < d.toNat)
    (hnum : dividendNumber s w = q * d.toNat + rem) :
    DividedBy s w d len { s with
      x := (s.putQuotient w q rem).x, flags := s.divFlags, pc := pcAfter s len, draws := s.draws + 6 } := by
  have hqn : (BitVec.ofNat w.bits q).toNat = q := Nat.mod_eq_of_lt (by have := Nat.two_pow_pos w.bits; omega)
  have hremn : (BitVec.ofNat w.bits rem).toNat = rem := Nat.mod_eq_of_lt (hrem.trans d.isLt)
  refine ⟨BitVec.ofNat w.bits q, BitVec.ofNat w.bits rem, s.divFlags, ?_, ?_, onlyStatus_divFlags s, ?_⟩
  · rw [hqn, hremn, hnum]
  · rwa [hremn]
  · have hput := putQuotient_eq s w q rem
    cases w <;> exact congrArg (fun u : State =>
      { u with flags := s.divFlags, pc := pcAfter s len, draws := s.draws + 6 }) hput.symm

theorem divCore_divides (hd : d ≠ 0) (hq : dividendNumber s w / d.toNat ≤ 2 ^ w.bits - 1) (hc : Continues s len) :
    ∃ t, Res.outcome (s.divCore w d len) = .next t ∧ DividedBy s w d len t := by
  have hpos : 0 < d.toNat := Nat.pos_of_ne_zero fun h => hd (BitVec.eq_of_toNat_eq h)
  rw [← dividend_eq] at hq
  refine ⟨_, outcome_next.2 (divCore_ok.2 (.inl ⟨hd, hq, hc, rfl⟩)), dividedBy_putQuotient hq (Nat.mod_lt _ hpos) ?_⟩
  rw [← dividend_eq, Nat.div_add_mod']

theorem divCore_ends (hd : d ≠ 0) (hq : dividendNumber s w / d.toNat ≤ 2 ^ w.bits - 1) (hc : ¬ Continues s len) :
    EndsPastSegment (Res.outcome (s.divCore w d len)) :=
  endsPastSegment_error (divCore_limit hd (dividend_eq s w ▸ hq) hc)

theorem divMem_of_readable {m : Mem} (h : Readable s (eaSeg m) (s.ea m) w) :
    exec (.divMem w m) s = Res.outcome (s.divCore w (Memory.readValue s.mem (eaAddr s m) w) (2 + m.dispLength)) := by
  rw [exec, execDivMem, readMem_ok.2 ⟨h, rfl⟩, ok_bind, Instr.length]

theorem divMem_fault {m : Mem} (h : ¬ Readable s (eaSeg m) (s.ea m) w) :
    exec (.divMem w m) s = .fault (readFault s (eaSeg m) (s.ea m) w) := by
  rw [exec, execDivMem, readMem_error h, error_bind, outcome_error]

end

theorem modRM_div : ∀ reg : RegNum, modRM 3 0b110 reg = 0b11110#5 ++ reg := by decide

/-- Settles O37: both forms divide by their operand, the memory form after its read. -/
theorem divCompletes : Obligations.DivCompletes := by
  intro w s
  refine ⟨fun reg => ⟨?_, divCore_divides, divCore_ends⟩, fun m => ⟨rfl, divMem_fault, fun h => ?_, fun h => ?_⟩⟩
  · rw [← modRM_div]; rfl
  · rw [divMem_of_readable h]; exact divCore_divides
  · rw [divMem_of_readable h]; exact divCore_ends

/-! ## The frame of INT n, INT 3 and DIV -/

/-- The next states of these instructions: an interrupt entry, and for DIV quotient, remainder and free flags. -/
inductive EntryOrQuotient (i : Instr) (s : State) : State → Prop
  | enter {n : Byte} {ret : Word} {t : State} (h : s.interrupt n ret = .ok t) : EntryOrQuotient i s t
  | quotient (hi : isInt i = false) (w : Width) (q rem : Nat) (pc : Word) : EntryOrQuotient i s
      { s with x := (s.putQuotient w q rem).x, flags := s.divFlags, pc := pc, draws := s.draws + 6 }

section
variable {i : Instr} {s t : State}

theorem entryOrQuotient_divCore (hi : isInt i = false) {w : Width} {d : BitVec w.bits} {len : Nat}
    (h : s.divCore w d len = .ok t) : EntryOrQuotient i s t := by
  rcases divCore_ok.1 h with ⟨-, -, -, rfl⟩ | ⟨-, h⟩
  · exact .quotient hi w _ _ _
  · exact .enter h

theorem exec_entryOrQuotient (hi : isInt i = true ∨ (∃ w r, i = .divReg w r) ∨ ∃ w m, i = .divMem w m)
    (h : exec i s = .next t) : EntryOrQuotient i s t := by
  rcases hi with hi | ⟨w, r, rfl⟩ | ⟨w, m, rfl⟩
  · cases i
    case intN | int3 => exact .enter (outcome_next.1 h)
    all_goals cases hi
  · exact entryOrQuotient_divCore rfl (outcome_next.1 h)
  · obtain ⟨_, -, h⟩ := bind_ok.1 (outcome_next.1 h)
    exact entryOrQuotient_divCore rfl h

end

/-- A write of a word view leaves the other general registers (R21). -/
theorem reg32_setReg_word_ne (s : State) {r q : RegNum} (h : r ≠ q) (v : Word) :
    (s.setReg .word r v).reg32 q = s.reg32 q :=
  reg32_setReg32_ne s h _

/-- AL and AH are in EAX, AX and DX in EAX and EDX; no other general register holds a part of a quotient. -/
theorem reg32_putQuotient_ne (s : State) (w : Width) (q rem : Nat) {r : RegNum} (hax : r ≠ axReg) (hdx : r ≠ dxReg) :
    (s.putQuotient w q rem).reg32 r = s.reg32 r := by
  cases w with
  | byte => exact (reg32_setReg32_ne _ hax.symm _).trans (reg32_setReg32_ne s hax.symm _)
  | word => exact (reg32_setReg_word_ne _ hdx.symm _).trans (reg32_setReg_word_ne s hax.symm _)

/-- Settles O60: by the two effects that these instructions have. -/
theorem interruptAndDivFrame : Obligations.InterruptAndDivFrame := by
  intro i s t h hi
  have hsame := (exec_effect h).segmentsAndLaunch
  cases exec_entryOrQuotient hi h with
  | enter h =>
    obtain ⟨-, -, rfl⟩ := interrupt_ok.1 h
    exact ⟨fun a ha => pushedMemory_frame ha, hsame, ⟨rfl, rfl⟩,
      fun _ => (onlyRegister_setReg s .word spReg _).congr rfl,
      fun q _ _ hsp => reg32_setReg_word_ne s hsp.symm _, ⟨rfl, rfl, rfl, rfl, rfl, rfl, rfl, rfl⟩⟩
  | quotient hi w q rem pc =>
    exact ⟨fun _ _ => rfl, hsame, ⟨rfl, rfl⟩, fun hint => absurd hint (Bool.eq_false_iff.1 hi),
      fun r hax hdx _ => reg32_putQuotient_ne s w q rem hax hdx, ⟨rfl, rfl, rfl, rfl, rfl, rfl, rfl, rfl⟩⟩

end Sys2Proof.Machine
end

section
/-! The family of input and interrupts: an interrupt entry in the words of Safety.lean, and INT n and INT 3 by it. -/

namespace Sys2Proof.Machine

section
variable {s t : State} {n : Byte} {ret : Word}

/-- Where the entry completes on a canonical memory, its state is the one R221 says. -/
theorem interrupt_entered (hm : Memory.wf s.mem = true) (h : s.interrupt n ret = .ok t) : Entered s n ret t := by
  obtain ⟨hstack, -, rfl⟩ := interrupt_ok.1 h
  obtain ⟨hflags, hcs, hret⟩ := pushedMemory_words (ret := ret) hm hstack
  have hsp : (s.setReg .word spReg (s.reg .word spReg - 6)).reg .word spReg = s.reg .word spReg - 6 :=
    reg_setReg_same s .word spReg _
  exact ⟨hsp, (onlyRegister_setReg s .word spReg _).congr rfl, hflags, toWord_isFlagsWord s.flags, hcs, hret,
    fun _ ha => pushedMemory_frame ha, rfl, rfl, rfl, (effect_interrupt h).segmentsAndLaunch, ⟨rfl, rfl⟩, rfl⟩

/-- With room on the stack and the table entry mapped, the entry completes. -/
theorem interrupt_enters (hm : Memory.wf s.mem = true) (hstack : StackRoom s) (hvector : VectorMapped s n) :
    ∃ t, Res.outcome (s.interrupt n ret) = .next t ∧ Entered s n ret t := by
  have h := interrupt_ok (ret := ret).2 ⟨hstack, hvector, rfl⟩
  exact ⟨_, outcome_next.2 h, interrupt_entered hm h⟩

/-- Where a push or a read of the table entry cannot be made, the whole entry is a model fault (R221). -/
theorem interrupt_faults (h : ¬ (StackRoom s ∧ VectorMapped s n)) :
    ∃ f, Res.outcome (s.interrupt n ret) = .fault f := by
  refine outcome_fault.2 fun t ht => ?_
  obtain ⟨hstack, hvector, -⟩ := interrupt_ok.1 ht
  exact h ⟨hstack, hvector⟩

end

/-- Settles O38: INT n and INT 3 are interrupt entries that return to the next instruction. -/
theorem softwareInterruptsEnter : Obligations.SoftwareInterruptsEnter :=
  ⟨fun _ => rfl, rfl, fun _ =>
    ⟨fun hm hstack => ⟨fun _ => interrupt_enters hm hstack, interrupt_enters hm hstack⟩,
      fun _ => interrupt_faults, interrupt_faults⟩⟩

end Sys2Proof.Machine
end

section
/-! The family of moves and logic: what a load into a register and a store of a value can answer, and MOV, NOP, NOT and OR
by these. -/

namespace Sys2Proof

/-- C6h and C7h have one row, with 000 in bits 5..3 of the second byte (R98, R194, R196). -/
theorem decode_groupC6_unlisted (w : Width) (md : BitVec 2) {ext : BitVec 3} (rm : BitVec 3) (rest : List Byte)
    (h : ext ≠ 0) : decode (opW 0b1100011 w :: modRM md ext rm :: rest) = .unlisted rest := by
  obtain ⟨-, hfield, -⟩ := modRM_fields md ext rm
  refine decode_cons (opcodeOf_groupC6 w) (decodeRM_nothing ?_)
  rw [hfield, rmLines, if_neg h]

end Sys2Proof

namespace Sys2Proof.Machine

/-! ## Moves (R190 to R198) -/

/-- The outcome of a form that loads a register from an offset of a segment: the fault of the read; else the operand in the
register and no flag written, or `SegLimit` on CS (R24, R226). -/
structure LoadsRegister (s : State) (w : Width) (seg : SegReg) (off : Word) (dst : RegNum) (len : Nat)
    (o : Host.Outcome State Fault Refusal) : Prop where
  fault : ¬ Readable s seg off w → o = .fault (readFault s seg off w)
  next : Readable s seg off w → Continues s len → o = .next
    { s.setReg w dst (Memory.readValue s.mem (physAddr (s.seg seg) off.toNat) w) with pc := pcAfter s len }
  limit : Readable s seg off w → ¬ Continues s len → EndsPastSegment o

/-- The outcome of a form that stores a value at an offset of a segment without reading there: the fault of the write; else
the value in memory and no flag written, or `SegLimit` on CS (R24, R226). -/
structure StoresValue (s : State) {w : Width} (seg : SegReg) (off : Word) (v : BitVec w.bits) (len : Nat)
    (o : Host.Outcome State Fault Refusal) : Prop where
  fault : ¬ Writable s seg off w → o = .fault (writeFault s seg off w)
  next : Writable s seg off w → Continues s len → o = .next
    { s with mem := Memory.writeValue s.mem (physAddr (s.seg seg) off.toNat) w v, pc := pcAfter s len }
  limit : Writable s seg off w → ¬ Continues s len → EndsPastSegment o

section
variable {s : State} {w : Width} {seg : SegReg} {off : Word} {dst : RegNum} {v : BitVec w.bits} {len : Nat}

theorem moveToReg_next (hc : Continues s len) :
    Res.outcome (s.moveToReg dst v len) = .next { s.setReg w dst v with pc := pcAfter s len } :=
  outcome_next.2 (moveToReg_ok.2 ⟨hc, rfl⟩)

/-- A read at the offset, then a move of what it gave. -/
theorem segRead_moveToReg_loads :
    LoadsRegister s w seg off dst len (Res.outcome (s.segRead seg off w >>= fun v => s.moveToReg dst v len)) where
  fault h := by rw [segRead_error h, error_bind, outcome_error]
  next h hc := by rw [segRead_ok.2 ⟨h, rfl⟩, ok_bind, moveToReg_next hc]
  limit h hc := by
    rw [segRead_ok.2 ⟨h, rfl⟩, ok_bind]
    exact endsPastSegment_error (moveToReg_limit hc)

theorem moveToSeg_stores : StoresValue s seg off v len (Res.outcome (s.moveToSeg seg off v len)) where
  fault h := congrArg Res.outcome (moveToSeg_error h)
  next h hc := outcome_next.2 (moveToSeg_ok.2 ⟨h, hc, rfl⟩)
  limit h hc := endsPastSegment_error (moveToSeg_limit h hc)

end

/-- Settles O48: each form moves its source; the refusal is that of the group C6h, C7h. -/
theorem movToRegister : Obligations.MovToRegister := by
  refine fun s => ⟨fun w reg1 reg2 => ⟨rfl, rfl, fun hc => ⟨moveToReg_next hc, moveToReg_next hc⟩⟩,
    fun imm reg => ?_, fun w md _ rm rest => decode_groupC6_unlisted w md rm rest⟩
  rw [plainOperand_eq, ← modRM_add]
  exact ⟨rfl, rfl, moveToReg_next, moveToReg_next⟩

/-- Settles O49: both forms load a register, from EA in its segment or from DS:offset. -/
theorem movFromMemory : Obligations.MovFromMemory := by
  intro w s
  refine ⟨fun reg m => ?_, fun off => ?_⟩
  · have h : LoadsRegister s w (eaSeg m) (s.ea m) reg (2 + m.dispLength) (exec (.movMemToReg w reg m) s) :=
      segRead_moveToReg_loads
    exact ⟨rfl, h.fault, h.next, h.limit⟩
  · have h : LoadsRegister s w .ds off axReg 3 (exec (.movMemToAcc w off) s) := segRead_moveToReg_loads
    exact ⟨rfl, h.fault, h.next, h.limit⟩

/-- Settles O50: the three forms store a value, at EA in its segment or at DS:offset. -/
theorem movToMemory : Obligations.MovToMemory := by
  intro s
  refine ⟨fun w reg m => ?_, fun imm m => ?_, fun w off => ?_⟩
  · have h : StoresValue s (eaSeg m) (s.ea m) (s.reg w reg) (2 + m.dispLength) (exec (.movRegToMem w reg m) s) :=
      moveToSeg_stores
    exact ⟨rfl, h.fault, h.next, h.limit⟩
  · rw [plainOperand_eq]
    have h : StoresValue s (eaSeg m) (s.ea m) (immValue imm) (2 + m.dispLength + imm.length)
        (exec (.movImmToMem imm m) s) := moveToSeg_stores
    exact ⟨rfl, h.fault, h.next, h.limit⟩
  · have h : StoresValue s .ds off (s.reg w axReg) 3 (exec (.movAccToMem w off) s) := moveToSeg_stores
    exact ⟨rfl, h.fault, h.next, h.limit⟩

/-! ## NOP (R199) -/

/-- Settles O51: NOP does nothing but go on to `next`. -/
theorem nopOnlyAdvances : Obligations.NopOnlyAdvances :=
  ⟨rfl, fun _ => ⟨fun hc => outcome_next.2 (advance_ok.2 ⟨hc, rfl⟩),
    fun hc => endsPastSegment_error (advance_limit rfl hc)⟩⟩

/-! ## NOT (R200, R201) -/

/-- What NOT gives: every bit inverted, the flags as before. -/
def IsNot (w : Width) : UnRel w := fun a f r g => (∀ k < w.bits, r.getLsbD k = !a.getLsbD k) ∧ g = f

theorem isNot_notFlags {w : Width} (a : BitVec w.bits) (f : Flags) :
    IsNot w a f (notFlags a f).value (notFlags a f).flags := by
  refine ⟨fun k hk => ?_, rfl⟩
  rw [notFlags, BitVec.getLsbD_not, decide_eq_true hk, Bool.true_and]

theorem modRM_not : ∀ reg : RegNum, modRM 3 0b010 reg = 0b11010#5 ++ reg := by decide

/-- Settles O52: both forms give the inverted operand and put back the flags they found. -/
theorem notInvertsBits : Obligations.NotInvertsBits := by
  intro w s
  refine ⟨fun reg => ⟨?_, fun hc => ?_⟩, fun m => ?_⟩
  · rw [← modRM_not]; rfl
  · obtain ⟨r, _, ⟨hbits, rfl⟩, hexec⟩ := unReg_next (dst := reg) isNot_notFlags hc
    rw [← setReg_flags s w reg r] at hexec
    exact ⟨r, hbits, hexec⟩
  · have h : StoresResult s w m (2 + m.dispLength) _ (exec (.notMem w m) s) := unMem_stores isNot_notFlags
    refine ⟨rfl, h.fault, fun hw hc => ?_, h.limit⟩
    obtain ⟨r, _, ⟨hbits, rfl⟩, hexec⟩ := h.next hw hc
    exact ⟨r, hbits, hexec⟩

/-! ## OR (R202, R203) -/

/-- Whatever AF was drawn, the result and the other flags are those of OR. -/
theorem isOr_orFlags {n : Nat} (af : Bool) (a b : BitVec n) (f : Flags) :
    IsOr a b f (orFlags af a b f).value (orFlags af a b f).flags :=
  ⟨fun _ _ => BitVec.getLsbD_or, rfl, rfl, szpOf_setSZP _ _, onlyStatus_orFlags af a b f⟩

theorem binToReg_drawn_next {s : State} {w : Width} {op : BinOp w} {R : BinRel w} {dst : RegNum} {v : BitVec w.bits}
    {len : Nat} (hop : ∀ a b f, R a b f (op a b f).value (op a b f).flags) (hc : Continues s len) :
    ∃ r g, R (s.reg w dst) v s.flags r g ∧ Res.outcome ((s.drawn 1).binToReg op dst v len) =
      .next { s.setReg w dst r with flags := g, pc := pcAfter s len, draws := s.draws + 1 } :=
  ⟨_, _, hop _ _ _, outcome_next.2 (binToReg_drawn_ok.2 ⟨hc, rfl⟩)⟩

/-- Settles O53: `orFlags` gives the OR, in either direction, after one draw for AF. -/
theorem orBetweenRegisters : Obligations.OrBetweenRegisters :=
  fun _ _ _ _ => ⟨rfl, rfl, fun hc =>
    ⟨binToReg_drawn_next (isOr_orFlags _) hc, binToReg_drawn_next (isOr_orFlags _) hc⟩⟩

end Sys2Proof.Machine
end

section
/-! The family of exceptions: a DIV that raises the divide error is an entry of vector 0, by the lemmas about interrupt
entry. -/

namespace Sys2Proof.Machine

section
variable {s : State} {w : Width} {d : BitVec w.bits} {len : Nat}

/-- `DivCore` of R164 raises the divide error: the divisor is 0, or the quotient needs more than n bits. -/
abbrev DivideErrs (s : State) (w : Width) (d : BitVec w.bits) : Prop :=
  d = 0 ∨ 2 ^ w.bits ≤ dividendNumber s w / d.toNat

/-- R223: nothing of the DIV is done before the entry, and the offset saved is `ip0`. -/
theorem divCore_eq_interrupt (h : DivideErrs s w d) : s.divCore w d len = s.interrupt 0 s.pc := by
  by_cases hd : d = 0
  · rw [State.divCore, if_pos hd]
    rfl
  · have hover : 2 ^ w.bits - 1 < s.dividend w / d.toNat := by
      rw [dividend_eq]
      exact Nat.sub_one_lt_of_le (Nat.two_pow_pos _) (h.resolve_left hd)
    rw [State.divCore, if_neg hd]
    exact if_pos hover

/-- Either the entry of vector 0 completes, or it cannot be made and the whole DIV is a model fault (R221, R223). -/
theorem divCore_entersVectorZero (h : DivideErrs s w d) :
    (Memory.wf s.mem = true → StackRoom s → VectorMapped s 0 →
      ∃ t, Res.outcome (s.divCore w d len) = .next t ∧ Entered s 0 s.pc t) ∧
    (¬ (StackRoom s ∧ VectorMapped s 0) → ∃ f, Res.outcome (s.divCore w d len) = .fault f) := by
  rw [divCore_eq_interrupt h]
  exact ⟨interrupt_enters, interrupt_faults⟩

end

/-- Settles O39: both forms divide by their operand, the memory form after its read. -/
theorem divideErrorEntersVectorZero : Obligations.DivideErrorEntersVectorZero := by
  intro w s
  refine ⟨fun reg => divCore_entersVectorZero, fun m hread => ?_⟩
  rw [divMem_of_readable hread]
  exact divCore_entersVectorZero

end Sys2Proof.Machine
end

section
/-! The family of reset and hazards: the end of a run, by what the model's comparison with `HaltAt` decides. -/

namespace Sys2Proof.Machine

/-- At `HaltAt` a step answers the state it was given, whatever bytes stand at CS:IP (R254, log 6). -/
theorem step_of_final {s : State} (h : Final s) : step s = .next s := by
  rw [step, if_pos (atHalt_iff.2 h)]

/-- Settles O10: the branch of `step` for a state whose run is over. -/
theorem stepAtHaltKeepsState : Obligations.StepAtHaltKeepsState := fun _ => step_of_final

end Sys2Proof.Machine
end
